-- ==== Sys2Proof/Word.lean ====
section
/-! DEFINITION. The word types of the ChineseFountain CORE (00_scope.md R7, R9; 20_memory.md R60; 30_encoding.md R82). -/

namespace Sys2Proof

/-- A 32-bit register, argument, result or command word (10_state.md R30, 30_encoding.md R80). -/
abbrev Word := BitVec 32

/-- One byte of DMEM (20_memory.md R60). -/
abbrev Byte := BitVec 8

/-- The index of a big register, `b0` to `b15`; every value is a valid register (30_encoding.md R82). -/
abbrev Reg := Fin 16

end Sys2Proof
end

