-- ==== Sys2Proof/Config.lean ====
section
/-! DEFINITION. What an implementation fixes (00_scope.md R8) and the values the spec leaves open (20_memory.md R63). -/

namespace Sys2Proof

/-- The implementation parameters of 00_scope.md R8. A machine's parameters stand in its state, so that a statement about
every state is a statement about every choice of them; no step writes them (log 2). -/
structure Params where
  /-- `MAXW`, the 32-bit words of a stored big value; `none` is the unbounded `MAXW` that R8 allows. -/
  maxW : Option Nat
  /-- `DMEM_SIZE`, the bytes of data memory. -/
  dmemSize : Nat
  /-- `MAXB`, the entries of the decoder's bundle store. -/
  maxB : Nat
  /-- `MAXK`, the entries of the CRT table. -/
  maxK : Nat
  /-- `MAXH`, the hunk registers. -/
  maxH : Nat
  /-- `CPMAX`, the entries of the coprime cache. -/
  cpMax : Nat
deriving DecidableEq, Repr

/-- The defaults of 00_scope.md R8. -/
def Params.default : Params where
  maxW := some 256
  dmemSize := 65536
  maxB := 256
  maxK := 256
  maxH := 512
  cpMax := 6493

/-- FREE VALUE. The byte that DMEM address `a` holds after the machine's `epoch`-th power-on, until something writes it:
an unconstrained draw, the same for host and engine (20_memory.md R63, 93_implementation_defined.md I4; log 4). -/
opaque Config.powerOnByte (epoch a : Nat) : Byte

/-- FREE VALUE. What a 32-bit register shows of a count of `2^32` or more, which the spec does not state
(DESIGN CHOICE, log 5). No such count arises under the defaults of 00_scope.md R8. -/
opaque Config.wideCount (n : Nat) : Word

end Sys2Proof
end

