-- ==== Sys2Proof/Syntax.lean ====
section
/-! DEFINITION. The 31 commands of 30_encoding.md R84, one constructor per row of spec/opcode_table.json. The fields are
the register operands the row uses, in the order D, A, B, C; scalar operands come from the argument registers (R83). -/

namespace Sys2Proof

/-- A command of the CF-CORE command set, revision 1 (00_scope.md R1, 30_encoding.md R84). -/
inductive Instr where
  /-- `NOP` (40_alu.md R101) -/
  | nop
  /-- `LDI bD` (40_alu.md R102) -/
  | ldi (d : Reg)
  /-- `MOV bD, bA` (40_alu.md R103) -/
  | mov (d a : Reg)
  /-- `ADD bD, bA, bB` (40_alu.md R104) -/
  | add (d a b : Reg)
  /-- `SUB bD, bA, bB` (40_alu.md R105) -/
  | sub (d a b : Reg)
  /-- `MUL bD, bA, bB` (40_alu.md R106) -/
  | mul (d a b : Reg)
  /-- `REM bD, bA, bB` (40_alu.md R107) -/
  | rem (d a b : Reg)
  /-- `MOD bD, bA, bB` (40_alu.md R108) -/
  | mod (d a b : Reg)
  /-- `GCD bD, bA, bB` (40_alu.md R109) -/
  | gcd (d a b : Reg)
  /-- `MINV bD, bA, bB` (40_alu.md R110) -/
  | minv (d a b : Reg)
  /-- `POW bD` (40_alu.md R111) -/
  | pow (d : Reg)
  /-- `MPOW bD, bA, bB, bC` (40_alu.md R112) -/
  | mpow (d a b c : Reg)
  /-- `CMP bA, bB` (40_alu.md R113) -/
  | cmp (a b : Reg)
  /-- `SHL bD, bA` (40_alu.md R114) -/
  | shl (d a : Reg)
  /-- `SHR bD, bA` (40_alu.md R115) -/
  | shr (d a : Reg)
  /-- `LDBE bD` (41_bytes.md R140) -/
  | ldbe (d : Reg)
  /-- `STBE bA` (41_bytes.md R141) -/
  | stbe (a : Reg)
  /-- `STBEW bA` (41_bytes.md R142) -/
  | stbew (a : Reg)
  /-- `CPGET bD` (42_coprime.md R152) -/
  | cpget (d : Reg)
  /-- `CRTCOEF` (43_crt.md R161) -/
  | crtcoef
  /-- `CRTCOMB bD` (43_crt.md R163) -/
  | crtcomb (d : Reg)
  /-- `CRTW bD` (43_crt.md R164) -/
  | crtw (d : Reg)
  /-- `CRTM bD` (43_crt.md R165) -/
  | crtm (d : Reg)
  /-- `CRTBASE bD` (43_crt.md R166) -/
  | crtbase (d : Reg)
  /-- `ENCINIT` (44_codec.md R190) -/
  | encinit
  /-- `ENCGEN` (44_codec.md R192) -/
  | encgen
  /-- `ENCHUNK bD` (44_codec.md R193) -/
  | enchunk (d : Reg)
  /-- `DECINIT` (44_codec.md R194) -/
  | decinit
  /-- `DECPUSH` (44_codec.md R195) -/
  | decpush
  /-- `DECDONE` (44_codec.md R196) -/
  | decdone
  /-- `DECREC` (44_codec.md R198) -/
  | decrec
deriving DecidableEq, Repr

end Sys2Proof
end

