-- ==== Sys2Proof/WellFormed.lean ====
section
/-! DEFINITION. What is well formed: command words (30_encoding.md R84 to R86, by match and mask) and implementation
parameters (00_scope.md R8). A term of `Instr` carries its own well-formedness: its fields are register indices below 16,
and every such index is valid (R82), so every term is a well-formed command. -/

namespace Sys2Proof

/-- A row of the opcode map: its opcode and which register fields the command uses (30_encoding.md R84). -/
structure OpRow where
  op : Nat
  usesD : Bool := false
  usesA : Bool := false
  usesB : Bool := false
  usesC : Bool := false
deriving DecidableEq, Repr

/-- `match = OP << 24` (30_encoding.md R85). -/
def OpRow.pattern (r : OpRow) : Word := BitVec.ofNat 32 r.op <<< 24

/-- `mask = 0xFF0000FF` or the mask of each field the command does not use (30_encoding.md R85). -/
def OpRow.mask (r : OpRow) : Word :=
  0xFF0000FF#32
    ||| (if r.usesD then 0#32 else 0x00F00000#32)
    ||| (if r.usesA then 0#32 else 0x000F0000#32)
    ||| (if r.usesB then 0#32 else 0x0000F000#32)
    ||| (if r.usesC then 0#32 else 0x00000F00#32)

/-- "A word `w` selects the command when `(w & mask) == match`" (30_encoding.md R85). -/
def OpRow.selects (r : OpRow) (w : Word) : Bool := w &&& r.mask == r.pattern

/-- The opcode map of 30_encoding.md R84, in its order. -/
def opRows : List OpRow := [
  ⟨0x00, false, false, false, false⟩, ⟨0x01, true, false, false, false⟩, ⟨0x02, true, true, false, false⟩,
  ⟨0x10, true, true, true, false⟩, ⟨0x11, true, true, true, false⟩, ⟨0x12, true, true, true, false⟩,
  ⟨0x13, true, true, true, false⟩, ⟨0x14, true, true, true, false⟩, ⟨0x15, true, true, true, false⟩,
  ⟨0x16, true, true, true, false⟩, ⟨0x17, true, false, false, false⟩, ⟨0x18, true, true, true, true⟩,
  ⟨0x19, false, true, true, false⟩, ⟨0x1A, true, true, false, false⟩, ⟨0x1B, true, true, false, false⟩,
  ⟨0x20, true, false, false, false⟩, ⟨0x21, false, true, false, false⟩, ⟨0x22, false, true, false, false⟩,
  ⟨0x30, true, false, false, false⟩,
  ⟨0x40, false, false, false, false⟩, ⟨0x41, true, false, false, false⟩, ⟨0x42, true, false, false, false⟩,
  ⟨0x43, true, false, false, false⟩, ⟨0x44, true, false, false, false⟩,
  ⟨0x50, false, false, false, false⟩, ⟨0x51, false, false, false, false⟩, ⟨0x52, true, false, false, false⟩,
  ⟨0x58, false, false, false, false⟩, ⟨0x59, false, false, false, false⟩, ⟨0x5A, false, false, false, false⟩,
  ⟨0x5B, false, false, false, false⟩]

/-- A command word is legal when a row of the opcode map selects it (30_encoding.md R85, R86). -/
def legalWord (w : Word) : Bool := opRows.any (·.selects w)

/-- The constraints of 00_scope.md R8 on the parameters. -/
def Params.wf (p : Params) : Bool :=
  (match p.maxW with
    | none => true
    | some w => decide (50 ≤ w) && decide (16 * p.maxB ≤ 32 * w))
  && (decide (1 ≤ p.dmemSize) && decide (p.dmemSize ≤ 2 ^ 31))
  && decide (101 ≤ p.maxB)
  && decide (1 ≤ p.maxK)
  && (decide (1 ≤ p.maxH) && decide (p.maxH ≤ 2 ^ 24))
  && decide (1 ≤ p.cpMax)

end Sys2Proof
end

