-- ==== Sys2Proof/Decode.lean ====
section
/-! DEFINITION. The decoder of 30_encoding.md R81 to R86, total on every word, and the encoder of R85. -/

namespace Sys2Proof

/-- Why a word is illegal (30_encoding.md R86). -/
inductive Illegal where
  /-- no row of R84 has the word's OP -/
  | unassignedOpcode
  /-- a nonzero bit in Z or in a register field the command does not use -/
  | nonzeroReserved
deriving DecidableEq, Repr

/-- OP, bits [31:24] (30_encoding.md R81). -/
def fieldOP (w : Word) : Nat := w.toNat / 0x1000000

/-- D, bits [23:20] (30_encoding.md R81). -/
def fieldD (w : Word) : Reg := Fin.ofNat 16 (w.toNat / 0x100000)

/-- A, bits [19:16] (30_encoding.md R81). -/
def fieldA (w : Word) : Reg := Fin.ofNat 16 (w.toNat / 0x10000)

/-- B, bits [15:12] (30_encoding.md R81). -/
def fieldB (w : Word) : Reg := Fin.ofNat 16 (w.toNat / 0x1000)

/-- C, bits [11:8] (30_encoding.md R81). -/
def fieldC (w : Word) : Reg := Fin.ofNat 16 (w.toNat / 0x100)

/-- Z, bits [7:0] (30_encoding.md R81). -/
def fieldZ (w : Word) : Nat := w.toNat % 0x100

/-- `i`, if the fields named unused here and Z are 0 (30_encoding.md R81, R86). -/
def ifUnusedZero (w : Word) (unused : List (Word → Reg)) (i : Instr) : Except Illegal Instr :=
  if fieldZ w = 0 ∧ unused.all (fun f => f w == 0) = true then .ok i else .error .nonzeroReserved

/-- The command a word encodes, or why it is illegal (30_encoding.md R84, R86). -/
def decode (w : Word) : Except Illegal Instr :=
  let d := fieldD w
  let a := fieldA w
  let b := fieldB w
  let c := fieldC w
  match fieldOP w with
  | 0x00 => ifUnusedZero w [fieldD, fieldA, fieldB, fieldC] .nop
  | 0x01 => ifUnusedZero w [fieldA, fieldB, fieldC] (.ldi d)
  | 0x02 => ifUnusedZero w [fieldB, fieldC] (.mov d a)
  | 0x10 => ifUnusedZero w [fieldC] (.add d a b)
  | 0x11 => ifUnusedZero w [fieldC] (.sub d a b)
  | 0x12 => ifUnusedZero w [fieldC] (.mul d a b)
  | 0x13 => ifUnusedZero w [fieldC] (.rem d a b)
  | 0x14 => ifUnusedZero w [fieldC] (.mod d a b)
  | 0x15 => ifUnusedZero w [fieldC] (.gcd d a b)
  | 0x16 => ifUnusedZero w [fieldC] (.minv d a b)
  | 0x17 => ifUnusedZero w [fieldA, fieldB, fieldC] (.pow d)
  | 0x18 => ifUnusedZero w [] (.mpow d a b c)
  | 0x19 => ifUnusedZero w [fieldD, fieldC] (.cmp a b)
  | 0x1A => ifUnusedZero w [fieldB, fieldC] (.shl d a)
  | 0x1B => ifUnusedZero w [fieldB, fieldC] (.shr d a)
  | 0x20 => ifUnusedZero w [fieldA, fieldB, fieldC] (.ldbe d)
  | 0x21 => ifUnusedZero w [fieldD, fieldB, fieldC] (.stbe a)
  | 0x22 => ifUnusedZero w [fieldD, fieldB, fieldC] (.stbew a)
  | 0x30 => ifUnusedZero w [fieldA, fieldB, fieldC] (.cpget d)
  | 0x40 => ifUnusedZero w [fieldD, fieldA, fieldB, fieldC] .crtcoef
  | 0x41 => ifUnusedZero w [fieldA, fieldB, fieldC] (.crtcomb d)
  | 0x42 => ifUnusedZero w [fieldA, fieldB, fieldC] (.crtw d)
  | 0x43 => ifUnusedZero w [fieldA, fieldB, fieldC] (.crtm d)
  | 0x44 => ifUnusedZero w [fieldA, fieldB, fieldC] (.crtbase d)
  | 0x50 => ifUnusedZero w [fieldD, fieldA, fieldB, fieldC] .encinit
  | 0x51 => ifUnusedZero w [fieldD, fieldA, fieldB, fieldC] .encgen
  | 0x52 => ifUnusedZero w [fieldA, fieldB, fieldC] (.enchunk d)
  | 0x58 => ifUnusedZero w [fieldD, fieldA, fieldB, fieldC] .decinit
  | 0x59 => ifUnusedZero w [fieldD, fieldA, fieldB, fieldC] .decpush
  | 0x5A => ifUnusedZero w [fieldD, fieldA, fieldB, fieldC] .decdone
  | 0x5B => ifUnusedZero w [fieldD, fieldA, fieldB, fieldC] .decrec
  | _ => .error .unassignedOpcode

/-- `w = OP<<24 | D<<20 | A<<16 | B<<12 | C<<8`, with Z = 0; the fields do not overlap, so the sum is the disjunction
(30_encoding.md R85). -/
def pack (op : Nat) (d a b c : Reg) : Word :=
  BitVec.ofNat 32 (op * 0x1000000 + d.val * 0x100000 + a.val * 0x10000 + b.val * 0x1000 + c.val * 0x100)

/-- The word that encodes a command, its unused fields 0 (30_encoding.md R84, R85). -/
def encode : Instr → Word
  | .nop => pack 0x00 0 0 0 0
  | .ldi d => pack 0x01 d 0 0 0
  | .mov d a => pack 0x02 d a 0 0
  | .add d a b => pack 0x10 d a b 0
  | .sub d a b => pack 0x11 d a b 0
  | .mul d a b => pack 0x12 d a b 0
  | .rem d a b => pack 0x13 d a b 0
  | .mod d a b => pack 0x14 d a b 0
  | .gcd d a b => pack 0x15 d a b 0
  | .minv d a b => pack 0x16 d a b 0
  | .pow d => pack 0x17 d 0 0 0
  | .mpow d a b c => pack 0x18 d a b c
  | .cmp a b => pack 0x19 0 a b 0
  | .shl d a => pack 0x1A d a 0 0
  | .shr d a => pack 0x1B d a 0 0
  | .ldbe d => pack 0x20 d 0 0 0
  | .stbe a => pack 0x21 0 a 0 0
  | .stbew a => pack 0x22 0 a 0 0
  | .cpget d => pack 0x30 d 0 0 0
  | .crtcoef => pack 0x40 0 0 0 0
  | .crtcomb d => pack 0x41 d 0 0 0
  | .crtw d => pack 0x42 d 0 0 0
  | .crtm d => pack 0x43 d 0 0 0
  | .crtbase d => pack 0x44 d 0 0 0
  | .encinit => pack 0x50 0 0 0 0
  | .encgen => pack 0x51 0 0 0 0
  | .enchunk d => pack 0x52 d 0 0 0
  | .decinit => pack 0x58 0 0 0 0
  | .decpush => pack 0x59 0 0 0 0
  | .decdone => pack 0x5A 0 0 0 0
  | .decrec => pack 0x5B 0 0 0 0

/-- The command the decoder reads from an instruction of spec/opcode_table.json whose bits are `w`, of which the table
gives `nbits`. A command is one 32-bit word the host writes to CMD (30_encoding.md R80), so there is no byte order to undo. -/
def decodeTableWord (nbits w : Nat) : Option Instr :=
  match decode (BitVec.ofNat 32 (w % 2 ^ nbits)) with
  | .ok i => some i
  | .error _ => none

end Sys2Proof
end

