-- ==== Sys2Proof/Machine/State.lean ====
section
/-! DEFINITION. The state of the machine as plain data, the state after reset, and the reasons a step can stop. -/

namespace Sys2Proof.Machine

/-- FLAGS (10_state.md R22). CMP alone writes `lt`, `eq` and `gt`; DECDONE and DECINIT alone write `c`. -/
structure Flags where
  lt : Bool
  eq : Bool
  gt : Bool
  c : Bool
deriving DecidableEq, Repr

/-- STATUS (10_state.md R33); its other bits read 0. -/
structure Status where
  busy : Bool
  done : Bool
  err : Bool
  drop : Bool
  ecode : BitVec 4
deriving DecidableEq, Repr

/-- One entry of the CRT table: the modulus `CRT.M[i]` and the weight `CRT.W[i]` (10_state.md R26). -/
structure CrtEntry where
  m : Nat
  w : Nat
deriving DecidableEq, Repr

/-- The CRT table (10_state.md R26). `CRT.K` is the length of `entries`; entries at `K` and above hold no value. -/
structure Crt where
  entries : List CrtEntry
  base : Nat
deriving DecidableEq, Repr

/-- The encoder state (10_state.md R27). `h` lists the hunk registers from `ENC.H[0]`; a register past its end holds 0. -/
structure Enc where
  valid : Bool
  len : Nat
  bsize : Nat
  plen : Nat
  minb : Nat
  hsize : Nat
  nh : Nat
  h : List Nat
deriving DecidableEq, Repr

/-- The decoder state (10_state.md R28). `s` is the bundle store `DEC.S` as pairs of index and bytes, the indices strictly
rising; `DEC.COUNT` is its length. -/
structure Dec where
  valid : Bool
  len : Nat
  bsize : Nat
  plen : Nat
  minb : Nat
  hsize : Nat
  nh : Nat
  s : List (Nat × List Byte)
deriving DecidableEq, Repr

/-- DMEM as the bytes written since power-on, the addresses strictly rising (20_memory.md R60, R63; log 4). -/
abbrev Memory := List Host.Cell

/-- The canonical form of memory: addresses strictly rising. An unlisted address holds no written value, so no entry can
equal it. -/
abbrev Memory.wf (m : Memory) : Prop := m.Pairwise (fun x y => x.1 < y.1)

/-- What happens next outside the engine, or the engine's turn (00_scope.md R5, R6; 20_memory.md R70; log 1). A window
offset below `0x8000_0000` is a register access, one at or above it a DMEM access at the offset less `0x8000_0000`
(10_state.md R30, 20_memory.md R61), so bit 31 of the offset is the constructor (log 8). -/
inductive Event where
  /-- the engine moves: it completes the command in flight, if there is one -/
  | engine
  /-- the host reads `n` bytes at register-window offset `o` -/
  | regRead (o : BitVec 31) (n : Nat)
  /-- the host writes the value `v` with an access of `n` bytes at register-window offset `o` -/
  | regWrite (o : BitVec 31) (n : Nat) (v : Word)
  /-- the host reads `n` bytes at window offset `0x8000_0000 + a` -/
  | memRead (a : BitVec 31) (n : Nat)
  /-- the host writes bytes at window offset `0x8000_0000 + a`, in ascending address order -/
  | memWrite (a : BitVec 31) (bytes : List Byte)
  /-- power-on reset (70_reset_and_hazards.md R250; log 3) -/
  | powerOn
deriving DecidableEq, Repr

/-- What a read of the host's returned. -/
inductive Answer where
  /-- a register-window read -/
  | word (v : Word)
  /-- a DMEM read, in ascending address order -/
  | bytes (l : List Byte)
deriving DecidableEq, Repr

/-- The machine: the spec's state (INVENTORY.md lists each piece with its rule), then the model's own three fields. -/
structure State where
  /-- the implementation parameters (00_scope.md R8), never written -/
  par : Params
  /-- `b0` to `b15` (10_state.md R20) -/
  regs : Vector Int 16
  /-- FLAGS (10_state.md R22) -/
  flags : Flags
  /-- RES0 (10_state.md R23) -/
  res0 : Word
  /-- RES1 (10_state.md R23) -/
  res1 : Word
  /-- MAXBITS (10_state.md R24) -/
  maxBits : Word
  /-- the coprime cache from `CP[0]`; `CPLEN` is its length (10_state.md R25) -/
  cp : List Nat
  /-- the CRT table (10_state.md R26) -/
  crt : Crt
  /-- the encoder (10_state.md R27) -/
  enc : Enc
  /-- the decoder (10_state.md R28) -/
  dec : Dec
  /-- STATUS, BUSY of R29 included (10_state.md R33) -/
  status : Status
  /-- LCMD (10_state.md R29) -/
  lcmd : Word
  /-- LARG0 (10_state.md R29) -/
  larg0 : Word
  /-- LARG1 (10_state.md R29) -/
  larg1 : Word
  /-- LARG2 (10_state.md R29) -/
  larg2 : Word
  /-- ARG0 (10_state.md R36) -/
  arg0 : Word
  /-- ARG1 (10_state.md R36) -/
  arg1 : Word
  /-- ARG2 (10_state.md R36) -/
  arg2 : Word
  /-- DMEM (20_memory.md R60) -/
  mem : Memory
  /-- the MODEL's own: which power-on this is, for the draw of unwritten bytes (log 4) -/
  epoch : Nat
  /-- the MODEL's own: the events still to come (log 1) -/
  script : List Event
  /-- the MODEL's own: what the host's reads returned, newest first (log 1) -/
  answers : List Answer
deriving DecidableEq, Repr

/-- The reset values of 10_state.md R48 and R29, with what a reset does not set given. -/
def State.resetWith (par : Params) (mem : Memory) (epoch : Nat) (script : List Event) (answers : List Answer) : State where
  par := par
  regs := Vector.replicate 16 0
  flags := ⟨false, false, false, false⟩
  res0 := 0
  res1 := 0
  maxBits := 0
  cp := [65535]
  crt := ⟨[], 1⟩
  enc := ⟨false, 0, 0, 0, 0, 0, 0, []⟩
  dec := ⟨false, 0, 0, 0, 0, 0, 0, []⟩
  status := ⟨false, false, false, false, 0⟩
  lcmd := 0
  larg0 := 0
  larg1 := 0
  larg2 := 0
  arg0 := 0
  arg1 := 0
  arg2 := 0
  mem := mem
  epoch := epoch
  script := script
  answers := answers

/-- The machine right after power-on reset with the default parameters (10_state.md R48, 70_reset_and_hazards.md R250):
no byte of DMEM written, no event to come. -/
def State.reset : State := State.resetWith Params.default [] 0 [] []

/-- The errors of 60_exceptions.md R220, in the order of their codes. A command that raises one completes with it: it is
no `Fault`. -/
inductive CoreErr where
  | invalidArgument
  | notInvertible
  | exhausted
  | overflow
  | reconstructionFailed
  | dataTooLarge
  | illegalCommand
  | capacityExceeded
  | incomplete
  | notInitialised
  | addressError
deriving DecidableEq, Repr

/-- The reasons the machine stops. THERE ARE NONE: every error of the spec completes its command (60_exceptions.md R223,
R224), every host access has an effect or none (10_state.md R44), and every command completes (70_reset_and_hazards.md
R262). Safe (log 13). -/
inductive Fault
deriving DecidableEq, Repr

/-- The reasons the model has no meaning for a command. -/
inductive Refusal where
  /-- raised by an arm of `exec` whose command has no meaning yet; safe. No arm raises it. -/
  | notModelled (mnemonic : String)
deriving DecidableEq, Repr

end Sys2Proof.Machine
end

