-- ==== Sys2Proof/Machine/Operands.lean ====
section
/-! DEFINITION. Operands and the helper functions on integers and bytes (00_scope.md R10 to R13; 30_encoding.md R82, R83). -/

namespace Sys2Proof.Machine

/-! ## Integers (00_scope.md R12) -/

/-- `bitlen(v)` (00_scope.md R12). -/
def bitlen (v : Int) : Nat := if v = 0 then 0 else Nat.log2 v.natAbs + 1

/-- `words(v)`: the length of the canonical magnitude (00_scope.md R12). -/
def words (v : Int) : Nat := (bitlen v + 31) / 32

/-- `minlen(v)`: the byte length of the minimal big-endian form of `|v|` (00_scope.md R12). -/
def minlen (v : Int) : Nat := (bitlen v + 7) / 8

/-- `fromBE(s)`, the most significant byte first (00_scope.md R12, R13). -/
def fromBE (s : List Byte) : Nat := s.foldl (fun acc b => acc * 256 + b.toNat) 0

/-- The low `n` bytes of `v`, most significant first, before `acc`. -/
def toBEOnto : Nat → Nat → List Byte → List Byte
  | _, 0, acc => acc
  | v, n + 1, acc => toBEOnto (v / 256) n (BitVec.ofNat 8 v :: acc)

/-- `toBE(v, n)`, for `v < 256^n` (00_scope.md R12, R13). -/
def toBE (v n : Nat) : List Byte := toBEOnto v n []

/-- A number as a 32-bit register shows it: the number itself below `2^32`. The spec states nothing for a greater one,
which is a free value (DESIGN CHOICE, log 5). -/
def countWord (n : Nat) : Word := if n < 2 ^ 32 then BitVec.ofNat 32 n else Config.wideCount n

/-! ## Register and scalar operands -/

/-- `b[i]` (00_scope.md R11, 30_encoding.md R82). -/
def State.reg (s : State) (i : Reg) : Int := s.regs[i]

/-- ARG0 as an unsigned scalar: the copy latched at acceptance (00_scope.md R11, 30_encoding.md R83). -/
abbrev State.scalar0 (s : State) : Nat := s.larg0.toNat

/-- ARG1 as an unsigned scalar: the copy latched at acceptance (00_scope.md R11, 30_encoding.md R83). -/
abbrev State.scalar1 (s : State) : Nat := s.larg1.toNat

/-- ARG2 as an unsigned scalar: the copy latched at acceptance (00_scope.md R11, 30_encoding.md R83). -/
abbrev State.scalar2 (s : State) : Nat := s.larg2.toNat

/-- `sext_32(ARG0)`: the signed shift count of SHL and SHR (30_encoding.md R83). -/
def State.shiftCount (s : State) : Int := s.larg0.toInt

end Sys2Proof.Machine
end

