-- ==== Sys2Proof/Machine/Flags.lean ====
section
/-! DEFINITION. The flag computations: CMP's three flags and result (40_alu.md R113) and the views of FLAGS and STATUS
(10_state.md R22, R33). -/

namespace Sys2Proof.Machine

/-- FLAGS after comparing `x` with `y`: exactly one of LT, EQ and GT, C unchanged (40_alu.md R113). -/
def compareFlags (x y : Int) (f : Flags) : Flags := { f with lt := decide (x < y), eq := decide (x = y), gt := decide (y < x) }

/-- RES0 of CMP (40_alu.md R113). -/
def compareResult (x y : Int) : Word := if x < y then 0xFFFFFFFF else if x = y then 0 else 1

/-- FLAGS with C written (44_codec.md R194, R196). -/
def Flags.withC (f : Flags) (c : Bool) : Flags := { f with c := c }

/-- FLAGS as the host reads it (10_state.md R22, R34). -/
def Flags.word (f : Flags) : Word :=
  BitVec.ofNat 32 (f.lt.toNat + 2 * f.eq.toNat + 4 * f.gt.toNat + 8 * f.c.toNat)

/-- STATUS as the host reads it (10_state.md R33). -/
def Status.word (t : Status) : Word :=
  BitVec.ofNat 32 (t.busy.toNat + 2 * t.done.toNat + 4 * t.err.toNat + 8 * t.drop.toNat + 256 * t.ecode.toNat)

end Sys2Proof.Machine
end

