-- ==== Sys2Proof/Machine/Ops.lean ====
section
/-! DEFINITION. The named operations every command and the host port use: memory, registers, capacity, acceptance, and the
two completions, of which raising an error is the block's only exception entry (60_exceptions.md R229). There is no return
from it (R230): the next acceptance clears the record. -/

namespace Sys2Proof.Machine

/-! ## Memory (20_memory.md) -/

/-- The byte written at `a` since power-on, if any. -/
def Memory.get? (m : Memory) (a : Nat) : Option Byte :=
  match m with
  | [] => none
  | (k, v) :: rest => if k = a then some v else Memory.get? rest a

/-- Write one byte, keeping the addresses strictly rising. -/
def Memory.put (m : Memory) (a : Nat) (v : Byte) : Memory :=
  match m with
  | [] => [(a, v)]
  | (k, u) :: rest =>
    if a < k then (a, v) :: (k, u) :: rest
    else if a = k then (a, v) :: rest
    else (k, u) :: Memory.put rest a v

/-- Write bytes from `a` upward. -/
def Memory.putAll (m : Memory) (a : Nat) : List Byte → Memory
  | [] => m
  | v :: vs => Memory.putAll (m.put a v) (a + 1) vs

/-- `DMEM[a]`: the byte written last, or the unconstrained draw of an address nothing has written since power-on
(20_memory.md R63). -/
def State.byteAt (s : State) (a : Nat) : Byte :=
  match s.mem.get? a with
  | some v => v
  | none => Config.powerOnByte s.epoch a

/-- `MemRead(a, n)` (00_scope.md R11). -/
def State.memRead (s : State) (a n : Nat) : List Byte := (List.range n).map (fun k => s.byteAt (a + k))

/-- `MemWrite(a, len(bytes), bytes)` (00_scope.md R11). -/
def State.memWrite (s : State) (a : Nat) (bytes : List Byte) : State := { s with mem := s.mem.putAll a bytes }

/-- `rangecheck(a, n)` fails: "`a + n > DMEM_SIZE`", computed without wrap-around (00_scope.md R11, 20_memory.md R64). -/
def State.outOfRange (s : State) (a n : Nat) : Bool := decide (s.par.dmemSize < a + n)

/-! ## Capacity and the diagnostic counter -/

/-- `cap(v)` passes: `bitlen(v) <= 32*MAXW` (00_scope.md R11). -/
def fits (p : Params) (v : Int) : Bool :=
  match p.maxW with
  | none => true
  | some w => decide (bitlen v ≤ 32 * w)

/-- MAXBITS after the big values `vs` were written (10_state.md R24). -/
def noteBits (m : Word) (vs : List Int) : Word := vs.foldl (fun m v => countWord (max m.toNat (bitlen v))) m

/-! ## Updates of the state -/

/-- `b[d] <- v` without its `cap` (00_scope.md R11). -/
def State.setReg (s : State) (d : Reg) (v : Int) : State := { s with regs := s.regs.set d v }

/-- `FLAGS <- f`. -/
def State.setFlags (s : State) (f : Flags) : State := { s with flags := f }

/-- `RES0 <- v` (00_scope.md R11). -/
def State.setRes0 (s : State) (v : Word) : State := { s with res0 := v }

/-- `RES1 <- v` (00_scope.md R11). -/
def State.setRes1 (s : State) (v : Word) : State := { s with res1 := v }

/-- The coprime cache as extended (42_coprime.md R151). -/
def State.setCp (s : State) (cp : List Nat) : State := { s with cp := cp }

/-- The CRT table written whole (43_crt.md R161). -/
def State.setCrt (s : State) (crt : Crt) : State := { s with crt := crt }

/-- The encoder written whole (44_codec.md R190). -/
def State.setEnc (s : State) (enc : Enc) : State := { s with enc := enc }

/-- The decoder written (44_codec.md R194, R195). -/
def State.setDec (s : State) (dec : Dec) : State := { s with dec := dec }

/-- `MAXBITS <- v` (10_state.md R24, R32). -/
def State.setMaxBits (s : State) (v : Word) : State := { s with maxBits := v }

/-- `STATUS <- t` (10_state.md R33). -/
def State.setStatus (s : State) (t : Status) : State := { s with status := t }

/-! ## Acceptance and completion -/

/-- Acceptance of the word `w` (10_state.md R46). -/
def State.accept (s : State) (w : Word) : State :=
  { s with
    lcmd := w
    larg0 := s.arg0
    larg1 := s.arg1
    larg2 := s.arg2
    status := { s.status with busy := true, done := false, err := false, ecode := 0 } }

/-- The code STATUS.ECODE reports for an error (60_exceptions.md R220). -/
def CoreErr.code : CoreErr → BitVec 4
  | .invalidArgument => 1
  | .notInvertible => 2
  | .exhausted => 3
  | .overflow => 4
  | .reconstructionFailed => 5
  | .dataTooLarge => 6
  | .illegalCommand => 7
  | .capacityExceeded => 8
  | .incomplete => 9
  | .notInitialised => 10
  | .addressError => 11

/-- STATUS at a completion without error (60_exceptions.md R224). -/
def Status.succeed (t : Status) : Status := { t with busy := false, done := true, err := false, ecode := 0 }

/-- STATUS at a completion with the error `e` (60_exceptions.md R224). -/
def Status.fail (t : Status) (e : CoreErr) : Status := { t with busy := false, done := true, err := true, ecode := e.code }

/-- EXCEPTION ENTRY: the command ends with the error `e`. Nothing but STATUS is written, no pc or status is saved and no
control is transferred (60_exceptions.md R223, R224, R229). -/
def State.raise (s : State) (e : CoreErr) : State := s.setStatus (s.status.fail e)

/-- What a command did on success: the state with the writes its rule names, and the big values it wrote to big
registers, the CRT table and the hunk registers (10_state.md R24, R47). -/
structure Result where
  st : State
  big : List Int
deriving DecidableEq, Repr

/-- Completion without error: the command's writes, then the MAXBITS update, then STATUS (10_state.md R24, R47). -/
def Result.complete (r : Result) : State :=
  (r.st.setMaxBits (noteBits r.st.maxBits r.big)).setStatus r.st.status.succeed

/-- The completion of a command that started in `s`: all of its effects, or on an error none but STATUS (10_state.md R47,
60_exceptions.md R223). A command that extends the coprime cache passes `s` with the cache as extended. -/
def State.finish (s : State) (r : Except CoreErr Result) : Host.Outcome State Fault Refusal :=
  match r with
  | .ok r => .next r.complete
  | .error e => .next (s.raise e)

/-- `b[d] <- v`, subject to `cap(v)` (00_scope.md R11, 40_alu.md R100). -/
def State.writeBig (s : State) (d : Reg) (v : Int) : Except CoreErr Result :=
  if fits s.par v then .ok ⟨s.setReg d v, [v]⟩ else .error .capacityExceeded

end Sys2Proof.Machine
end

