-- ==== Sys2Proof/Machine/Alu.lean ====
section
/-! DEFINITION. The big-integer ALU commands (40_alu.md R101 to R115). -/

namespace Sys2Proof.Machine

/-! ## Arithmetic of the family -/

/-- `x - y*trunc(x/y)`, for `y ≠ 0` (40_alu.md R107). -/
def truncRem (x y : Int) : Int := x - y * Int.tdiv x y

/-- The non-negative modulus, for `y > 0` (40_alu.md R108). -/
def floorMod (x y : Int) : Int :=
  let r := truncRem x y
  if r < 0 then r + y else r

/-- The greatest common divisor of the absolute values (40_alu.md R109): Euclid's loop on natural numbers. -/
def bigGcd (x y : Int) : Nat := Nat.gcd x.natAbs y.natAbs

/-- The loop of MINV (40_alu.md R110): the last `r0` and `t0`. The remainder `r1` falls at every turn, so a first argument
above it never runs out. -/
def inverseLoop : Nat → (r0 r1 t0 t1 : Int) → Int × Int
  | 0, r0, _, t0, _ => (r0, t0)
  | fuel + 1, r0, r1, t0, t1 =>
    if r1 = 0 then (r0, t0)
    else
      let q := Int.tdiv r0 r1
      inverseLoop fuel r1 (r0 - q * r1) t1 (t0 - q * t1)

/-- `MINV(a, m)`: InvalidArgument for `m <= 0`, then NotInvertible for `gcd(a, m) ≠ 1` (40_alu.md R110). -/
def modInverse (a m : Int) : Except CoreErr Int :=
  if m ≤ 0 then .error .invalidArgument
  else
    let g := inverseLoop (m.natAbs + 1) m (floorMod a m) 0 1
    if g.1 ≠ 1 then .error .notInvertible else .ok (floorMod g.2 m)

/-- `x^e` by squaring, with `0^0 = 1` (40_alu.md R111); a first argument of at least `e` never runs out. -/
def powerBySquaring : Nat → (x e : Nat) → Nat
  | 0, _, _ => 1
  | fuel + 1, x, e =>
    if e = 0 then 1
    else
      let h := powerBySquaring fuel x (e / 2)
      if e % 2 = 1 then h * h * x else h * h

/-- The early capacity test of POW fails: "`x >= 2 and e * (bitlen(x) - 1) + 1 > 32*MAXW`" (40_alu.md R111). -/
def powTooWide (p : Params) (x e : Nat) : Bool :=
  match p.maxW with
  | none => false
  | some w => decide (2 ≤ x) && decide (32 * w < e * (bitlen x - 1) + 1)

/-- The square-and-multiply loop of MPOW (40_alu.md R112); a first argument of at least `e` never runs out. -/
def modPowLoop : Nat → (r s e m : Nat) → Nat
  | 0, r, _, _, _ => r
  | fuel + 1, r, s, e, m =>
    if e = 0 then r
    else modPowLoop fuel (if e % 2 = 1 then r * s % m else r) (s * s % m) (e / 2) m

/-- `MPOW(x, e, m)`, for `m > 0` and `e >= 0` (40_alu.md R112). -/
def modPow (x e m : Int) : Nat :=
  modPowLoop e.natAbs (1 % m.natAbs) (floorMod x m).natAbs e.natAbs m.natAbs

/-- `sgn(x) * (|x| * 2^n)` (40_alu.md R114). -/
def shiftUp (x : Int) (n : Nat) : Int := if x = 0 then 0 else Int.sign x * ((x.natAbs * 2 ^ n : Nat) : Int)

/-- `sgn(x) * floor(|x| / 2^n)` (40_alu.md R114). -/
def shiftDown (x : Int) (n : Nat) : Int := Int.sign x * ((x.natAbs >>> n : Nat) : Int)

/-- The left shift of a nonzero `x` is wider than the capacity: "`bitlen(x) + n > 32*MAXW`" (40_alu.md R114). -/
def shiftTooWide (p : Params) (x : Int) (n : Nat) : Bool :=
  match p.maxW with
  | none => false
  | some w => decide (x ≠ 0) && decide (32 * w < bitlen x + n)

/-- `SHL(b[a], n)` into `b[d]`, for a signed count `n` (40_alu.md R114). -/
def shiftBody (d a : Reg) (n : Int) (s : State) : Except CoreErr Result :=
  let x := s.reg a
  if 0 ≤ n then
    if shiftTooWide s.par x n.natAbs then .error .capacityExceeded else s.writeBig d (shiftUp x n.natAbs)
  else s.writeBig d (shiftDown x n.natAbs)

/-! ## Data movement -/

/-- NOP (40_alu.md R101). -/
def execNop (s : State) : Host.Outcome State Fault Refusal := s.finish (.ok ⟨s, []⟩)

/-- LDI (40_alu.md R102). -/
def execLdi (d : Reg) (s : State) : Host.Outcome State Fault Refusal := s.finish (s.writeBig d s.scalar0)

/-- MOV (40_alu.md R103). -/
def execMov (d a : Reg) (s : State) : Host.Outcome State Fault Refusal := s.finish (s.writeBig d (s.reg a))

/-! ## Add, subtract, multiply -/

/-- ADD (40_alu.md R104). -/
def execAdd (d a b : Reg) (s : State) : Host.Outcome State Fault Refusal :=
  s.finish (s.writeBig d (s.reg a + s.reg b))

/-- SUB (40_alu.md R105). -/
def execSub (d a b : Reg) (s : State) : Host.Outcome State Fault Refusal :=
  s.finish (s.writeBig d (s.reg a - s.reg b))

/-- MUL (40_alu.md R106). -/
def execMul (d a b : Reg) (s : State) : Host.Outcome State Fault Refusal :=
  s.finish (s.writeBig d (s.reg a * s.reg b))

/-! ## Division family -/

/-- REM (40_alu.md R107). -/
def execRem (d a b : Reg) (s : State) : Host.Outcome State Fault Refusal :=
  s.finish (if s.reg b = 0 then .error .invalidArgument else s.writeBig d (truncRem (s.reg a) (s.reg b)))

/-- MOD (40_alu.md R108). -/
def execMod (d a b : Reg) (s : State) : Host.Outcome State Fault Refusal :=
  s.finish (if s.reg b ≤ 0 then .error .invalidArgument else s.writeBig d (floorMod (s.reg a) (s.reg b)))

/-- GCD (40_alu.md R109). -/
def execGcd (d a b : Reg) (s : State) : Host.Outcome State Fault Refusal :=
  s.finish (s.writeBig d (bigGcd (s.reg a) (s.reg b)))

/-- MINV (40_alu.md R110). -/
def execMinv (d a b : Reg) (s : State) : Host.Outcome State Fault Refusal :=
  s.finish
    (match modInverse (s.reg a) (s.reg b) with
     | .error e => .error e
     | .ok v => s.writeBig d v)

/-! ## Powers -/

/-- POW (40_alu.md R111). -/
def execPow (d : Reg) (s : State) : Host.Outcome State Fault Refusal :=
  s.finish
    (if powTooWide s.par s.scalar0 s.scalar1 then .error .capacityExceeded
     else s.writeBig d (powerBySquaring s.scalar1 s.scalar0 s.scalar1))

/-- MPOW (40_alu.md R112). -/
def execMpow (d a b c : Reg) (s : State) : Host.Outcome State Fault Refusal :=
  s.finish
    (if s.reg c ≤ 0 then .error .invalidArgument
     else if s.reg b < 0 then .error .invalidArgument
     else s.writeBig d (modPow (s.reg a) (s.reg b) (s.reg c)))

/-! ## Compare -/

/-- CMP (40_alu.md R113). -/
def execCmp (a b : Reg) (s : State) : Host.Outcome State Fault Refusal :=
  s.finish (.ok ⟨(s.setFlags (compareFlags (s.reg a) (s.reg b) s.flags)).setRes0 (compareResult (s.reg a) (s.reg b)), []⟩)

/-! ## Shifts -/

/-- SHL (40_alu.md R114). -/
def execShl (d a : Reg) (s : State) : Host.Outcome State Fault Refusal := s.finish (shiftBody d a s.shiftCount s)

/-- SHR: "SHL with the count negated", the negation without wrap-around (40_alu.md R115). -/
def execShr (d a : Reg) (s : State) : Host.Outcome State Fault Refusal := s.finish (shiftBody d a (-s.shiftCount) s)

end Sys2Proof.Machine
end

