-- ==== Sys2Proof/Machine/Bytes.lean ====
section
/-! DEFINITION. The byte import and export commands (41_bytes.md R140 to R142). -/

namespace Sys2Proof.Machine

/-- LDBE (41_bytes.md R140). -/
def execLdbe (d : Reg) (s : State) : Host.Outcome State Fault Refusal :=
  s.finish
    (if s.outOfRange s.scalar0 s.scalar1 then .error .addressError
     else s.writeBig d (fromBE (s.memRead s.scalar0 s.scalar1)))

/-- STBE: the minimal form, bytes past it unchanged (41_bytes.md R141). -/
def execStbe (a : Reg) (s : State) : Host.Outcome State Fault Refusal :=
  let v := s.reg a
  s.finish
    (if s.outOfRange s.scalar0 s.scalar1 then .error .addressError
     else if v < 0 then .error .invalidArgument
     else if s.scalar1 < minlen v then .error .overflow
     else .ok ⟨(s.memWrite s.scalar0 (toBE v.natAbs (minlen v))).setRes0 (countWord (minlen v)), []⟩)

/-- STBEW: a fixed width, zeros on the left (41_bytes.md R142). -/
def execStbew (a : Reg) (s : State) : Host.Outcome State Fault Refusal :=
  let v := s.reg a
  s.finish
    (if s.outOfRange s.scalar0 s.scalar1 then .error .addressError
     else if v < 0 then .error .invalidArgument
     else if s.scalar1 < minlen v then .error .overflow
     else .ok ⟨(s.memWrite s.scalar0 (toBE v.natAbs s.scalar1)).setRes0 (countWord s.scalar1), []⟩)

end Sys2Proof.Machine
end

