-- ==== Sys2Proof/Machine/Coprime.lean ====
section
/-! DEFINITION. The coprime-modulus cache and CPGET (42_coprime.md R150 to R152). -/

namespace Sys2Proof.Machine

/-- "`gcd(c, CP[j]) == 1` for every `j` in `[0, CPLEN)`" (42_coprime.md R151). -/
def coprimeToAll (c : Nat) (cp : List Nat) : Bool := cp.all (fun m => Nat.gcd c m == 1)

/-- The loop of `extend(i)` (42_coprime.md R151) with the last candidate tried as its first argument: the cache as far as
it grew, and the error if one was raised. Each append stands, whatever follows. -/
def extendFrom (cpMax i : Nat) : (c : Nat) → (cp : List Nat) → List Nat × Option CoreErr
  | 0, cp => if i < cp.length then (cp, none) else (cp, some .exhausted)
  | c + 1, cp =>
    if i < cp.length then (cp, none)
    else if c = 0 then (cp, some .exhausted)
    else if coprimeToAll c cp then
      if cp.length = cpMax then (cp, some .capacityExceeded) else extendFrom cpMax i c (cp ++ [c])
    else extendFrom cpMax i c cp

/-- `cp(i)`: the cache afterwards, and the modulus or the error (42_coprime.md R150). -/
def coprimeAt (cpMax : Nat) (cp : List Nat) (i : Nat) : List Nat × Except CoreErr Nat :=
  match extendFrom cpMax i (cp.getLastD 0) cp with
  | (cp', none) => (cp', .ok (cp'.getD i 0))
  | (cp', some e) => (cp', .error e)

/-- `cp(i)` for every index of a list in its order, up to the first error (44_codec.md R196). -/
def coprimesAt (cpMax : Nat) : (cp is : List Nat) → List Nat × Except CoreErr (List Nat)
  | cp, [] => (cp, .ok [])
  | cp, i :: is =>
    match coprimeAt cpMax cp i with
    | (cp', .error e) => (cp', .error e)
    | (cp', .ok m) =>
      match coprimesAt cpMax cp' is with
      | (cp'', .error e) => (cp'', .error e)
      | (cp'', .ok ms) => (cp'', .ok (m :: ms))

/-- CPGET (42_coprime.md R152). -/
def execCpget (d : Reg) (s : State) : Host.Outcome State Fault Refusal :=
  match coprimeAt s.par.cpMax s.cp s.scalar0 with
  | (cp', .error e) => (s.setCp cp').finish (.error e)
  | (cp', .ok m) => (s.setCp cp').finish (((s.setCp cp').setRes0 (countWord m)).writeBig d m)

end Sys2Proof.Machine
end

