-- ==== Sys2Proof/Machine/Crt.lean ====
section
/-! DEFINITION. The CRT coefficient and combination engine (43_crt.md R160 to R166). -/

namespace Sys2Proof.Machine

/-- The product of a list of moduli; 1 for the empty list (43_crt.md R160, 44_codec.md R196). -/
def product (ms : List Nat) : Nat := ms.foldl (· * ·) 1

/-- The weight `W[i]`: the modular inverse of the other moduli's product, times that product, not reduced mod `base`
(43_crt.md R160). -/
def crtWeight (ms : List Nat) (base i : Nat) : Except CoreErr Nat :=
  let part := (ms.eraseIdx i).foldl (fun p m => p * m % base) 1
  let mi := ms.getD i 0
  match modInverse ((part % mi : Nat) : Int) mi with
  | .error e => .error e
  | .ok c => .ok (c.natAbs * part)

/-- The weights at the indices of a list, up to the first error (43_crt.md R160). -/
def crtWeights (ms : List Nat) (base : Nat) : List Nat → Except CoreErr (List Nat)
  | [] => .ok []
  | i :: is =>
    match crtWeight ms base i with
    | .error e => .error e
    | .ok w =>
      match crtWeights ms base is with
      | .error e => .error e
      | .ok ws => .ok (w :: ws)

/-- `coefficients(ms)`: the weights and `base` (43_crt.md R160). -/
def coefficients (p : Params) (ms : List Nat) : Except CoreErr (List Nat × Nat) :=
  if ms.any (· == 0) then .error .invalidArgument
  else if fits p (product ms) then
    match crtWeights ms (product ms) (List.range ms.length) with
    | .error e => .error e
    | .ok ws => .ok (ws, product ms)
  else .error .capacityExceeded

/-- `combine(ps, W, base, count)` (43_crt.md R162). -/
def combine (ps ws : List Nat) (base count : Nat) : Except CoreErr Nat :=
  if ps.length ≠ count then .error .invalidArgument
  else .ok ((ws.zip ps).foldl (fun r x => (r + x.1 * x.2) % base) 0)

/-- `fromBE(MemRead(a + k*ew, ew))` for `k` in `[0, n)` (43_crt.md R161, R163). -/
def State.readEntries (s : State) (a ew n : Nat) : List Nat :=
  (List.range n).map (fun k => fromBE (s.memRead (a + k * ew) ew))

/-- The moduli of the CRT table. -/
def Crt.moduli (t : Crt) : List Nat := t.entries.map CrtEntry.m

/-- The weights of the CRT table. -/
def Crt.weights (t : Crt) : List Nat := t.entries.map CrtEntry.w

/-- The table that holds the moduli `ms`, the weights `ws` and `base` (43_crt.md R161). -/
def Crt.ofLists (ms ws : List Nat) (base : Nat) : Crt := ⟨(ms.zip ws).map (fun x => ⟨x.1, x.2⟩), base⟩

/-- CRTCOEF (43_crt.md R161). -/
def execCrtcoef (s : State) : Host.Outcome State Fault Refusal :=
  let k := s.scalar0
  let a := s.scalar1
  let ew := s.scalar2
  s.finish
    (if s.par.maxK < k then .error .capacityExceeded
     else if s.outOfRange a (k * ew) then .error .addressError
     else
       let ms := s.readEntries a ew k
       if ms.all (fun (m : Nat) => fits s.par m) then
         match coefficients s.par ms with
         | .error e => .error e
         | .ok (ws, base) =>
           .ok ⟨(s.setCrt (.ofLists ms ws base)).setRes0 (countWord (bitlen base)),
             ms.map Int.ofNat ++ ws.map Int.ofNat ++ [Int.ofNat base]⟩
       else .error .capacityExceeded)

/-- CRTCOMB (43_crt.md R163). -/
def execCrtcomb (d : Reg) (s : State) : Host.Outcome State Fault Refusal :=
  let n := s.scalar0
  let a := s.scalar1
  let ew := s.scalar2
  s.finish
    (if n ≠ s.crt.entries.length then .error .invalidArgument
     else if s.outOfRange a (n * ew) then .error .addressError
     else
       let ps := s.readEntries a ew n
       if ps.all (fun (p : Nat) => fits s.par p) then
         match combine ps s.crt.weights s.crt.base s.crt.entries.length with
         | .error e => .error e
         | .ok r => s.writeBig d r
       else .error .capacityExceeded)

/-- CRTW (43_crt.md R164). -/
def execCrtw (d : Reg) (s : State) : Host.Outcome State Fault Refusal :=
  s.finish
    (if s.crt.entries.length ≤ s.scalar0 then .error .invalidArgument
     else s.writeBig d (s.crt.weights.getD s.scalar0 0))

/-- CRTM (43_crt.md R165). -/
def execCrtm (d : Reg) (s : State) : Host.Outcome State Fault Refusal :=
  s.finish
    (if s.crt.entries.length ≤ s.scalar0 then .error .invalidArgument
     else s.writeBig d (s.crt.moduli.getD s.scalar0 0))

/-- CRTBASE (43_crt.md R166). -/
def execCrtbase (d : Reg) (s : State) : Host.Outcome State Fault Refusal := s.finish (s.writeBig d s.crt.base)

end Sys2Proof.Machine
end

