-- ==== Sys2Proof/Machine/Codec.lean ====
section
/-! DEFINITION. The split and reconstruct engine: encoder and decoder (44_codec.md R188 to R198). -/

namespace Sys2Proof.Machine

/-! ## Geometry (44_codec.md R188, R189) -/

/-- What `geometry(L, S)` returns: `(P, MB, HS, NH)` (44_codec.md R188). -/
structure Geometry where
  plen : Nat
  minb : Nat
  hsize : Nat
  nh : Nat
deriving DecidableEq, Repr

/-- `geometry(L, S)` (44_codec.md R188). -/
def geometry (p : Params) (l sz : Nat) : Except CoreErr Geometry :=
  if sz = 0 ∨ sz % 2 = 1 then .error .invalidArgument
  else if l = 0 then .error .invalidArgument
  else
    let plen := (l + sz - 1) / sz * sz
    let mb := plen / sz
    if 100 < mb then .error .dataTooLarge
    else
      let hs := 2 * mb
      let nh := plen / hs
      if p.maxH < nh then .error .capacityExceeded else .ok ⟨plen, mb, hs, nh⟩

/-- `hunks(data, P, HS, NH)` (44_codec.md R189). -/
def hunks (data : List Byte) (g : Geometry) : List Nat :=
  let padded := data ++ List.replicate (g.plen - data.length) 0
  (List.range g.nh).map (fun h => fromBE ((padded.drop (h * g.hsize)).take g.hsize))

/-! ## Encoder -/

/-- ENCINIT (44_codec.md R190). -/
def execEncinit (s : State) : Host.Outcome State Fault Refusal :=
  let a := s.scalar0
  let l := s.scalar1
  let sz := s.scalar2
  s.finish
    (match geometry s.par l sz with
     | .error e => .error e
     | .ok g =>
       if s.outOfRange a l then .error .addressError
       else
         let h := hunks (s.memRead a l) g
         .ok ⟨((s.setEnc ⟨true, l, sz, g.plen, g.minb, g.hsize, g.nh, h⟩).setRes0 (countWord g.nh)).setRes1 (countWord g.minb),
           h.map Int.ofNat⟩)

/-- The remainders of the hunks `ENC.H[0 .. BSIZE/2 - 1]` modulo `m` (44_codec.md R192). -/
def Enc.slices (e : Enc) (m : Nat) : List Nat := (List.range (e.bsize / 2)).map (fun i => e.h.getD i 0 % m)

/-- ENCGEN (44_codec.md R192). -/
def execEncgen (s : State) : Host.Outcome State Fault Refusal :=
  let idx := s.scalar0
  let d := s.scalar1
  if s.enc.valid = false then s.finish (.error .notInitialised)
  else if s.outOfRange d s.enc.bsize then s.finish (.error .addressError)
  else
    match coprimeAt s.par.cpMax s.cp idx with
    | (cp', .error e) => (s.setCp cp').finish (.error e)
    | (cp', .ok m) =>
      (s.setCp cp').finish
        (if (s.enc.slices m).any (fun p => decide (2 < minlen p)) then .error .overflow
         else .ok ⟨(s.setCp cp').memWrite d ((s.enc.slices m).flatMap (fun p => toBE p 2)), []⟩)

/-- ENCHUNK (44_codec.md R193). -/
def execEnchunk (d : Reg) (s : State) : Host.Outcome State Fault Refusal :=
  s.finish
    (if s.enc.valid = false then .error .notInitialised
     else if s.enc.nh ≤ s.scalar0 then .error .invalidArgument
     else s.writeBig d (s.enc.h.getD s.scalar0 0))

/-! ## Decoder -/

/-- DECINIT (44_codec.md R194). -/
def execDecinit (s : State) : Host.Outcome State Fault Refusal :=
  let l := s.scalar0
  let sz := s.scalar1
  s.finish
    (match geometry s.par l sz with
     | .error e => .error e
     | .ok g => .ok ⟨(s.setDec ⟨true, l, sz, g.plen, g.minb, g.hsize, g.nh, []⟩).setFlags (s.flags.withC false), []⟩)

/-- `DEC.S[idx] <- bytes`, keeping the indices strictly rising; an earlier entry for `idx` is replaced (44_codec.md R195). -/
def storePut (idx : Nat) (bytes : List Byte) : List (Nat × List Byte) → List (Nat × List Byte)
  | [] => [(idx, bytes)]
  | (k, u) :: rest =>
    if idx < k then (idx, bytes) :: (k, u) :: rest
    else if idx = k then (idx, bytes) :: rest
    else (k, u) :: storePut idx bytes rest

/-- The indices of `DEC.S` in ascending order (44_codec.md R196). -/
def Dec.indices (x : Dec) : List Nat := x.s.map Prod.fst

/-- DECPUSH (44_codec.md R195). -/
def execDecpush (s : State) : Host.Outcome State Fault Refusal :=
  let idx := s.scalar0
  let a := s.scalar1
  let n := s.scalar2
  s.finish
    (if s.dec.valid = false then .error .notInitialised
     else if n ≠ s.dec.bsize then .error .invalidArgument
     else if s.outOfRange a n then .error .addressError
     else if idx ∉ s.dec.indices ∧ s.dec.s.length = s.par.maxB then .error .capacityExceeded
     else
       let store := storePut idx (s.memRead a n) s.dec.s
       .ok ⟨(s.setDec { s.dec with s := store }).setRes0 (countWord store.length), []⟩)

/-- `complete()` once its moduli are looked up: "`Pr > 65536^DEC.MINB`" (44_codec.md R196). -/
def Dec.completeWith (x : Dec) (ms : List Nat) : Bool := decide (65536 ^ x.minb < product ms)

/-- DECDONE (44_codec.md R196). -/
def execDecdone (s : State) : Host.Outcome State Fault Refusal :=
  if s.dec.valid = false then s.finish (.error .notInitialised)
  else
    match coprimesAt s.par.cpMax s.cp s.dec.indices with
    | (cp', .error e) => (s.setCp cp').finish (.error e)
    | (cp', .ok ms) =>
      let c := s.dec.completeWith ms
      (s.setCp cp').finish (.ok ⟨((s.setCp cp').setFlags (s.flags.withC c)).setRes0 (if c then 1 else 0), []⟩)

/-- Slice `h` of every stored bundle, in the store's order (44_codec.md R197). -/
def Dec.slicesAt (x : Dec) (h : Nat) : List Nat := x.s.map (fun e => fromBE ((e.2.drop (2 * h)).take 2))

/-- One hunk of `recover()`: its bytes, and whether it took the retry with one term fewer (44_codec.md R197). -/
def recoverHunk (x : Dec) (full sub : List Nat × Nat) (h : Nat) : Except CoreErr (List Byte × Bool) :=
  let ps := x.slicesAt h
  match combine ps full.1 full.2 ps.length with
  | .error e => .error e
  | .ok v =>
    if minlen v ≤ x.hsize then .ok (toBE v x.hsize, false)
    else
      match combine ps.dropLast sub.1 sub.2 (ps.length - 1) with
      | .error e => .error e
      | .ok v2 => if minlen v2 ≠ x.hsize then .error .reconstructionFailed else .ok (toBE v2 x.hsize, true)

/-- The hunk loop of `recover()` over a list of hunk numbers: all bytes, and how many hunks took the retry (44_codec.md
R197). -/
def recoverHunks (x : Dec) (full sub : List Nat × Nat) : List Nat → Except CoreErr (List Byte × Nat)
  | [] => .ok ([], 0)
  | h :: hs =>
    match recoverHunk x full sub h with
    | .error e => .error e
    | .ok (bytes, retried) =>
      match recoverHunks x full sub hs with
      | .error e => .error e
      | .ok (out, retries) => .ok (bytes ++ out, retried.toNat + retries)

/-- `recover()` for the moduli of the stored indices: the data, and the number of retries (44_codec.md R197). -/
def recover (p : Params) (x : Dec) (ms : List Nat) : Except CoreErr (List Byte × Nat) :=
  match coefficients p ms with
  | .error e => .error e
  | .ok full =>
    match coefficients p ms.dropLast with
    | .error e => .error e
    | .ok sub =>
      match recoverHunks x full sub (List.range x.nh) with
      | .error e => .error e
      | .ok (out, retries) => .ok (out.take x.len, retries)

/-- DECREC (44_codec.md R198). -/
def execDecrec (s : State) : Host.Outcome State Fault Refusal :=
  let d := s.scalar0
  if s.dec.valid = false then s.finish (.error .notInitialised)
  else if s.outOfRange d s.dec.len then s.finish (.error .addressError)
  else
    match coprimesAt s.par.cpMax s.cp s.dec.indices with
    | (cp', .error e) => (s.setCp cp').finish (.error e)
    | (cp', .ok ms) =>
      (s.setCp cp').finish
        (if s.dec.completeWith ms = false then .error .incomplete
         else
           match recover s.par s.dec ms with
           | .error e => .error e
           | .ok (out, retries) =>
             .ok ⟨(((s.setCp cp').memWrite d out).setRes0 (countWord s.dec.len)).setRes1 (countWord retries), []⟩)

end Sys2Proof.Machine
end

