-- ==== Sys2Proof/Machine/Dispatch.lean ====
section
/-! DEFINITION. The meaning of each command: one arm per constructor of `Instr`. -/

namespace Sys2Proof.Machine

/-- The engine's execution of one command from the state in which it was accepted (10_state.md R47). -/
def exec (i : Instr) (s : State) : Host.Outcome State Fault Refusal :=
  match i with
  | .nop => Sys2Proof.Machine.execNop s
  | .ldi d => Sys2Proof.Machine.execLdi d s
  | .mov d a => Sys2Proof.Machine.execMov d a s
  | .add d a b => Sys2Proof.Machine.execAdd d a b s
  | .sub d a b => Sys2Proof.Machine.execSub d a b s
  | .mul d a b => Sys2Proof.Machine.execMul d a b s
  | .rem d a b => Sys2Proof.Machine.execRem d a b s
  | .mod d a b => Sys2Proof.Machine.execMod d a b s
  | .gcd d a b => Sys2Proof.Machine.execGcd d a b s
  | .minv d a b => Sys2Proof.Machine.execMinv d a b s
  | .pow d => Sys2Proof.Machine.execPow d s
  | .mpow d a b c => Sys2Proof.Machine.execMpow d a b c s
  | .cmp a b => Sys2Proof.Machine.execCmp a b s
  | .shl d a => Sys2Proof.Machine.execShl d a s
  | .shr d a => Sys2Proof.Machine.execShr d a s
  | .ldbe d => Sys2Proof.Machine.execLdbe d s
  | .stbe a => Sys2Proof.Machine.execStbe a s
  | .stbew a => Sys2Proof.Machine.execStbew a s
  | .cpget d => Sys2Proof.Machine.execCpget d s
  | .crtcoef => Sys2Proof.Machine.execCrtcoef s
  | .crtcomb d => Sys2Proof.Machine.execCrtcomb d s
  | .crtw d => Sys2Proof.Machine.execCrtw d s
  | .crtm d => Sys2Proof.Machine.execCrtm d s
  | .crtbase d => Sys2Proof.Machine.execCrtbase d s
  | .encinit => Sys2Proof.Machine.execEncinit s
  | .encgen => Sys2Proof.Machine.execEncgen s
  | .enchunk d => Sys2Proof.Machine.execEnchunk d s
  | .decinit => Sys2Proof.Machine.execDecinit s
  | .decpush => Sys2Proof.Machine.execDecpush s
  | .decdone => Sys2Proof.Machine.execDecdone s
  | .decrec => Sys2Proof.Machine.execDecrec s

end Sys2Proof.Machine
end

