-- ==== Sys2Proof/Machine/HostPort.lean ====
section
/-! DEFINITION. The host's side: the register window (10_state.md R30 to R44), the DMEM window (20_memory.md R61, R62), and
the two resets (70_reset_and_hazards.md R250, R251). -/

namespace Sys2Proof.Machine

/-- A parameter as its CAP_* register shows it: "saturated at `2^32-1`" (10_state.md R39). -/
def capWord (n : Nat) : Word := BitVec.ofNat 32 (min n (2 ^ 32 - 1))

/-- CAP_MAXW: `2^32-1` for the unbounded `MAXW` (10_state.md R39). -/
def capMaxW (p : Params) : Word :=
  match p.maxW with
  | none => 0xFFFFFFFF
  | some w => capWord w

/-- The register at window offset `o`, as a read shows it (10_state.md R30 to R42). Write-only and reserved offsets, and
unmapped ones, read 0 (R32, R35, R44). While BUSY the engine-written registers hold the values from before the command, for
its effects appear at completion (R43). -/
def State.windowReg (s : State) (o : Nat) : Word :=
  match o with
  | 0x00 => 0x43460007
  | 0x08 => s.status.word
  | 0x0C => s.flags.word
  | 0x14 => s.arg0
  | 0x18 => s.arg1
  | 0x1C => s.arg2
  | 0x20 => s.res0
  | 0x24 => s.res1
  | 0x28 => s.maxBits
  | 0x2C => countWord s.cp.length
  | 0x30 => capMaxW s.par
  | 0x34 => capWord s.par.dmemSize
  | 0x38 => capWord s.par.maxB
  | 0x3C => capWord s.par.maxK
  | 0x40 => capWord s.par.maxH
  | 0x44 => capWord s.par.cpMax
  | 0x50 => BitVec.ofNat 32 s.enc.valid.toNat
  | 0x54 => countWord s.enc.len
  | 0x58 => countWord s.enc.bsize
  | 0x5C => countWord s.enc.plen
  | 0x60 => countWord s.enc.minb
  | 0x64 => countWord s.enc.hsize
  | 0x68 => countWord s.enc.nh
  | 0x70 => BitVec.ofNat 32 s.dec.valid.toNat
  | 0x74 => countWord s.dec.len
  | 0x78 => countWord s.dec.bsize
  | 0x7C => countWord s.dec.plen
  | 0x80 => countWord s.dec.minb
  | 0x84 => countWord s.dec.hsize
  | 0x88 => countWord s.dec.nh
  | 0x8C => countWord s.dec.s.length
  | 0x90 => countWord s.crt.entries.length
  | _ => 0

/-- An access of `n` bytes at register-window offset `o` is an aligned 32-bit one (10_state.md R44). -/
def alignedWord (o n : Nat) : Bool := n == 4 && o % 4 == 0

/-- What a register-window read of `n` bytes at offset `o` returns (10_state.md R44). -/
def State.readWindow (s : State) (o n : Nat) : Word := if alignedWord o n then s.windowReg o else 0

/-- Soft reset: every piece of state but DMEM at its reset value, the command in flight abandoned
(70_reset_and_hazards.md R251). The model's own fields are no state of the block's and stay (log 9). -/
def State.softReset (s : State) : State := State.resetWith s.par s.mem s.epoch s.script s.answers

/-- Power-on reset: the reset values, and DMEM unspecified again (70_reset_and_hazards.md R250, 20_memory.md R63; log 3). -/
def State.powerOn (s : State) : State := State.resetWith s.par [] (s.epoch + 1) s.script s.answers

/-- STATUS with DROP written (10_state.md R33). -/
def Status.withDrop (t : Status) (v : Bool) : Status := { t with drop := v }

/-- A host write of `v` to CTRL (10_state.md R32). -/
def State.writeCtrl (s : State) (v : Word) : State :=
  if v.getLsbD 0 then s.softReset else if v.getLsbD 1 then s.setMaxBits 0 else s

/-- A host write of `w` to CMD (10_state.md R35). -/
def State.writeCmd (s : State) (w : Word) : State :=
  if s.status.busy then s.setStatus (s.status.withDrop true) else s.accept w

/-- A host write of `v` to STATUS: bit 3 clears DROP, nothing else changes (10_state.md R33). -/
def State.writeStatus (s : State) (v : Word) : State :=
  if v.getLsbD 3 then s.setStatus (s.status.withDrop false) else s

/-- A host write of `v` to the register at window offset `o`; read-only, reserved and unmapped offsets ignore it
(10_state.md R30 to R44). -/
def State.writeReg (s : State) (o : Nat) (v : Word) : State :=
  match o with
  | 0x04 => s.writeCtrl v
  | 0x08 => s.writeStatus v
  | 0x10 => s.writeCmd v
  | 0x14 => { s with arg0 := v }
  | 0x18 => { s with arg1 := v }
  | 0x1C => { s with arg2 := v }
  | _ => s

/-- A register-window write of `n` bytes at offset `o` (10_state.md R44). -/
def State.writeWindow (s : State) (o n : Nat) (v : Word) : State := if alignedWord o n then s.writeReg o v else s

/-- A host access of `n` bytes at DMEM address `a` reaches a byte of DMEM. One that does not is an access to unmapped
offsets, which is never dropped (10_state.md R44; log 10). -/
def State.reachesDmem (s : State) (a n : Nat) : Bool := decide (0 < n) && decide (a < s.par.dmemSize)

/-- One byte of a host DMEM read: 0 beyond the end (20_memory.md R61). -/
def State.hostByte (s : State) (a : Nat) : Byte := if a < s.par.dmemSize then s.byteAt a else 0

/-- What a host DMEM read of `n` bytes from `a` returns: 0 for each byte while BUSY (20_memory.md R61, R62). -/
def State.readDmem (s : State) (a n : Nat) : List Byte :=
  if s.status.busy then List.replicate n 0 else (List.range n).map (fun k => s.hostByte (a + k))

/-- A host DMEM access that BUSY drops sets DROP; any other leaves STATUS (20_memory.md R62). -/
def State.noteDrop (s : State) (a n : Nat) : State :=
  if s.status.busy && s.reachesDmem a n then s.setStatus (s.status.withDrop true) else s

/-- A host DMEM write from `a`: nothing while BUSY, and bytes beyond the end ignored (20_memory.md R61, R62). -/
def State.writeDmem (s : State) (a : Nat) (bytes : List Byte) : State :=
  if s.status.busy then s.noteDrop a bytes.length else s.memWrite a (bytes.take (s.par.dmemSize - a))

/-- The host has its answer to a read. -/
def State.answer (s : State) (r : Answer) : State := { s with answers := r :: s.answers }

/-- The effect of an event that is not the engine's turn (00_scope.md R5; 10_state.md R44; 20_memory.md R61). -/
def State.event (s : State) (e : Event) : State :=
  match e with
  | .engine => s
  | .regRead o n => s.answer (.word (s.readWindow o.toNat n))
  | .regWrite o n v => s.writeWindow o.toNat n v
  | .memRead a n => (s.noteDrop a.toNat n).answer (.bytes (s.readDmem a.toNat n))
  | .memWrite a bytes => s.writeDmem a.toNat bytes
  | .powerOn => s.powerOn

end Sys2Proof.Machine
end

