-- ==== Sys2Proof/Machine/Engine.lean ====
section
/-! DEFINITION. The engine's turn (10_state.md R29, R47), and how a command word comes to be the one in flight. -/

namespace Sys2Proof.Machine

/-- The engine's turn: with BUSY it executes LCMD, an illegal word completing at once with IllegalCommand (10_state.md R47,
30_encoding.md R87); without, it is idle and every piece of state is retained (60_exceptions.md R238). -/
def engineTurn (s : State) : Host.Outcome State Fault Refusal :=
  if s.status.busy then
    match decode s.lcmd with
    | .ok i => exec i s
    | .error _ => .next (s.raise .illegalCommand)
  else .next s

/-- The machine moves once: the first event of the script, or the engine where there is none left or the event is its
turn (20_memory.md R70; log 1). -/
def moveOnce (s : State) : Host.Outcome State Fault Refusal :=
  match s.script with
  | [] => engineTurn s
  | .engine :: rest => engineTurn { s with script := rest }
  | e :: rest => .next (State.event { s with script := rest } e)

/-- `s` with the command of spec/opcode_table.json whose bits are `w` just accepted and the engine to move next: the
acceptance of 10_state.md R46 that a host write to CMD makes (log 1). -/
def State.withCommand (s : State) (nbits w : Nat) : State :=
  { s.accept (BitVec.ofNat 32 (w % 2 ^ nbits)) with
    script := if s.script.isEmpty then [] else .engine :: s.script }

end Sys2Proof.Machine
end

