-- ==== Sys2Proof/Machine/Step.lean ====
section
/-! DEFINITION. One step of the machine, and the state in which a given command is the next to run. -/

namespace Sys2Proof.Machine

/-- One step: an event of the host's, or the engine's completion of the command in flight (00_scope.md R6, 20_memory.md
R70). -/
def step (s : State) : Host.Outcome State Fault Refusal := moveOnce s

/-- `s` with the command word accepted and the engine to move next, as a host write to CMD leaves it (10_state.md R46;
log 1). -/
def State.withFetchWord (s : State) (nbits w : Nat) : State := s.withCommand nbits w

end Sys2Proof.Machine
end

