-- ==== Sys2Proof/Safety.lean ====
section
/-! DEFINITION. What a sound state is, and the states a command leaves, in the terms the statements use. -/

namespace Sys2Proof.Machine

/-! ## What a completion leaves -/

/-- STATUS after a completion without error: BUSY 0, DONE 1, ERR 0, ECODE 0, DROP as before (60_exceptions.md R224). -/
def Status.succeeded (t : Status) : Status := ⟨false, true, false, t.drop, 0⟩

/-- STATUS after a completion with the error code `code` (60_exceptions.md R224). -/
def Status.failed (t : Status) (code : BitVec 4) : Status := ⟨false, true, true, t.drop, code⟩

/-- `s` after a command that ended with the error code `code`: only STATUS differs (60_exceptions.md R223). -/
def State.failed (s : State) (code : BitVec 4) : State := { s with status := s.status.failed code }

/-- `s` after a command that wrote `v` to `b[d]` and nothing else: MAXBITS takes the maximum (10_state.md R24). -/
def State.wrote (s : State) (d : Reg) (v : Int) : State :=
  { s with
    regs := s.regs.set d v
    maxBits := countWord (max s.maxBits.toNat (bitlen v))
    status := s.status.succeeded }

/-- `s` after a command that wrote nothing but its completion. -/
def State.completed (s : State) : State := { s with status := s.status.succeeded }

/-- `t` is `s` but for `b[d]`, MAXBITS and STATUS. -/
def State.sameButReg (d : Reg) (s t : State) : Prop :=
  t = { s with regs := s.regs.set d (t.reg d), maxBits := t.maxBits, status := t.status }

/-- Every byte of DMEM reads as before but for the `n` bytes from `a`. -/
def State.sameBytesOutside (a n : Nat) (s t : State) : Prop :=
  ∀ b, b < a ∨ a + n ≤ b → t.byteAt b = s.byteAt b

/-- Every byte of DMEM reads as before. -/
def State.sameBytes (s t : State) : Prop := ∀ b, t.byteAt b = s.byteAt b

/-! ## Sound states -/

/-- STATUS is as acceptance, completion and reset leave it (10_state.md R33, R46; 60_exceptions.md R220, R224). -/
def Status.Sound (t : Status) : Prop :=
  (t.busy = true → t.done = false ∧ t.err = false) ∧ (t.err = true → t.done = true)
    ∧ (t.err = false → t.ecode = 0) ∧ (t.err = true → 1 ≤ t.ecode.toNat ∧ t.ecode.toNat ≤ 11)

/-- DMEM is in its canonical form and holds no byte at or above DMEM_SIZE (20_memory.md R60). -/
def State.MemSound (s : State) : Prop := s.mem.wf ∧ ∀ c ∈ s.mem, c.1 < s.par.dmemSize

/-- The list is a prefix of the coprime sequence: it starts with the seed, falls strictly, is pairwise coprime and
positive, and passes over a number only if that number shares a factor with a greater entry (42_coprime.md R151, R155). -/
def CacheSound (cp : List Nat) : Prop :=
  cp.head? = some 65535
    ∧ cp.Pairwise (fun x y => y < x ∧ Nat.Coprime x y)
    ∧ (∀ m ∈ cp, 1 ≤ m)
    ∧ ∀ c ≤ 65535, (∃ m ∈ cp, m ≤ c) → c ∈ cp ∨ ∃ m ∈ cp, c < m ∧ ¬ Nat.Coprime c m

/-- The cache is a prefix of the coprime sequence with at most CPMAX entries (10_state.md R25). -/
def State.CacheSound (s : State) : Prop := Machine.CacheSound s.cp ∧ s.cp.length ≤ s.par.cpMax

/-- Every stored big value is within capacity (00_scope.md R8, 10_state.md R20). -/
def State.CapacitySound (s : State) : Prop :=
  (∀ i, fits s.par (s.reg i) = true)
    ∧ (∀ e ∈ s.crt.entries, fits s.par e.m = true ∧ fits s.par e.w = true) ∧ fits s.par s.crt.base = true
    ∧ ∀ v ∈ s.enc.h, fits s.par (v : Nat) = true

/-- The CRT table holds at most MAXK moduli and is the coefficient set of the moduli it lists (10_state.md R26). -/
def State.CrtSound (s : State) : Prop :=
  s.crt.entries.length ≤ s.par.maxK ∧ coefficients s.par s.crt.moduli = .ok (s.crt.weights, s.crt.base)

/-- The encoder holds a geometry of R188 and one hunk below `256^HSIZE` for each of its NH hunk registers, or nothing
(10_state.md R27). -/
def State.EncSound (s : State) : Prop :=
  if s.enc.valid then
    geometry s.par s.enc.len s.enc.bsize = .ok ⟨s.enc.plen, s.enc.minb, s.enc.hsize, s.enc.nh⟩
      ∧ s.enc.h.length = s.enc.nh ∧ ∀ v ∈ s.enc.h, v < 256 ^ s.enc.hsize
  else s.enc = ⟨false, 0, 0, 0, 0, 0, 0, []⟩

/-- The decoder holds a geometry of R188 and a map of at most MAXB entries from 32-bit indices to sequences of BSIZE
bytes, or nothing (10_state.md R28). -/
def State.DecSound (s : State) : Prop :=
  if s.dec.valid then
    geometry s.par s.dec.len s.dec.bsize = .ok ⟨s.dec.plen, s.dec.minb, s.dec.hsize, s.dec.nh⟩
      ∧ s.dec.s.Pairwise (fun x y => x.1 < y.1) ∧ s.dec.s.length ≤ s.par.maxB
      ∧ ∀ e ∈ s.dec.s, e.1 < 2 ^ 32 ∧ e.2.length = s.dec.bsize
  else s.dec = ⟨false, 0, 0, 0, 0, 0, 0, []⟩

/-- At most one of LT, EQ and GT is set (10_state.md R22). -/
def Flags.Sound (f : Flags) : Prop :=
  ¬ (f.lt = true ∧ f.eq = true) ∧ ¬ (f.lt = true ∧ f.gt = true) ∧ ¬ (f.eq = true ∧ f.gt = true)

/-- The moduli the cache holds for the stored indices (44_codec.md R196). -/
def State.cachedModuli (s : State) : List Nat :=
  (s.dec.indices.filter (fun i => decide (i < s.cp.length))).map (fun i => s.cp.getD i 0)

/-- FLAGS.C reads 1 only when the store is complete by the moduli already cached (10_state.md R22,
70_reset_and_hazards.md R258). -/
def State.CompleteFlagSound (s : State) : Prop :=
  s.flags.c = true → 65536 ^ s.dec.minb < product s.cachedModuli

/-! ## Numbers in DMEM (00_scope.md R12, R13; 20_memory.md R65) -/

/-- The range of `n` bytes from `a` lies in DMEM (20_memory.md R64). -/
def State.inRange (s : State) (a n : Nat) : Prop := a + n ≤ s.par.dmemSize

/-- The number whose `n` big-endian bytes stand at `a`, as the sum of 00_scope.md R12. -/
def State.numberAt (s : State) (a n : Nat) : Nat :=
  ∑ k ∈ Finset.range n, (s.byteAt (a + k)).toNat * 256 ^ (n - 1 - k)

/-- The `n` bytes from `a` are the base-256 digits of `v`, the most significant first. -/
def State.holdsNumber (s : State) (a n v : Nat) : Prop :=
  ∀ k < n, (s.byteAt (a + k)).toNat = v / 256 ^ (n - 1 - k) % 256

/-! ## The coprime sequence and the bundle store -/

/-- `cp(i) = m`: some prefix of the coprime sequence holds `m` at index `i` (42_coprime.md R150, R153). -/
def IsModulus (i m : Nat) : Prop := ∃ cp, CacheSound cp ∧ cp[i]? = some m

/-- `cp'` is the cache of `s` grown until it holds at least `n` entries (42_coprime.md R151). -/
def State.cacheGrownTo (s : State) (n : Nat) (cp' : List Nat) : Prop :=
  s.cp <+: cp' ∧ Machine.CacheSound cp' ∧ cp'.length = max s.cp.length n

/-- One more than the greatest index of a list; 0 for the empty list. -/
def depth (is : List Nat) : Nat := is.foldr (fun i n => max (i + 1) n) 0

/-- `ms` are the moduli of the stored indices, each within reach of the cache (44_codec.md R196). -/
def State.storeModuli (s : State) (ms : List Nat) : Prop :=
  List.Forall₂ (fun i m => IsModulus i m ∧ i < s.par.cpMax) s.dec.indices ms

/-- The bytes ENCGEN writes from the encoder `e` for the modulus `m` (44_codec.md R192). -/
def Enc.bundle (e : Enc) (m : Nat) : List Byte := (e.slices m).flatMap (fun p => toBE p 2)

/-- Every stored bundle is what ENCGEN writes for its index from the encoder (44_codec.md R199). -/
def State.BundlesConsistent (s : State) : Prop :=
  ∀ e ∈ s.dec.s, ∃ m, IsModulus e.1 m ∧ e.1 < s.par.cpMax ∧ e.2 = s.enc.bundle m

/-- Slice `h` of a stored bundle: its bytes `2h` and `2h + 1` as a big-endian number (44_codec.md R197). -/
def sliceOf (bytes : List Byte) (h : Nat) : Nat := (bytes.getD (2 * h) 0).toNat * 256 + (bytes.getD (2 * h + 1) 0).toNat

/-- `x h`, for each hunk `h`, is the value below the product of `ms` that agrees with slice `h` of each of the listed
bundles modulo its modulus (43_crt.md R162, 44_codec.md R197). -/
def CombinesTo (bundles : List (List Byte)) (ms : List Nat) (nh : Nat) (x : Nat → Nat) : Prop :=
  ∀ h < nh, x h < ms.prod ∧ ∀ k (_ : k < ms.length), x h ≡ sliceOf (bundles.getD k []) h [MOD ms.getD k 0]

/-! ## Reset values -/

/-- The values of 10_state.md R48 and R29, DMEM apart. -/
def State.ResetValues (s : State) : Prop :=
  (∀ i, s.reg i = 0) ∧ s.flags = ⟨false, false, false, false⟩ ∧ s.res0 = 0 ∧ s.res1 = 0 ∧ s.maxBits = 0
    ∧ s.cp = [65535] ∧ s.crt = ⟨[], 1⟩
    ∧ s.enc = ⟨false, 0, 0, 0, 0, 0, 0, []⟩ ∧ s.dec = ⟨false, 0, 0, 0, 0, 0, 0, []⟩
    ∧ s.status = ⟨false, false, false, false, 0⟩
    ∧ s.lcmd = 0 ∧ s.larg0 = 0 ∧ s.larg1 = 0 ∧ s.larg2 = 0 ∧ s.arg0 = 0 ∧ s.arg1 = 0 ∧ s.arg2 = 0

/-! ## What commands write -/

/-- The big register a command writes: its D field (10_state.md R20). -/
def destination : Instr → Option Reg
  | .ldi d | .mov d _ | .add d _ _ | .sub d _ _ | .mul d _ _ | .rem d _ _ | .mod d _ _ | .gcd d _ _ | .minv d _ _ | .pow d
  | .mpow d _ _ _ | .shl d _ | .shr d _ | .ldbe d | .cpget d | .crtcomb d | .crtw d | .crtm d | .crtbase d
  | .enchunk d => some d
  | .nop | .cmp _ _ | .stbe _ | .stbew _ | .crtcoef | .encinit | .encgen | .decinit | .decpush | .decdone | .decrec => none

/-- The address and the number of bytes a command stores to DMEM (41_bytes.md R141, R142; 44_codec.md R192, R198). -/
def storeRange (s : State) : Instr → Option (Nat × Nat)
  | .stbe a => some (s.larg0.toNat, minlen (s.reg a))
  | .stbew _ => some (s.larg0.toNat, s.larg1.toNat)
  | .encgen => some (s.larg1.toNat, s.enc.bsize)
  | .decrec => some (s.larg0.toNat, s.dec.len)
  | .nop | .ldi _ | .mov _ _ | .add _ _ _ | .sub _ _ _ | .mul _ _ _ | .rem _ _ _ | .mod _ _ _ | .gcd _ _ _ | .minv _ _ _
  | .pow _ | .mpow _ _ _ _ | .cmp _ _ | .shl _ _ | .shr _ _ | .ldbe _ | .cpget _ | .crtcoef | .crtcomb _ | .crtw _ | .crtm _
  | .crtbase _ | .encinit | .enchunk _ | .decinit | .decpush | .decdone => none

/-- The commands that write RES0 (10_state.md R23). -/
def writesRes0 : Instr → Bool
  | .cmp _ _ | .stbe _ | .stbew _ | .cpget _ | .crtcoef | .encinit | .decpush | .decdone | .decrec => true
  | .nop | .ldi _ | .mov _ _ | .add _ _ _ | .sub _ _ _ | .mul _ _ _ | .rem _ _ _ | .mod _ _ _ | .gcd _ _ _ | .minv _ _ _
  | .pow _ | .mpow _ _ _ _ | .shl _ _ | .shr _ _ | .ldbe _ | .crtcomb _ | .crtw _ | .crtm _ | .crtbase _ | .encgen
  | .enchunk _ | .decinit => false

/-- The error codes each command can raise (60_exceptions.md R222). -/
def raisable : Instr → List (BitVec 4)
  | .nop | .ldi _ | .mov _ _ | .gcd _ _ _ | .cmp _ _ | .crtbase _ => []
  | .rem _ _ _ | .mod _ _ _ | .mpow _ _ _ _ | .crtw _ | .crtm _ => [1]
  | .minv _ _ _ => [1, 2]
  | .add _ _ _ | .sub _ _ _ | .mul _ _ _ | .pow _ | .shl _ _ | .shr _ _ => [8]
  | .ldbe _ => [8, 11]
  | .stbe _ | .stbew _ => [1, 4, 11]
  | .cpget _ => [3, 8]
  | .crtcoef => [1, 2, 8, 11]
  | .crtcomb _ => [1, 8, 11]
  | .encinit => [1, 6, 8, 11]
  | .encgen => [3, 8, 10, 11]
  | .enchunk _ => [1, 10]
  | .decinit => [1, 6, 8]
  | .decpush => [1, 8, 10, 11]
  | .decdone => [3, 8, 10]
  | .decrec => [3, 5, 8, 9, 10, 11]

end Sys2Proof.Machine
end

