-- ==== Sys2Proof/Certificates/Slice0/Obligations.lean ====
section
/-! DEFINITION. The statements for the provers. Memory is read through `State.byteAt`; `State.wrote`, `State.failed` and
`State.completed` name the states a completion leaves. `State.wrote` and `noteBits` state the MAXBITS update of R24 too; from
a bit length of `2^32` upward, as for every count in a 32-bit register, its value is the model's free value (log 5), for which
no rule is cited. How a script of events orders the host's accesses and the engine's turns is the model's (log 1). -/

section

open Sys2Proof Sys2Proof.Machine

/-! ## Encoding (30_encoding.md) -/

/-- Decoding an encoded command gives it back, for every command and every register field (R81, R84, R85). -/
def Obligations.DecodeOfEncode : Prop :=
  ∀ i : Instr, decode (encode i) = .ok i ∧ decodeTableWord 32 (encode i).toNat = some i

/-- A word that decodes is the encoding of the command it decodes to: no bit of a legal word is dropped (R85, R86). -/
def Obligations.EncodeOfDecode : Prop := ∀ (w : Word) (i : Instr), decode w = .ok i → encode i = w

/-- R86: which words are illegal, and why; and which OP values are unassigned. -/
def Obligations.IllegalWords : Prop :=
  (∀ w : Word,
    (decode w = .error .unassignedOpcode ↔ ∀ r ∈ opRows, r.op ≠ fieldOP w)
      ∧ (decode w = .error .nonzeroReserved ↔ ∃ r ∈ opRows, r.op = fieldOP w
        ∧ (fieldZ w ≠ 0 ∨ (r.usesD = false ∧ fieldD w ≠ 0) ∨ (r.usesA = false ∧ fieldA w ≠ 0)
          ∨ (r.usesB = false ∧ fieldB w ≠ 0) ∨ (r.usesC = false ∧ fieldC w ≠ 0))))
    ∧ ∀ op < 256, (∀ r ∈ opRows, r.op ≠ op) ↔ (0x03 ≤ op ∧ op ≤ 0x0F) ∨ (0x1C ≤ op ∧ op ≤ 0x1F) ∨ (0x23 ≤ op ∧ op ≤ 0x2F)
      ∨ (0x31 ≤ op ∧ op ≤ 0x3F) ∨ (0x45 ≤ op ∧ op ≤ 0x4F) ∨ (0x53 ≤ op ∧ op ≤ 0x57) ∨ (0x5C ≤ op ∧ op ≤ 0xFF)

/-- The match and mask test of R85 selects exactly the words that decode, and at most one row of the opcode map selects
any word. -/
def Obligations.MatchAndMask : Prop :=
  (∀ w : Word, (∃ i, decode w = .ok i) ↔ legalWord w = true)
    ∧ opRows.Pairwise (fun r r' => ∀ w : Word, ¬ (r.selects w = true ∧ r'.selects w = true))

/-- R91: the example words decode as the spec says. -/
def Obligations.ExampleWords : Prop :=
  decode 0x00000000 = .ok .nop ∧ decode 0x01100000 = .ok (.ldi 1) ∧ decode 0x02210000 = .ok (.mov 2 1)
    ∧ decode 0x10312000 = .ok (.add 3 1 2) ∧ decode 0x18412300 = .ok (.mpow 4 1 2 3) ∧ decode 0x19056000 = .ok (.cmp 5 6)
    ∧ decode 0x21050000 = .ok (.stbe 5) ∧ decode 0x41700000 = .ok (.crtcomb 7) ∧ decode 0x5B000000 = .ok .decrec
    ∧ decode 0x10312001 = .error .nonzeroReserved ∧ decode 0x19156000 = .error .nonzeroReserved
    ∧ decode 0x03000000 = .error .unassignedOpcode

/-! ## The step -/

/-- With a command in flight whose word decodes, the engine's turn runs exactly that command; the turn comes when the
script is empty, or with an `engine` event, which it uses up (how turns are ordered is the model's choice, log 1). -/
def Obligations.StepRunsDecodedCommand : Prop :=
  ∀ (s : State) (i : Instr), s.status.busy = true → decode s.lcmd = .ok i →
    (s.script = [] → step s = exec i s)
      ∧ ∀ rest, s.script = .engine :: rest → step s = exec i { s with script := rest }

/-- R87: a word is accepted whether legal or not, and an illegal one completes at once with IllegalCommand and does nothing
else. -/
def Obligations.IllegalCommandCompletes : Prop :=
  (∀ (s : State) (w : Word) (rest : List Event), s.script = .regWrite 0x10 4 w :: rest → s.status.busy = false →
    step s = .next (State.accept { s with script := rest } w))
    ∧ ∀ (s : State) (e : Illegal), s.script = [] → s.status.busy = true → decode s.lcmd = .error e →
      step s = .next (s.failed 7)

/-- R238: idle, the block keeps every piece of state. -/
def Obligations.IdleRetainsState : Prop :=
  ∀ s : State, s.status.busy = false →
    (s.script = [] → step s = .next s) ∧ ∀ rest, s.script = .engine :: rest → step s = .next { s with script := rest }

/-- Every step answers a next state, and the engine's turn completes the command in flight: BUSY 0 and DONE 1 (R262, R47). -/
def Obligations.EveryCommandCompletes : Prop :=
  (∀ s : State, ∃ t, step s = .next t)
    ∧ ∀ s t : State, s.script = [] → s.status.busy = true → step s = .next t →
      t.status.busy = false ∧ t.status.done = true

/-! ## Data movement and arithmetic (40_alu.md) -/

/-- R101, R102 and R103: NOP completes and does nothing else, LDI loads ARG0 as an unsigned number, MOV copies a register. -/
def Obligations.DataMovementResult : Prop :=
  ∀ (s : State) (d a : Reg),
    (decode 0x00000000 = .ok .nop ∧ decode (pack 0x01 d 0 0 0) = .ok (.ldi d) ∧ decode (pack 0x02 d a 0 0) = .ok (.mov d a))
      ∧ exec .nop s = .next s.completed
      ∧ (s.par.wf = true → exec (.ldi d) s = .next (s.wrote d s.larg0.toNat))
      ∧ (fits s.par (s.reg a) = true → exec (.mov d a) s = .next (s.wrote d (s.reg a)))

/-- R104, R105 and R106: the exact sum, difference and product, or CapacityExceeded. -/
def Obligations.SumDifferenceProductResult : Prop :=
  ∀ (s : State) (d a b : Reg),
    (decode (pack 0x10 d a b 0) = .ok (.add d a b) ∧ decode (pack 0x11 d a b 0) = .ok (.sub d a b)
      ∧ decode (pack 0x12 d a b 0) = .ok (.mul d a b))
    ∧ (fits s.par (s.reg a + s.reg b) = true → exec (.add d a b) s = .next (s.wrote d (s.reg a + s.reg b)))
    ∧ (fits s.par (s.reg a + s.reg b) = false → exec (.add d a b) s = .next (s.failed 8))
    ∧ (fits s.par (s.reg a - s.reg b) = true → exec (.sub d a b) s = .next (s.wrote d (s.reg a - s.reg b)))
    ∧ (fits s.par (s.reg a - s.reg b) = false → exec (.sub d a b) s = .next (s.failed 8))
    ∧ (fits s.par (s.reg a * s.reg b) = true → exec (.mul d a b) s = .next (s.wrote d (s.reg a * s.reg b)))
    ∧ (fits s.par (s.reg a * s.reg b) = false → exec (.mul d a b) s = .next (s.failed 8))
    ∧ (s.reg a = 0 ∨ s.reg b = 0 → exec (.mul d a b) s = .next (s.wrote d 0))

/-- R107 and R108: REM is the remainder of the division that truncates toward zero, MOD the remainder in `[0, divisor)`;
a divisor of 0, and for MOD a negative one, is InvalidArgument. -/
def Obligations.RemainderAndModulusResult : Prop :=
  ∀ (s : State) (d a b : Reg),
    (decode (pack 0x13 d a b 0) = .ok (.rem d a b) ∧ decode (pack 0x14 d a b 0) = .ok (.mod d a b))
    ∧ (s.reg b = 0 → exec (.rem d a b) s = .next (s.failed 1))
    ∧ (s.reg b ≠ 0 → fits s.par (s.reg a) = true →
      ∃ r, r = s.reg a - s.reg b * Int.tdiv (s.reg a) (s.reg b) ∧ exec (.rem d a b) s = .next (s.wrote d r)
        ∧ r.natAbs < (s.reg b).natAbs ∧ (r = 0 ∨ r.sign = (s.reg a).sign))
    ∧ (s.reg b ≤ 0 → exec (.mod d a b) s = .next (s.failed 1))
    ∧ (0 < s.reg b → fits s.par (s.reg b) = true →
      ∃ r, 0 ≤ r ∧ r < s.reg b ∧ s.reg b ∣ s.reg a - r ∧ exec (.mod d a b) s = .next (s.wrote d r))

/-- R109: GCD is the greatest common divisor of the absolute values, and never fails on values within capacity. -/
def Obligations.GcdResult : Prop :=
  ∀ (s : State) (d a b : Reg),
    decode (pack 0x15 d a b 0) = .ok (.gcd d a b)
    ∧ (fits s.par (s.reg a) = true → fits s.par (s.reg b) = true →
      ∃ g : Nat, exec (.gcd d a b) s = .next (s.wrote d g) ∧ (g : Int) ∣ s.reg a ∧ (g : Int) ∣ s.reg b
        ∧ ∀ c : Int, c ∣ s.reg a → c ∣ s.reg b → c ∣ g)

/-- R110: MINV is the one value in `[0, m)` whose product with `a` is 1 modulo `m`; InvalidArgument comes before
NotInvertible. -/
def Obligations.InverseResult : Prop :=
  ∀ (s : State) (d a b : Reg),
    decode (pack 0x16 d a b 0) = .ok (.minv d a b)
    ∧ (s.reg b ≤ 0 → exec (.minv d a b) s = .next (s.failed 1))
    ∧ (0 < s.reg b → Int.gcd (s.reg a) (s.reg b) ≠ 1 → exec (.minv d a b) s = .next (s.failed 2))
    ∧ (0 < s.reg b → Int.gcd (s.reg a) (s.reg b) = 1 → fits s.par (s.reg b) = true →
      ∃ v, exec (.minv d a b) s = .next (s.wrote d v) ∧ 0 ≤ v ∧ v < s.reg b ∧ (s.reg a * v - 1) % s.reg b = 0
        ∧ ∀ v', 0 ≤ v' → v' < s.reg b → (s.reg a * v' - 1) % s.reg b = 0 → v' = v)

/-- R111: POW is the power of two unsigned 32-bit numbers, `0^0` being 1, or CapacityExceeded. -/
def Obligations.PowerResult : Prop :=
  ∀ (s : State) (d : Reg),
    decode (pack 0x17 d 0 0 0) = .ok (.pow d)
    ∧ (fits s.par ((s.larg0.toNat ^ s.larg1.toNat : Nat) : Int) = true →
      exec (.pow d) s = .next (s.wrote d ((s.larg0.toNat ^ s.larg1.toNat : Nat) : Int)))
    ∧ (fits s.par ((s.larg0.toNat ^ s.larg1.toNat : Nat) : Int) = false → exec (.pow d) s = .next (s.failed 8))

/-- R112: MPOW is the power reduced to `[0, m)`; a modulus that is not positive, then a negative exponent, is
InvalidArgument. -/
def Obligations.ModularPowerResult : Prop :=
  ∀ (s : State) (d a b c : Reg),
    decode (pack 0x18 d a b c) = .ok (.mpow d a b c)
    ∧ (s.reg c ≤ 0 ∨ s.reg b < 0 → exec (.mpow d a b c) s = .next (s.failed 1))
    ∧ (0 < s.reg c → 0 ≤ s.reg b → fits s.par (s.reg c) = true →
      exec (.mpow d a b c) s = .next (s.wrote d (s.reg a ^ (s.reg b).toNat % s.reg c)))

/-- R113: CMP sets exactly one of LT, EQ and GT by the numeric order, keeps C, and writes RES0. -/
def Obligations.CompareResult : Prop :=
  ∀ (s : State) (a b : Reg),
    decode (pack 0x19 0 a b 0) = .ok (.cmp a b)
    ∧ (s.reg a < s.reg b → exec (.cmp a b) s
      = .next { s.completed with flags := ⟨true, false, false, s.flags.c⟩, res0 := 0xFFFFFFFF })
    ∧ (s.reg a = s.reg b → exec (.cmp a b) s
      = .next { s.completed with flags := ⟨false, true, false, s.flags.c⟩, res0 := 0 })
    ∧ (s.reg b < s.reg a → exec (.cmp a b) s
      = .next { s.completed with flags := ⟨false, false, true, s.flags.c⟩, res0 := 1 })

/-- R114 and R115: a shift by a signed count acts on the magnitude and keeps the sign: left is the exact product by a power
of two or CapacityExceeded, right rounds toward zero. SHR is SHL with the count negated. -/
def Obligations.ShiftResult : Prop :=
  ∀ (s : State) (d a : Reg) (n : Nat),
    (decode (pack 0x1A d a 0 0) = .ok (.shl d a) ∧ decode (pack 0x1B d a 0 0) = .ok (.shr d a))
    ∧ (s.larg0.toInt = n →
      (fits s.par (s.reg a * 2 ^ n) = true → exec (.shl d a) s = .next (s.wrote d (s.reg a * 2 ^ n)))
        ∧ (fits s.par (s.reg a * 2 ^ n) = false → exec (.shl d a) s = .next (s.failed 8))
        ∧ (fits s.par (s.reg a) = true → exec (.shr d a) s = .next (s.wrote d (Int.tdiv (s.reg a) (2 ^ n)))))
    ∧ (s.larg0.toInt = -n →
      (fits s.par (s.reg a * 2 ^ n) = true → exec (.shr d a) s = .next (s.wrote d (s.reg a * 2 ^ n)))
        ∧ (fits s.par (s.reg a * 2 ^ n) = false → exec (.shr d a) s = .next (s.failed 8))
        ∧ (fits s.par (s.reg a) = true → exec (.shl d a) s = .next (s.wrote d (Int.tdiv (s.reg a) (2 ^ n)))))

/-! ## Byte import and export (41_bytes.md) -/

/-- R140: LDBE imports the bytes of its range as a non-negative big-endian number. -/
def Obligations.ImportResult : Prop :=
  ∀ (s : State) (d : Reg),
    decode (pack 0x20 d 0 0 0) = .ok (.ldbe d)
    ∧ (¬ s.inRange s.larg0.toNat s.larg1.toNat → exec (.ldbe d) s = .next (s.failed 11))
    ∧ (s.inRange s.larg0.toNat s.larg1.toNat → fits s.par (s.numberAt s.larg0.toNat s.larg1.toNat : Nat) = true →
      exec (.ldbe d) s = .next (s.wrote d (s.numberAt s.larg0.toNat s.larg1.toNat : Nat)))
    ∧ (s.inRange s.larg0.toNat s.larg1.toNat → fits s.par (s.numberAt s.larg0.toNat s.larg1.toNat : Nat) = false →
      exec (.ldbe d) s = .next (s.failed 8))

/-- R141: STBE writes the minimal big-endian form of a non-negative value at ARG0 and no byte else, and its length to RES0;
its three errors come in order. -/
def Obligations.MinimalExportResult : Prop :=
  ∀ (s : State) (a : Reg),
    decode (pack 0x21 0 a 0 0) = .ok (.stbe a)
    ∧ (¬ s.inRange s.larg0.toNat s.larg1.toNat → exec (.stbe a) s = .next (s.failed 11))
    ∧ (s.inRange s.larg0.toNat s.larg1.toNat → s.reg a < 0 → exec (.stbe a) s = .next (s.failed 1))
    ∧ (s.inRange s.larg0.toNat s.larg1.toNat → 0 ≤ s.reg a → s.larg1.toNat < minlen (s.reg a) →
      exec (.stbe a) s = .next (s.failed 4))
    ∧ (s.inRange s.larg0.toNat s.larg1.toNat → 0 ≤ s.reg a → minlen (s.reg a) ≤ s.larg1.toNat →
      ∃ t, exec (.stbe a) s = .next t
        ∧ t = { s.completed with mem := t.mem, res0 := BitVec.ofNat 32 (minlen (s.reg a)) }
        ∧ t.holdsNumber s.larg0.toNat (minlen (s.reg a)) (s.reg a).toNat
        ∧ s.sameBytesOutside s.larg0.toNat (minlen (s.reg a)) t
        ∧ (0 < s.reg a → t.byteAt s.larg0.toNat ≠ 0))

/-- R142: STBEW writes a non-negative value in exactly ARG1 bytes, zeros on the left, and that width to RES0; its three
errors come in order. -/
def Obligations.FixedWidthExportResult : Prop :=
  ∀ (s : State) (a : Reg),
    decode (pack 0x22 0 a 0 0) = .ok (.stbew a)
    ∧ (¬ s.inRange s.larg0.toNat s.larg1.toNat → exec (.stbew a) s = .next (s.failed 11))
    ∧ (s.inRange s.larg0.toNat s.larg1.toNat → s.reg a < 0 → exec (.stbew a) s = .next (s.failed 1))
    ∧ (s.inRange s.larg0.toNat s.larg1.toNat → 0 ≤ s.reg a → s.larg1.toNat < minlen (s.reg a) →
      exec (.stbew a) s = .next (s.failed 4))
    ∧ (s.inRange s.larg0.toNat s.larg1.toNat → 0 ≤ s.reg a → minlen (s.reg a) ≤ s.larg1.toNat →
      ∃ t, exec (.stbew a) s = .next t
        ∧ t = { s.completed with mem := t.mem, res0 := s.larg1 }
        ∧ t.holdsNumber s.larg0.toNat s.larg1.toNat (s.reg a).toNat
        ∧ s.sameBytesOutside s.larg0.toNat s.larg1.toNat t)

/-- R143: what STBE or STBEW exported LDBE imports again, and STBE exports what LDBE imported without its leading zero
bytes. -/
def Obligations.ExportImportRoundTrip : Prop :=
  (∀ (s : State) (a d : Reg), 0 ≤ s.reg a → fits s.par (s.reg a) = true → minlen (s.reg a) ≤ s.larg1.toNat →
    s.inRange s.larg0.toNat s.larg1.toNat →
    (∃ t u, exec (.stbe a) s = .next t ∧ exec (.ldbe d) { t with larg1 := t.res0 } = .next u ∧ u.reg d = s.reg a)
      ∧ ∃ t u, exec (.stbew a) s = .next t ∧ exec (.ldbe d) t = .next u ∧ u.reg d = s.reg a)
    ∧ ∀ (s : State) (d : Reg) (p n : Word), s.inRange s.larg0.toNat s.larg1.toNat → s.inRange p.toNat n.toNat →
      s.larg1.toNat ≤ n.toNat → fits s.par (s.numberAt s.larg0.toNat s.larg1.toNat : Nat) = true →
      ∃ t u, exec (.ldbe d) s = .next t ∧ exec (.stbe d) { t with larg0 := p, larg1 := n } = .next u
        ∧ u.memRead p.toNat u.res0.toNat = (s.memRead s.larg0.toNat s.larg1.toNat).dropWhile (· == 0)

/-! ## The coprime cache (42_coprime.md) -/

/-- The entry at an index is a function of the index alone: no two prefixes of the sequence disagree (R153). -/
def Obligations.ModulusIsFunctionOfIndex : Prop := ∀ i m m' : Nat, IsModulus i m → IsModulus i m' → m = m'

/-- The first twenty entries of the sequence (the rows 0 to 19 of R154). -/
def Obligations.FirstModuli : Prop :=
  ∀ e ∈ [65535, 65534, 65533, 65531, 65521, 65519, 65509, 65497, 65491, 65489, 65483, 65479, 65477, 65473, 65459, 65453,
    65449, 65447, 65437, 65431].zipIdx, IsModulus e.2 e.1

/-- R155: the entries of every cache a run can hold are pairwise coprime, fall strictly and are below 65536, so every
residue modulo one of them fits in 2 bytes. -/
def Obligations.ModuliCoprimeAndSmall : Prop :=
  ∀ i j m m' : Nat, i < j → IsModulus i m → IsModulus j m' →
    Nat.gcd m m' = 1 ∧ m' < m ∧ m < 65536 ∧ 0 < m' ∧ ∀ v : Nat, minlen ((v % m : Nat) : Int) ≤ 2 ∧ minlen ((v % m' : Nat) : Int) ≤ 2

/-- CPGET of an index within reach returns its modulus in `b[D]` and RES0, and grows the cache to that index and no further
(R150, R151, R152). -/
def Obligations.ModulusLookupResult : Prop :=
  ∀ (s : State) (d : Reg) (m : Nat),
    s.CacheSound → s.par.wf = true → IsModulus s.larg0.toNat m → s.larg0.toNat < s.par.cpMax →
    decode (pack 0x30 d 0 0 0) = .ok (.cpget d)
      ∧ ∃ cp', s.cacheGrownTo (s.larg0.toNat + 1) cp' ∧ cp'[s.larg0.toNat]? = some m
        ∧ exec (.cpget d) s = .next { s.wrote d m with cp := cp', res0 := BitVec.ofNat 32 m }

/-! ## The CRT engine (43_crt.md) -/

/-- What `coefficients` answers (R160): the three errors in their order, and otherwise one weight per modulus, below the
base, 1 modulo its own modulus and 0 modulo every other. -/
def Obligations.CoefficientSetResult : Prop :=
  ∀ (p : Params) (ms : List Nat),
    (0 ∈ ms → coefficients p ms = .error .invalidArgument)
    ∧ (0 ∉ ms → fits p (ms.prod : Nat) = false → coefficients p ms = .error .capacityExceeded)
    ∧ (0 ∉ ms → fits p (ms.prod : Nat) = true → ¬ ms.Pairwise Nat.Coprime → coefficients p ms = .error .notInvertible)
    ∧ (0 ∉ ms → fits p (ms.prod : Nat) = true → ms.Pairwise Nat.Coprime →
      ∃ ws, coefficients p ms = .ok (ws, ms.prod) ∧ ws.length = ms.length
        ∧ ∀ i (_ : i < ms.length), ws.getD i 0 < ms.prod ∧ ws.getD i 0 ≡ 1 [MOD ms.getD i 0]
          ∧ ∀ j (_ : j < ms.length), j ≠ i → ws.getD i 0 ≡ 0 [MOD ms.getD j 0])

/-- The Chinese remainder property (R162): over a coefficient set, `combine` is the one value below the base that agrees with
every part modulo its modulus, and a part may be reduced first. -/
def Obligations.CombineIsUniqueSolution : Prop :=
  ∀ (p : Params) (ms ws ps : List Nat) (base : Nat), coefficients p ms = .ok (ws, base) → ps.length = ms.length →
    ∃ r, combine ps ws base ms.length = .ok r ∧ r < base
      ∧ (∀ k (_ : k < ms.length), r ≡ ps.getD k 0 [MOD ms.getD k 0])
      ∧ (∀ r', r' < base → (∀ k (_ : k < ms.length), r' ≡ ps.getD k 0 [MOD ms.getD k 0]) → r' = r)
      ∧ combine ((ps.zip ms).map fun x => x.1 % x.2) ws base ms.length = .ok r

/-- R161: CRTCOEF fills the CRT table with the moduli it reads, their coefficient set and the base, and RES0 with the base's
length; its errors come in order and leave the table as it was. -/
def Obligations.CoefficientCommandResult : Prop :=
  ∀ (s : State) (ms : List Nat),
    ms = (List.range s.larg0.toNat).map (fun k => s.numberAt (s.larg1.toNat + k * s.larg2.toNat) s.larg2.toNat) →
    decode 0x40000000 = .ok .crtcoef
    ∧ (s.par.maxK < s.larg0.toNat → exec .crtcoef s = .next (s.failed 8))
    ∧ (s.larg0.toNat ≤ s.par.maxK → ¬ s.inRange s.larg1.toNat (s.larg0.toNat * s.larg2.toNat) →
      exec .crtcoef s = .next (s.failed 11))
    ∧ (s.larg0.toNat ≤ s.par.maxK → s.inRange s.larg1.toNat (s.larg0.toNat * s.larg2.toNat) →
      ((∃ m ∈ ms, fits s.par (m : Nat) = false) → exec .crtcoef s = .next (s.failed 8))
      ∧ ((∀ m ∈ ms, fits s.par (m : Nat) = true) →
        (0 ∈ ms → exec .crtcoef s = .next (s.failed 1))
        ∧ (0 ∉ ms → fits s.par (ms.prod : Nat) = false → exec .crtcoef s = .next (s.failed 8))
        ∧ (0 ∉ ms → fits s.par (ms.prod : Nat) = true → ¬ ms.Pairwise Nat.Coprime → exec .crtcoef s = .next (s.failed 2))
        ∧ (0 ∉ ms → fits s.par (ms.prod : Nat) = true → ms.Pairwise Nat.Coprime →
          ∃ ws : List Nat, coefficients s.par ms = .ok (ws, ms.prod)
            ∧ exec .crtcoef s = .next { s.completed with
                crt := ⟨List.zipWith CrtEntry.mk ms ws, ms.prod⟩
                res0 := countWord (bitlen (ms.prod : Nat))
                maxBits := noteBits s.maxBits ((ms ++ ws ++ [ms.prod]).map Int.ofNat) })))

/-- CRTCOMB writes the one value below the table's base that agrees with every part modulo its modulus; its errors come in
the order of R163. -/
def Obligations.CombineCommandResult : Prop :=
  ∀ (s : State) (d : Reg),
    decode (pack 0x41 d 0 0 0) = .ok (.crtcomb d)
    ∧ (s.larg0.toNat ≠ s.crt.entries.length → exec (.crtcomb d) s = .next (s.failed 1))
    ∧ (s.larg0.toNat = s.crt.entries.length → ¬ s.inRange s.larg1.toNat (s.larg0.toNat * s.larg2.toNat) →
      exec (.crtcomb d) s = .next (s.failed 11))
    ∧ (s.larg0.toNat = s.crt.entries.length → s.inRange s.larg1.toNat (s.larg0.toNat * s.larg2.toNat) →
      ((∃ k < s.larg0.toNat, fits s.par (s.numberAt (s.larg1.toNat + k * s.larg2.toNat) s.larg2.toNat : Nat) = false) →
        exec (.crtcomb d) s = .next (s.failed 8))
      ∧ ((∀ k < s.larg0.toNat, fits s.par (s.numberAt (s.larg1.toNat + k * s.larg2.toNat) s.larg2.toNat : Nat) = true) →
        s.CrtSound →
        ∃ r : Nat, exec (.crtcomb d) s = .next (s.wrote d r) ∧ r < s.crt.base
          ∧ ∀ k e, s.crt.entries[k]? = some e →
            r ≡ s.numberAt (s.larg1.toNat + k * s.larg2.toNat) s.larg2.toNat [MOD e.m]))

/-- R164, R165 and R166: CRTW, CRTM and CRTBASE read the table; an index past its end is InvalidArgument. -/
def Obligations.TableReadResult : Prop :=
  ∀ (s : State) (d : Reg),
    (decode (pack 0x42 d 0 0 0) = .ok (.crtw d) ∧ decode (pack 0x43 d 0 0 0) = .ok (.crtm d)
      ∧ decode (pack 0x44 d 0 0 0) = .ok (.crtbase d))
    ∧ (s.crt.entries.length ≤ s.larg0.toNat →
      exec (.crtw d) s = .next (s.failed 1) ∧ exec (.crtm d) s = .next (s.failed 1))
    ∧ (∀ e, s.crt.entries[s.larg0.toNat]? = some e →
      (fits s.par (e.w : Nat) = true → exec (.crtw d) s = .next (s.wrote d (e.w : Nat)))
        ∧ (fits s.par (e.m : Nat) = true → exec (.crtm d) s = .next (s.wrote d (e.m : Nat))))
    ∧ (fits s.par (s.crt.base : Nat) = true → exec (.crtbase d) s = .next (s.wrote d (s.crt.base : Nat)))

/-! ## The encoder and the decoder (44_codec.md) -/

/-- R188: what `geometry` answers, its errors in their order, and its identities. -/
def Obligations.GeometryResult : Prop :=
  ∀ (p : Params) (l sz : Nat),
    (sz = 0 ∨ sz % 2 = 1 → geometry p l sz = .error .invalidArgument)
    ∧ (0 < sz → sz % 2 = 0 →
      (l = 0 → geometry p l sz = .error .invalidArgument)
      ∧ (0 < l → 100 * sz < l → geometry p l sz = .error .dataTooLarge)
      ∧ (0 < l → l ≤ 100 * sz → p.maxH < sz / 2 → geometry p l sz = .error .capacityExceeded)
      ∧ (0 < l → l ≤ 100 * sz → sz / 2 ≤ p.maxH →
        ∃ g, geometry p l sz = .ok g ∧ l ≤ g.plen ∧ g.plen < l + sz ∧ g.plen = g.minb * sz ∧ 1 ≤ g.minb ∧ g.minb ≤ 100
          ∧ g.hsize = 2 * g.minb ∧ g.nh = sz / 2 ∧ g.plen = g.nh * g.hsize))

/-- R190: ENCINIT imports each hunk of the zero-padded buffer and writes the whole encoder, RES0 and RES1; its errors come in
order and leave the encoder as it was. -/
def Obligations.EncoderInitResult : Prop :=
  ∀ (s : State) (a l sz mb : Nat), a = s.larg0.toNat → l = s.larg1.toNat → sz = s.larg2.toNat → mb = (l + sz - 1) / sz →
    decode 0x50000000 = .ok .encinit
    ∧ (sz = 0 ∨ sz % 2 = 1 ∨ l = 0 → exec .encinit s = .next (s.failed 1))
    ∧ (0 < sz → sz % 2 = 0 → 0 < l →
      (100 < mb → exec .encinit s = .next (s.failed 6))
      ∧ (mb ≤ 100 → s.par.maxH < sz / 2 → exec .encinit s = .next (s.failed 8))
      ∧ (mb ≤ 100 → sz / 2 ≤ s.par.maxH → ¬ s.inRange a l → exec .encinit s = .next (s.failed 11))
      ∧ (mb ≤ 100 → sz / 2 ≤ s.par.maxH → s.inRange a l →
        ∃ h : List Nat, h.length = sz / 2
          ∧ (∀ i < sz / 2, h.getD i 0 = ∑ k ∈ Finset.range (2 * mb),
              (if i * (2 * mb) + k < l then (s.byteAt (a + (i * (2 * mb) + k))).toNat else 0) * 256 ^ (2 * mb - 1 - k))
          ∧ exec .encinit s = .next { s.completed with
              enc := ⟨true, l, sz, mb * sz, mb, 2 * mb, sz / 2, h⟩
              res0 := BitVec.ofNat 32 (sz / 2)
              res1 := BitVec.ofNat 32 mb
              maxBits := noteBits s.maxBits (h.map Int.ofNat) }))

/-- R192: ENCGEN writes, for each hunk, its remainder modulo the bundle's modulus as 2 big-endian bytes, and no byte else; it
stops first on an encoder that is not initialised, then on its range. -/
def Obligations.EncoderGenerateResult : Prop :=
  ∀ s : State,
    decode 0x51000000 = .ok .encgen
    ∧ (s.enc.valid = false → exec .encgen s = .next (s.failed 10))
    ∧ (s.enc.valid = true → ¬ s.inRange s.larg1.toNat s.enc.bsize → exec .encgen s = .next (s.failed 11))
    ∧ (s.enc.valid = true → s.inRange s.larg1.toNat s.enc.bsize → s.CacheSound → ∀ m, IsModulus s.larg0.toNat m →
      s.larg0.toNat < s.par.cpMax →
      ∃ cp' t, s.cacheGrownTo (s.larg0.toNat + 1) cp' ∧ exec .encgen s = .next t
        ∧ t = { s.completed with cp := cp', mem := t.mem }
        ∧ (∀ i < s.enc.bsize / 2, t.numberAt (s.larg1.toNat + 2 * i) 2 = s.enc.h.getD i 0 % m)
        ∧ s.sameBytesOutside s.larg1.toNat s.enc.bsize t)

/-- R193: ENCHUNK reads a hunk register; on a sound encoder the value is below `256^HSIZE`. -/
def Obligations.HunkReadResult : Prop :=
  ∀ (s : State) (d : Reg),
    decode (pack 0x52 d 0 0 0) = .ok (.enchunk d)
    ∧ (s.enc.valid = false → exec (.enchunk d) s = .next (s.failed 10))
    ∧ (s.enc.valid = true → s.enc.nh ≤ s.larg0.toNat → exec (.enchunk d) s = .next (s.failed 1))
    ∧ (s.enc.valid = true → s.larg0.toNat < s.enc.nh → s.EncSound → s.par.wf = true →
      exec (.enchunk d) s = .next (s.wrote d (s.enc.h.getD s.larg0.toNat 0 : Nat))
        ∧ s.enc.h.getD s.larg0.toNat 0 < 256 ^ s.enc.hsize)

/-- R194: DECINIT writes the geometry, empties the store and clears C; its errors come in order and leave the decoder as it
was. -/
def Obligations.DecoderInitResult : Prop :=
  ∀ (s : State) (l sz mb : Nat), l = s.larg0.toNat → sz = s.larg1.toNat → mb = (l + sz - 1) / sz →
    decode 0x58000000 = .ok .decinit
    ∧ (sz = 0 ∨ sz % 2 = 1 ∨ l = 0 → exec .decinit s = .next (s.failed 1))
    ∧ (0 < sz → sz % 2 = 0 → 0 < l →
      (100 < mb → exec .decinit s = .next (s.failed 6))
      ∧ (mb ≤ 100 → s.par.maxH < sz / 2 → exec .decinit s = .next (s.failed 8))
      ∧ (mb ≤ 100 → sz / 2 ≤ s.par.maxH →
        exec .decinit s = .next { s.completed with
          dec := ⟨true, l, sz, mb * sz, mb, 2 * mb, sz / 2, []⟩
          flags := ⟨s.flags.lt, s.flags.eq, s.flags.gt, false⟩ }))

/-- R195: DECPUSH stores a copy of the bundle under its index, replacing an earlier one, keeps every other entry, and writes
the new count to RES0; its errors come in order. -/
def Obligations.BundlePushResult : Prop :=
  ∀ (s : State) (idx a n : Nat), idx = s.larg0.toNat → a = s.larg1.toNat → n = s.larg2.toNat →
    decode 0x59000000 = .ok .decpush
    ∧ (s.dec.valid = false → exec .decpush s = .next (s.failed 10))
    ∧ (s.dec.valid = true → n ≠ s.dec.bsize → exec .decpush s = .next (s.failed 1))
    ∧ (s.dec.valid = true → n = s.dec.bsize → ¬ s.inRange a n → exec .decpush s = .next (s.failed 11))
    ∧ (s.dec.valid = true → n = s.dec.bsize → s.inRange a n → s.DecSound →
      (idx ∉ s.dec.indices → s.dec.s.length = s.par.maxB → exec .decpush s = .next (s.failed 8))
      ∧ (idx ∈ s.dec.indices ∨ s.dec.s.length < s.par.maxB →
        ∃ store : List (Nat × List Byte),
          exec .decpush s = .next { s.completed with
            dec := { s.dec with s := store }
            res0 := countWord store.length }
          ∧ (∀ e, e ∈ store ↔ e = (idx, s.memRead a n) ∨ (e ∈ s.dec.s ∧ e.1 ≠ idx))
          ∧ store.Pairwise (fun x y => x.1 < y.1)
          ∧ store.length = if idx ∈ s.dec.indices then s.dec.s.length else s.dec.s.length + 1))

/-- R196: DECDONE compares the exact product of the stored indices' moduli with `65536^MINB` and writes C and RES0; every
index is looked up. -/
def Obligations.CompletenessResult : Prop :=
  ∀ s : State,
    decode 0x5A000000 = .ok .decdone
    ∧ (s.dec.valid = false → exec .decdone s = .next (s.failed 10))
    ∧ (s.dec.valid = true → s.CacheSound → ∀ ms, s.storeModuli ms →
      ∃ cp', s.cacheGrownTo (depth s.dec.indices) cp'
        ∧ (65536 ^ s.dec.minb < ms.prod → exec .decdone s = .next { s.completed with
            cp := cp', flags := ⟨s.flags.lt, s.flags.eq, s.flags.gt, true⟩, res0 := 1 })
        ∧ (ms.prod ≤ 65536 ^ s.dec.minb → exec .decdone s = .next { s.completed with
            cp := cp', flags := ⟨s.flags.lt, s.flags.eq, s.flags.gt, false⟩, res0 := 0 }))

/-- The four commands that look a modulus up fail on an index out of reach: every modulus found on the way stays cached, and
the error is Exhausted when the sequence has ended with 1, CapacityExceeded when the cache is full before that (R151, R152,
R192, R196, R198, R223). -/
def Obligations.ModulusLookupFailure : Prop :=
  ∀ (s : State) (i : Instr), s.CacheSound →
    (((∃ d, i = .cpget d) ∨ (i = .encgen ∧ s.enc.valid = true ∧ s.inRange s.larg1.toNat s.enc.bsize))
        ∧ (s.par.cpMax ≤ s.larg0.toNat ∨ ∀ m, ¬ IsModulus s.larg0.toNat m)
      ∨ ((i = .decdone ∨ (i = .decrec ∧ s.inRange s.larg0.toNat s.dec.len)) ∧ s.dec.valid = true
        ∧ ∃ j ∈ s.dec.indices, s.par.cpMax ≤ j ∨ ∀ m, ¬ IsModulus j m)) →
    ∃ cp', s.cp <+: cp' ∧ CacheSound cp'
      ∧ ((1 ∈ cp' ∧ exec i s = .next (State.failed { s with cp := cp' } 3))
        ∨ (1 ∉ cp' ∧ cp'.length = s.par.cpMax ∧ exec i s = .next (State.failed { s with cp := cp' } 8)))

/-- R197 and R198: what DECREC does with any sound store, consistent or not. `x h` is the value hunk `h` combines to over all
bundles, `x2 h` over all but the one of the greatest index; the second is taken where the first does not fit the hunk size,
and must then need exactly the hunk size. -/
def Obligations.ReconstructionResult : Prop :=
  ∀ (s : State) (d : Nat), d = s.larg0.toNat →
    decode 0x5B000000 = .ok .decrec
    ∧ (s.dec.valid = false → exec .decrec s = .next (s.failed 10))
    ∧ (s.dec.valid = true → ¬ s.inRange d s.dec.len → exec .decrec s = .next (s.failed 11))
    ∧ (s.dec.valid = true → s.inRange d s.dec.len → s.CacheSound → ∀ ms, s.storeModuli ms →
      ∃ cp', s.cacheGrownTo (depth s.dec.indices) cp'
        ∧ (ms.prod ≤ 65536 ^ s.dec.minb → exec .decrec s = .next (State.failed { s with cp := cp' } 9))
        ∧ (65536 ^ s.dec.minb < ms.prod → s.DecSound → s.par.wf = true → ∀ x x2 : Nat → Nat,
          CombinesTo (s.dec.s.map Prod.snd) ms s.dec.nh x →
          CombinesTo (s.dec.s.map Prod.snd).dropLast ms.dropLast s.dec.nh x2 →
          ((∃ h < s.dec.nh, s.dec.hsize < minlen (x h) ∧ minlen (x2 h) ≠ s.dec.hsize) →
            exec .decrec s = .next (State.failed { s with cp := cp' } 5))
          ∧ ((∀ h < s.dec.nh, minlen (x h) ≤ s.dec.hsize ∨ minlen (x2 h) = s.dec.hsize) →
            ∃ t, exec .decrec s = .next t
              ∧ t = { s.completed with
                  cp := cp'
                  mem := t.mem
                  res0 := BitVec.ofNat 32 s.dec.len
                  res1 := BitVec.ofNat 32 ((List.range s.dec.nh).filter fun h => decide (s.dec.hsize < minlen (x h))).length }
              ∧ (∀ j < s.dec.len, (t.byteAt (d + j)).toNat
                  = (if minlen (x (j / s.dec.hsize)) ≤ s.dec.hsize then x (j / s.dec.hsize) else x2 (j / s.dec.hsize))
                    / 256 ^ (s.dec.hsize - 1 - j % s.dec.hsize) % 256)
              ∧ s.sameBytesOutside d s.dec.len t)))

/-- R199: from bundles that ENCGEN writes for a buffer, in any subset whose moduli's product exceeds the threshold, DECREC
writes that buffer back and takes no retry. -/
def Obligations.ReconstructionRoundTrip : Prop :=
  ∀ (s₀ t₀ s : State) (ms : List Nat), exec .encinit s₀ = .next t₀ → t₀.status.err = false → s.enc = t₀.enc →
    s.dec.valid = true → s.dec.len = s₀.larg1.toNat → s.dec.bsize = s₀.larg2.toNat → s.DecSound → s.CacheSound →
    s.par.wf = true → s.BundlesConsistent → s.storeModuli ms → 65536 ^ s.dec.minb < ms.prod →
    s.inRange s.larg0.toNat s.dec.len →
    ∃ t, exec .decrec s = .next t ∧ t.status = s.status.succeeded
      ∧ t.memRead s.larg0.toNat s.dec.len = s₀.memRead s₀.larg0.toNat s₀.larg1.toNat
      ∧ s.sameBytesOutside s.larg0.toNat s.dec.len t ∧ t.res0 = s₀.larg1 ∧ t.res1 = 0 ∧ t.dec = s.dec ∧ t.crt = s.crt

/-- R202 and R203: a push keeps a complete store complete, and a complete store holds at least `MINB + 1` bundles. -/
def Obligations.CompletenessIsMonotone : Prop :=
  (∀ (s t : State) (ms : List Nat), s.storeModuli ms → 65536 ^ s.dec.minb < ms.prod →
    (∃ m, IsModulus s.larg0.toNat m) → s.larg0.toNat < s.par.cpMax → exec .decpush s = .next t →
    ∃ ms', t.storeModuli ms' ∧ 65536 ^ t.dec.minb < ms'.prod)
    ∧ ∀ (s : State) (ms : List Nat), s.storeModuli ms → 65536 ^ s.dec.minb < ms.prod → s.dec.minb + 1 ≤ s.dec.s.length

/-! ## What a command leaves alone -/

/-- The frame of the big registers and of DMEM: a command writes no big register but the one its D field names, and no byte
outside the range it stores to, whose address and width are those of its rule (R14, R20, R60). -/
def Obligations.RegisterAndMemoryFrame : Prop :=
  ∀ (i : Instr) (s t : State), exec i s = .next t →
    (∀ j, destination i ≠ some j → t.reg j = s.reg j)
    ∧ (storeRange s i = none → s.sameBytes t)
    ∧ ∀ a n, storeRange s i = some (a, n) → s.sameBytesOutside a n t

/-- The frame of everything else: which commands write FLAGS, RES0, RES1, MAXBITS, the cache, the CRT table, the encoder and
the decoder, and that no command writes what belongs to the host (R14, R22, R23, R24, R25, R26, R27, R28, R36). -/
def Obligations.SpecialStateFrame : Prop :=
  ∀ (i : Instr) (s t : State), exec i s = .next t →
    ((∀ a b, i ≠ .cmp a b) → t.flags.lt = s.flags.lt ∧ t.flags.eq = s.flags.eq ∧ t.flags.gt = s.flags.gt)
    ∧ (i ≠ .decinit → i ≠ .decdone → t.flags.c = s.flags.c)
    ∧ (writesRes0 i = false → t.res0 = s.res0)
    ∧ (i ≠ .encinit → i ≠ .decrec → t.res1 = s.res1)
    ∧ (destination i = none → i ≠ .crtcoef → i ≠ .encinit → t.maxBits = s.maxBits)
    ∧ ((∀ d, i ≠ .cpget d) → i ≠ .encgen → i ≠ .decdone → i ≠ .decrec → t.cp = s.cp)
    ∧ (i ≠ .crtcoef → t.crt = s.crt) ∧ (i ≠ .encinit → t.enc = s.enc)
    ∧ (i ≠ .decinit → i ≠ .decpush → t.dec = s.dec) ∧ (i = .decpush → t.dec = { s.dec with s := t.dec.s })
    ∧ t.par = s.par ∧ t.lcmd = s.lcmd ∧ t.larg0 = s.larg0 ∧ t.larg1 = s.larg1 ∧ t.larg2 = s.larg2
    ∧ t.arg0 = s.arg0 ∧ t.arg1 = s.arg1 ∧ t.arg2 = s.arg2
    ∧ t.epoch = s.epoch ∧ t.script = s.script ∧ t.answers = s.answers

/-- From R223 and R224: every command completes with STATUS as R224 says, DROP unchanged; one that ends with an error changed
nothing but STATUS and the coprime cache, and the cache before any command is a prefix of the cache after it. That every value
appended during a failed command stays appended is said by `ModulusLookupFailure` and `ReconstructionResult`, not here. -/
def Obligations.ErrorIsAllOrNothing : Prop :=
  ∀ (i : Instr) (s t : State), exec i s = .next t →
    (t.status = s.status.succeeded
      ∨ ∃ code : BitVec 4, 1 ≤ code.toNat ∧ code.toNat ≤ 11 ∧ t = State.failed { s with cp := t.cp } code)
    ∧ s.cp <+: t.cp

/-- The errors each command can end with, on sound states: the table of R222, its commands that never fail included. -/
def Obligations.RaisableErrors : Prop :=
  ∀ (i : Instr) (s t : State), s.par.wf = true → s.CapacitySound → s.CacheSound → s.CrtSound → s.EncSound → s.DecSound →
    exec i s = .next t → t.status.err = true → t.status.ecode ∈ raisable i

/-- What a running command does depends on the arguments latched at acceptance alone: rewriting ARG0 to ARG2, or clearing
DROP, changes nothing else (R29, R36). -/
def Obligations.RunningCommandIgnoresHostRegisters : Prop :=
  ∀ (i : Instr) (s t : State) (v₀ v₁ v₂ : Word) (drop : Bool), exec i s = .next t →
    exec i { s with arg0 := v₀, arg1 := v₁, arg2 := v₂, status := { s.status with drop := drop } }
      = .next { t with arg0 := v₀, arg1 := v₁, arg2 := v₂, status := { t.status with drop := drop } }

/-- MAXBITS takes the maximum of its value and the bit lengths written, wherever those are below `2^32` (R24; a greater one
is the free value of log 5). -/
def Obligations.MaxBitsTakesMaximum : Prop :=
  ∀ (m : Word) (vs : List Int), (∀ v ∈ vs, bitlen v < 2 ^ 32) →
    m.toNat ≤ (noteBits m vs).toNat ∧ (∀ v ∈ vs, bitlen v ≤ (noteBits m vs).toNat)
      ∧ ((noteBits m vs).toNat = m.toNat ∨ ∃ v ∈ vs, (noteBits m vs).toNat = bitlen v)

/-! ## The host port (10_state.md, 20_memory.md) -/

/-- R46: acceptance of a command word. A CMD write while BUSY sets DROP and does nothing else (R35). -/
def Obligations.CommandAcceptance : Prop :=
  ∀ (s : State) (w : Word) (rest : List Event), s.script = .regWrite 0x10 4 w :: rest →
    (s.status.busy = false → step s = .next { s with
        script := rest, lcmd := w, larg0 := s.arg0, larg1 := s.arg1, larg2 := s.arg2
        status := ⟨true, false, false, s.status.drop, 0⟩ })
    ∧ (s.status.busy = true → step s = .next { s with script := rest, status := { s.status with drop := true } })

/-- The host's register writes that change anything, CMD apart: CTRL (R32, R251), STATUS (R33) and ARG0 to ARG2 (R36), all of
them BUSY or not. -/
def Obligations.HostRegisterWrites : Prop :=
  ∀ (s : State) (o : BitVec 31) (v : Word) (rest : List Event), s.script = .regWrite o 4 v :: rest →
    (o = 0x04 → v.getLsbD 0 = true →
      ∃ t, step s = .next t ∧ t.ResetValues ∧ t.mem = s.mem ∧ t.epoch = s.epoch ∧ t.par = s.par ∧ t.script = rest
        ∧ t.answers = s.answers)
    ∧ (o = 0x04 → v.getLsbD 0 = false → v.getLsbD 1 = true → step s = .next { s with script := rest, maxBits := 0 })
    ∧ (o = 0x04 → v.getLsbD 0 = false → v.getLsbD 1 = false → step s = .next { s with script := rest })
    ∧ (o = 0x08 → v.getLsbD 3 = true → step s = .next { s with script := rest, status := { s.status with drop := false } })
    ∧ (o = 0x08 → v.getLsbD 3 = false → step s = .next { s with script := rest })
    ∧ (o = 0x14 → step s = .next { s with script := rest, arg0 := v })
    ∧ (o = 0x18 → step s = .next { s with script := rest, arg1 := v })
    ∧ (o = 0x1C → step s = .next { s with script := rest, arg2 := v })

/-- The register map of R30 as a read shows it: STATUS and FLAGS bit by bit (R33, R34), the arguments, results and counters
(R36 to R38), the parameters saturated (R39), and the counts of the encoder, the decoder and the CRT table (R40 to R42). Counts
of `2^32` and more are the free value of log 5. -/
def Obligations.RegisterMap : Prop :=
  ∀ s : State,
    (s.readWindow 0x00 4 = 0x43460007 ∧ s.readWindow 0x04 4 = 0 ∧ s.readWindow 0x10 4 = 0)
    ∧ (∀ k, (s.readWindow 0x08 4).getLsbD k = match k with
        | 0 => s.status.busy | 1 => s.status.done | 2 => s.status.err | 3 => s.status.drop
        | 8 => s.status.ecode.getLsbD 0 | 9 => s.status.ecode.getLsbD 1
        | 10 => s.status.ecode.getLsbD 2 | 11 => s.status.ecode.getLsbD 3
        | _ => false)
    ∧ (∀ k, (s.readWindow 0x0C 4).getLsbD k = match k with
        | 0 => s.flags.lt | 1 => s.flags.eq | 2 => s.flags.gt | 3 => s.flags.c
        | _ => false)
    ∧ [0x14, 0x18, 0x1C, 0x20, 0x24, 0x28].map (fun o => s.readWindow o 4)
      = [s.arg0, s.arg1, s.arg2, s.res0, s.res1, s.maxBits]
    ∧ ([0x34, 0x38, 0x3C, 0x40, 0x44].map (fun o => (s.readWindow o 4).toNat)
      = [s.par.dmemSize, s.par.maxB, s.par.maxK, s.par.maxH, s.par.cpMax].map (min (2 ^ 32 - 1)))
    ∧ (s.readWindow 0x30 4).toNat = (match s.par.maxW with | some w => min (2 ^ 32 - 1) w | none => 2 ^ 32 - 1)
    ∧ (s.readWindow 0x50 4).toNat = s.enc.valid.toNat ∧ (s.readWindow 0x70 4).toNat = s.dec.valid.toNat
    ∧ [0x2C, 0x54, 0x58, 0x5C, 0x60, 0x64, 0x68, 0x74, 0x78, 0x7C, 0x80, 0x84, 0x88, 0x8C, 0x90].map
        (fun o => s.readWindow o 4)
      = [s.cp.length, s.enc.len, s.enc.bsize, s.enc.plen, s.enc.minb, s.enc.hsize, s.enc.nh, s.dec.len, s.dec.bsize,
          s.dec.plen, s.dec.minb, s.dec.hsize, s.dec.nh, s.dec.s.length, s.crt.entries.length].map countWord

/-- Register-window accesses that have no effect: a write at any other offset, or of another width, or misaligned, changes
nothing; such a read, and a read of a reserved or unmapped offset, answers 0; and no read changes any state of the block's
(R44, R67). The answers are the model's own record (log 1). -/
def Obligations.RegisterAccessesWithoutEffect : Prop :=
  ∀ (s : State) (o : BitVec 31) (n : Nat) (rest : List Event),
    (∀ v : Word, s.script = .regWrite o n v :: rest →
      n ≠ 4 ∨ o.toNat % 4 ≠ 0 ∨ (o ≠ 0x04 ∧ o ≠ 0x08 ∧ o ≠ 0x10 ∧ o ≠ 0x14 ∧ o ≠ 0x18 ∧ o ≠ 0x1C) →
      step s = .next { s with script := rest })
    ∧ (s.script = .regRead o n :: rest →
      ∃ v : Word, step s = .next { s with script := rest, answers := .word v :: s.answers }
        ∧ (n = 4 → v = s.readWindow o.toNat 4)
        ∧ (n ≠ 4 ∨ o.toNat % 4 ≠ 0 ∨ 0x90 < o.toNat
          ∨ o ∈ [0x04, 0x10, 0x48, 0x4C, 0x6C].map (BitVec.ofNat 31) → v = 0))

/-- The host's DMEM accesses: idle, byte by byte, reading 0 and writing nothing beyond the end (R61); while BUSY, dropped,
reading 0 and setting DROP where the access reaches DMEM at all (R62; log 10 for the accesses that do not). -/
def Obligations.HostMemoryAccess : Prop :=
  ∀ (s : State) (a : BitVec 31) (rest : List Event),
    (s.status.busy = false →
      (∀ bytes, s.script = .memWrite a bytes :: rest →
        ∃ t, step s = .next t ∧ t = { s with script := rest, mem := t.mem }
          ∧ ∀ b, t.byteAt b = if a.toNat ≤ b ∧ b < a.toNat + bytes.length ∧ b < s.par.dmemSize then bytes.getD (b - a.toNat) 0
              else s.byteAt b)
      ∧ ∀ n, s.script = .memRead a n :: rest →
        ∃ l : List Byte, step s = .next { s with script := rest, answers := .bytes l :: s.answers } ∧ l.length = n
          ∧ ∀ k < n, l.getD k 0 = if a.toNat + k < s.par.dmemSize then s.byteAt (a.toNat + k) else 0)
    ∧ (s.status.busy = true → a.toNat < s.par.dmemSize →
      (∀ bytes, bytes ≠ [] → s.script = .memWrite a bytes :: rest →
        step s = .next { s with script := rest, status := { s.status with drop := true } })
      ∧ ∀ n, 0 < n → s.script = .memRead a n :: rest →
        step s = .next { s with
          script := rest
          status := { s.status with drop := true }
          answers := .bytes (List.replicate n 0) :: s.answers })

/-! ## Reset, and what every step keeps -/

/-- R250 and R252: what reset leaves, as the state of the block and as the host reads it. That power-on is an event with a new
draw of DMEM (`mem` empty, `epoch` counted up) is the model's form of R63 (logs 3 and 4). -/
def Obligations.ResetLeavesResetValues : Prop :=
  State.reset.ResetValues ∧ State.reset.mem = []
    ∧ (∀ (s : State) (rest : List Event), s.script = .powerOn :: rest →
      ∃ t, step s = .next t ∧ t.ResetValues ∧ t.mem = [] ∧ t.epoch = s.epoch + 1 ∧ t.par = s.par)
    ∧ State.reset.readWindow 0x00 4 = 0x43460007
    ∧ (∀ o ∈ [0x04, 0x08, 0x0C, 0x10, 0x14, 0x18, 0x1C, 0x20, 0x24, 0x28, 0x50, 0x54, 0x58, 0x5C, 0x60, 0x64, 0x68, 0x70,
        0x74, 0x78, 0x7C, 0x80, 0x84, 0x88, 0x8C, 0x90], State.reset.readWindow o 4 = 0)
    ∧ State.reset.readWindow 0x2C 4 = 1
    ∧ [0x30, 0x34, 0x38, 0x3C, 0x40, 0x44].map (fun o => State.reset.readWindow o 4) = [256, 65536, 256, 256, 512, 6493]

/-- The invariants of the next five statements hold at reset. -/
def Obligations.ResetIsSound : Prop :=
  State.reset.status.Sound ∧ State.reset.MemSound ∧ State.reset.CacheSound ∧ State.reset.par.wf = true
    ∧ State.reset.CapacitySound ∧ State.reset.CrtSound ∧ State.reset.EncSound ∧ State.reset.DecSound
    ∧ State.reset.flags.Sound ∧ State.reset.CompleteFlagSound

/-- Every step keeps STATUS consistent: with BUSY neither DONE nor ERR, ERR only with DONE, and ECODE the code of an error of
R220 with ERR and 0 without (R33, R46, R224). -/
def Obligations.StepKeepsStatusSound : Prop :=
  ∀ s t : State, s.status.Sound → step s = .next t → t.status.Sound

/-- Every step keeps DMEM in its canonical form with no byte at or above DMEM_SIZE, and the parameters as they are (R60,
R64). -/
def Obligations.StepKeepsMemorySound : Prop :=
  ∀ s t : State, s.MemSound → step s = .next t → t.MemSound ∧ t.par = s.par

/-- Every step keeps the cache a prefix of the coprime sequence with at most CPMAX entries (R25, R151, R155). -/
def Obligations.StepKeepsCacheSound : Prop :=
  ∀ s t : State, 1 ≤ s.par.cpMax → s.CacheSound → step s = .next t → t.CacheSound

/-- Every step keeps every stored big value within capacity, the CRT table a coefficient set, and the encoder and the decoder
of a geometry with their hunks and bundles of its sizes (R8, R20, R26, R27, R28, R191). -/
def Obligations.StepKeepsDataSound : Prop :=
  ∀ s t : State, s.par.wf = true → s.CapacitySound → s.CrtSound → s.EncSound → s.DecSound → step s = .next t →
    t.CapacitySound ∧ t.CrtSound ∧ t.EncSound ∧ t.DecSound

/-- Every step keeps at most one of LT, EQ and GT set, and C never 1 on a store that is not complete (R22, R258). -/
def Obligations.StepKeepsFlagsSound : Prop :=
  ∀ s t : State, s.CacheSound → s.flags.Sound → s.CompleteFlagSound → step s = .next t →
    t.flags.Sound ∧ t.CompleteFlagSound

end
end

