-- ==== Sys2Proof/Laws/State.lean ====
section
/-! SUPPORT. The fields of the state after each update: one theorem per update, one equation per field, each true by `rfl`,
for simp. -/

namespace Sys2Proof.Machine

variable (s : State)

@[simp] theorem State.setReg_fields (d : Reg) (v : Int) :
    (s.setReg d v).par = s.par ∧ (s.setReg d v).regs = s.regs.set d v ∧ (s.setReg d v).flags = s.flags ∧
    (s.setReg d v).res0 = s.res0 ∧ (s.setReg d v).res1 = s.res1 ∧ (s.setReg d v).maxBits = s.maxBits ∧
    (s.setReg d v).cp = s.cp ∧ (s.setReg d v).crt = s.crt ∧ (s.setReg d v).enc = s.enc ∧ (s.setReg d v).dec = s.dec ∧
    (s.setReg d v).status = s.status ∧ (s.setReg d v).lcmd = s.lcmd ∧ (s.setReg d v).larg0 = s.larg0 ∧
    (s.setReg d v).larg1 = s.larg1 ∧ (s.setReg d v).larg2 = s.larg2 ∧ (s.setReg d v).arg0 = s.arg0 ∧
    (s.setReg d v).arg1 = s.arg1 ∧ (s.setReg d v).arg2 = s.arg2 ∧ (s.setReg d v).mem = s.mem ∧
    (s.setReg d v).epoch = s.epoch ∧ (s.setReg d v).script = s.script ∧ (s.setReg d v).answers = s.answers :=
  by refine ⟨?_, ?_, ?_, ?_, ?_, ?_, ?_, ?_, ?_, ?_, ?_, ?_, ?_, ?_, ?_, ?_, ?_, ?_, ?_, ?_, ?_, ?_⟩ <;> rfl

@[simp] theorem State.setFlags_fields (f : Flags) :
    (s.setFlags f).par = s.par ∧ (s.setFlags f).regs = s.regs ∧ (s.setFlags f).flags = f ∧
    (s.setFlags f).res0 = s.res0 ∧ (s.setFlags f).res1 = s.res1 ∧ (s.setFlags f).maxBits = s.maxBits ∧
    (s.setFlags f).cp = s.cp ∧ (s.setFlags f).crt = s.crt ∧ (s.setFlags f).enc = s.enc ∧ (s.setFlags f).dec = s.dec ∧
    (s.setFlags f).status = s.status ∧ (s.setFlags f).lcmd = s.lcmd ∧ (s.setFlags f).larg0 = s.larg0 ∧
    (s.setFlags f).larg1 = s.larg1 ∧ (s.setFlags f).larg2 = s.larg2 ∧ (s.setFlags f).arg0 = s.arg0 ∧
    (s.setFlags f).arg1 = s.arg1 ∧ (s.setFlags f).arg2 = s.arg2 ∧ (s.setFlags f).mem = s.mem ∧
    (s.setFlags f).epoch = s.epoch ∧ (s.setFlags f).script = s.script ∧ (s.setFlags f).answers = s.answers :=
  by refine ⟨?_, ?_, ?_, ?_, ?_, ?_, ?_, ?_, ?_, ?_, ?_, ?_, ?_, ?_, ?_, ?_, ?_, ?_, ?_, ?_, ?_, ?_⟩ <;> rfl

@[simp] theorem State.setRes0_fields (v : Word) :
    (s.setRes0 v).par = s.par ∧ (s.setRes0 v).regs = s.regs ∧ (s.setRes0 v).flags = s.flags ∧
    (s.setRes0 v).res0 = v ∧ (s.setRes0 v).res1 = s.res1 ∧ (s.setRes0 v).maxBits = s.maxBits ∧
    (s.setRes0 v).cp = s.cp ∧ (s.setRes0 v).crt = s.crt ∧ (s.setRes0 v).enc = s.enc ∧ (s.setRes0 v).dec = s.dec ∧
    (s.setRes0 v).status = s.status ∧ (s.setRes0 v).lcmd = s.lcmd ∧ (s.setRes0 v).larg0 = s.larg0 ∧
    (s.setRes0 v).larg1 = s.larg1 ∧ (s.setRes0 v).larg2 = s.larg2 ∧ (s.setRes0 v).arg0 = s.arg0 ∧
    (s.setRes0 v).arg1 = s.arg1 ∧ (s.setRes0 v).arg2 = s.arg2 ∧ (s.setRes0 v).mem = s.mem ∧
    (s.setRes0 v).epoch = s.epoch ∧ (s.setRes0 v).script = s.script ∧ (s.setRes0 v).answers = s.answers :=
  by refine ⟨?_, ?_, ?_, ?_, ?_, ?_, ?_, ?_, ?_, ?_, ?_, ?_, ?_, ?_, ?_, ?_, ?_, ?_, ?_, ?_, ?_, ?_⟩ <;> rfl

@[simp] theorem State.setRes1_fields (v : Word) :
    (s.setRes1 v).par = s.par ∧ (s.setRes1 v).regs = s.regs ∧ (s.setRes1 v).flags = s.flags ∧
    (s.setRes1 v).res0 = s.res0 ∧ (s.setRes1 v).res1 = v ∧ (s.setRes1 v).maxBits = s.maxBits ∧
    (s.setRes1 v).cp = s.cp ∧ (s.setRes1 v).crt = s.crt ∧ (s.setRes1 v).enc = s.enc ∧ (s.setRes1 v).dec = s.dec ∧
    (s.setRes1 v).status = s.status ∧ (s.setRes1 v).lcmd = s.lcmd ∧ (s.setRes1 v).larg0 = s.larg0 ∧
    (s.setRes1 v).larg1 = s.larg1 ∧ (s.setRes1 v).larg2 = s.larg2 ∧ (s.setRes1 v).arg0 = s.arg0 ∧
    (s.setRes1 v).arg1 = s.arg1 ∧ (s.setRes1 v).arg2 = s.arg2 ∧ (s.setRes1 v).mem = s.mem ∧
    (s.setRes1 v).epoch = s.epoch ∧ (s.setRes1 v).script = s.script ∧ (s.setRes1 v).answers = s.answers :=
  by refine ⟨?_, ?_, ?_, ?_, ?_, ?_, ?_, ?_, ?_, ?_, ?_, ?_, ?_, ?_, ?_, ?_, ?_, ?_, ?_, ?_, ?_, ?_⟩ <;> rfl

@[simp] theorem State.setCp_fields (cp : List Nat) :
    (s.setCp cp).par = s.par ∧ (s.setCp cp).regs = s.regs ∧ (s.setCp cp).flags = s.flags ∧
    (s.setCp cp).res0 = s.res0 ∧ (s.setCp cp).res1 = s.res1 ∧ (s.setCp cp).maxBits = s.maxBits ∧
    (s.setCp cp).cp = cp ∧ (s.setCp cp).crt = s.crt ∧ (s.setCp cp).enc = s.enc ∧ (s.setCp cp).dec = s.dec ∧
    (s.setCp cp).status = s.status ∧ (s.setCp cp).lcmd = s.lcmd ∧ (s.setCp cp).larg0 = s.larg0 ∧
    (s.setCp cp).larg1 = s.larg1 ∧ (s.setCp cp).larg2 = s.larg2 ∧ (s.setCp cp).arg0 = s.arg0 ∧
    (s.setCp cp).arg1 = s.arg1 ∧ (s.setCp cp).arg2 = s.arg2 ∧ (s.setCp cp).mem = s.mem ∧
    (s.setCp cp).epoch = s.epoch ∧ (s.setCp cp).script = s.script ∧ (s.setCp cp).answers = s.answers :=
  by refine ⟨?_, ?_, ?_, ?_, ?_, ?_, ?_, ?_, ?_, ?_, ?_, ?_, ?_, ?_, ?_, ?_, ?_, ?_, ?_, ?_, ?_, ?_⟩ <;> rfl

@[simp] theorem State.setCrt_fields (t : Crt) :
    (s.setCrt t).par = s.par ∧ (s.setCrt t).regs = s.regs ∧ (s.setCrt t).flags = s.flags ∧
    (s.setCrt t).res0 = s.res0 ∧ (s.setCrt t).res1 = s.res1 ∧ (s.setCrt t).maxBits = s.maxBits ∧
    (s.setCrt t).cp = s.cp ∧ (s.setCrt t).crt = t ∧ (s.setCrt t).enc = s.enc ∧ (s.setCrt t).dec = s.dec ∧
    (s.setCrt t).status = s.status ∧ (s.setCrt t).lcmd = s.lcmd ∧ (s.setCrt t).larg0 = s.larg0 ∧
    (s.setCrt t).larg1 = s.larg1 ∧ (s.setCrt t).larg2 = s.larg2 ∧ (s.setCrt t).arg0 = s.arg0 ∧
    (s.setCrt t).arg1 = s.arg1 ∧ (s.setCrt t).arg2 = s.arg2 ∧ (s.setCrt t).mem = s.mem ∧
    (s.setCrt t).epoch = s.epoch ∧ (s.setCrt t).script = s.script ∧ (s.setCrt t).answers = s.answers :=
  by refine ⟨?_, ?_, ?_, ?_, ?_, ?_, ?_, ?_, ?_, ?_, ?_, ?_, ?_, ?_, ?_, ?_, ?_, ?_, ?_, ?_, ?_, ?_⟩ <;> rfl

@[simp] theorem State.setEnc_fields (e : Enc) :
    (s.setEnc e).par = s.par ∧ (s.setEnc e).regs = s.regs ∧ (s.setEnc e).flags = s.flags ∧
    (s.setEnc e).res0 = s.res0 ∧ (s.setEnc e).res1 = s.res1 ∧ (s.setEnc e).maxBits = s.maxBits ∧
    (s.setEnc e).cp = s.cp ∧ (s.setEnc e).crt = s.crt ∧ (s.setEnc e).enc = e ∧ (s.setEnc e).dec = s.dec ∧
    (s.setEnc e).status = s.status ∧ (s.setEnc e).lcmd = s.lcmd ∧ (s.setEnc e).larg0 = s.larg0 ∧
    (s.setEnc e).larg1 = s.larg1 ∧ (s.setEnc e).larg2 = s.larg2 ∧ (s.setEnc e).arg0 = s.arg0 ∧
    (s.setEnc e).arg1 = s.arg1 ∧ (s.setEnc e).arg2 = s.arg2 ∧ (s.setEnc e).mem = s.mem ∧
    (s.setEnc e).epoch = s.epoch ∧ (s.setEnc e).script = s.script ∧ (s.setEnc e).answers = s.answers :=
  by refine ⟨?_, ?_, ?_, ?_, ?_, ?_, ?_, ?_, ?_, ?_, ?_, ?_, ?_, ?_, ?_, ?_, ?_, ?_, ?_, ?_, ?_, ?_⟩ <;> rfl

@[simp] theorem State.setDec_fields (x : Dec) :
    (s.setDec x).par = s.par ∧ (s.setDec x).regs = s.regs ∧ (s.setDec x).flags = s.flags ∧
    (s.setDec x).res0 = s.res0 ∧ (s.setDec x).res1 = s.res1 ∧ (s.setDec x).maxBits = s.maxBits ∧
    (s.setDec x).cp = s.cp ∧ (s.setDec x).crt = s.crt ∧ (s.setDec x).enc = s.enc ∧ (s.setDec x).dec = x ∧
    (s.setDec x).status = s.status ∧ (s.setDec x).lcmd = s.lcmd ∧ (s.setDec x).larg0 = s.larg0 ∧
    (s.setDec x).larg1 = s.larg1 ∧ (s.setDec x).larg2 = s.larg2 ∧ (s.setDec x).arg0 = s.arg0 ∧
    (s.setDec x).arg1 = s.arg1 ∧ (s.setDec x).arg2 = s.arg2 ∧ (s.setDec x).mem = s.mem ∧
    (s.setDec x).epoch = s.epoch ∧ (s.setDec x).script = s.script ∧ (s.setDec x).answers = s.answers :=
  by refine ⟨?_, ?_, ?_, ?_, ?_, ?_, ?_, ?_, ?_, ?_, ?_, ?_, ?_, ?_, ?_, ?_, ?_, ?_, ?_, ?_, ?_, ?_⟩ <;> rfl

@[simp] theorem State.setMaxBits_fields (v : Word) :
    (s.setMaxBits v).par = s.par ∧ (s.setMaxBits v).regs = s.regs ∧ (s.setMaxBits v).flags = s.flags ∧
    (s.setMaxBits v).res0 = s.res0 ∧ (s.setMaxBits v).res1 = s.res1 ∧ (s.setMaxBits v).maxBits = v ∧
    (s.setMaxBits v).cp = s.cp ∧ (s.setMaxBits v).crt = s.crt ∧ (s.setMaxBits v).enc = s.enc ∧
    (s.setMaxBits v).dec = s.dec ∧ (s.setMaxBits v).status = s.status ∧ (s.setMaxBits v).lcmd = s.lcmd ∧
    (s.setMaxBits v).larg0 = s.larg0 ∧ (s.setMaxBits v).larg1 = s.larg1 ∧ (s.setMaxBits v).larg2 = s.larg2 ∧
    (s.setMaxBits v).arg0 = s.arg0 ∧ (s.setMaxBits v).arg1 = s.arg1 ∧ (s.setMaxBits v).arg2 = s.arg2 ∧
    (s.setMaxBits v).mem = s.mem ∧ (s.setMaxBits v).epoch = s.epoch ∧ (s.setMaxBits v).script = s.script ∧
    (s.setMaxBits v).answers = s.answers :=
  by refine ⟨?_, ?_, ?_, ?_, ?_, ?_, ?_, ?_, ?_, ?_, ?_, ?_, ?_, ?_, ?_, ?_, ?_, ?_, ?_, ?_, ?_, ?_⟩ <;> rfl

@[simp] theorem State.setStatus_fields (t : Status) :
    (s.setStatus t).par = s.par ∧ (s.setStatus t).regs = s.regs ∧ (s.setStatus t).flags = s.flags ∧
    (s.setStatus t).res0 = s.res0 ∧ (s.setStatus t).res1 = s.res1 ∧ (s.setStatus t).maxBits = s.maxBits ∧
    (s.setStatus t).cp = s.cp ∧ (s.setStatus t).crt = s.crt ∧ (s.setStatus t).enc = s.enc ∧
    (s.setStatus t).dec = s.dec ∧ (s.setStatus t).status = t ∧ (s.setStatus t).lcmd = s.lcmd ∧
    (s.setStatus t).larg0 = s.larg0 ∧ (s.setStatus t).larg1 = s.larg1 ∧ (s.setStatus t).larg2 = s.larg2 ∧
    (s.setStatus t).arg0 = s.arg0 ∧ (s.setStatus t).arg1 = s.arg1 ∧ (s.setStatus t).arg2 = s.arg2 ∧
    (s.setStatus t).mem = s.mem ∧ (s.setStatus t).epoch = s.epoch ∧ (s.setStatus t).script = s.script ∧
    (s.setStatus t).answers = s.answers :=
  by refine ⟨?_, ?_, ?_, ?_, ?_, ?_, ?_, ?_, ?_, ?_, ?_, ?_, ?_, ?_, ?_, ?_, ?_, ?_, ?_, ?_, ?_, ?_⟩ <;> rfl

@[simp] theorem State.memWrite_fields (a : Nat) (l : List Byte) :
    (s.memWrite a l).par = s.par ∧ (s.memWrite a l).regs = s.regs ∧ (s.memWrite a l).flags = s.flags ∧
    (s.memWrite a l).res0 = s.res0 ∧ (s.memWrite a l).res1 = s.res1 ∧ (s.memWrite a l).maxBits = s.maxBits ∧
    (s.memWrite a l).cp = s.cp ∧ (s.memWrite a l).crt = s.crt ∧ (s.memWrite a l).enc = s.enc ∧
    (s.memWrite a l).dec = s.dec ∧ (s.memWrite a l).status = s.status ∧ (s.memWrite a l).lcmd = s.lcmd ∧
    (s.memWrite a l).larg0 = s.larg0 ∧ (s.memWrite a l).larg1 = s.larg1 ∧ (s.memWrite a l).larg2 = s.larg2 ∧
    (s.memWrite a l).arg0 = s.arg0 ∧ (s.memWrite a l).arg1 = s.arg1 ∧ (s.memWrite a l).arg2 = s.arg2 ∧
    (s.memWrite a l).mem = s.mem.putAll a l ∧ (s.memWrite a l).epoch = s.epoch ∧ (s.memWrite a l).script = s.script ∧
    (s.memWrite a l).answers = s.answers :=
  by refine ⟨?_, ?_, ?_, ?_, ?_, ?_, ?_, ?_, ?_, ?_, ?_, ?_, ?_, ?_, ?_, ?_, ?_, ?_, ?_, ?_, ?_, ?_⟩ <;> rfl

@[simp] theorem State.raise_fields (e : CoreErr) :
    (s.raise e).par = s.par ∧ (s.raise e).regs = s.regs ∧ (s.raise e).flags = s.flags ∧ (s.raise e).res0 = s.res0 ∧
    (s.raise e).res1 = s.res1 ∧ (s.raise e).maxBits = s.maxBits ∧ (s.raise e).cp = s.cp ∧ (s.raise e).crt = s.crt ∧
    (s.raise e).enc = s.enc ∧ (s.raise e).dec = s.dec ∧ (s.raise e).status = s.status.fail e ∧
    (s.raise e).lcmd = s.lcmd ∧ (s.raise e).larg0 = s.larg0 ∧ (s.raise e).larg1 = s.larg1 ∧
    (s.raise e).larg2 = s.larg2 ∧ (s.raise e).arg0 = s.arg0 ∧ (s.raise e).arg1 = s.arg1 ∧ (s.raise e).arg2 = s.arg2 ∧
    (s.raise e).mem = s.mem ∧ (s.raise e).epoch = s.epoch ∧ (s.raise e).script = s.script ∧
    (s.raise e).answers = s.answers :=
  by refine ⟨?_, ?_, ?_, ?_, ?_, ?_, ?_, ?_, ?_, ?_, ?_, ?_, ?_, ?_, ?_, ?_, ?_, ?_, ?_, ?_, ?_, ?_⟩ <;> rfl

@[simp] theorem State.accept_fields (w : Word) :
    (s.accept w).par = s.par ∧ (s.accept w).regs = s.regs ∧ (s.accept w).flags = s.flags ∧
    (s.accept w).res0 = s.res0 ∧ (s.accept w).res1 = s.res1 ∧ (s.accept w).maxBits = s.maxBits ∧
    (s.accept w).cp = s.cp ∧ (s.accept w).crt = s.crt ∧ (s.accept w).enc = s.enc ∧ (s.accept w).dec = s.dec ∧
    (s.accept w).status = ⟨true, false, false, s.status.drop, 0⟩ ∧ (s.accept w).lcmd = w ∧
    (s.accept w).larg0 = s.arg0 ∧ (s.accept w).larg1 = s.arg1 ∧ (s.accept w).larg2 = s.arg2 ∧
    (s.accept w).arg0 = s.arg0 ∧ (s.accept w).arg1 = s.arg1 ∧ (s.accept w).arg2 = s.arg2 ∧ (s.accept w).mem = s.mem ∧
    (s.accept w).epoch = s.epoch ∧ (s.accept w).script = s.script ∧ (s.accept w).answers = s.answers :=
  by refine ⟨?_, ?_, ?_, ?_, ?_, ?_, ?_, ?_, ?_, ?_, ?_, ?_, ?_, ?_, ?_, ?_, ?_, ?_, ?_, ?_, ?_, ?_⟩ <;> rfl

@[simp] theorem State.answer_fields (r : Answer) :
    (s.answer r).par = s.par ∧ (s.answer r).regs = s.regs ∧ (s.answer r).flags = s.flags ∧
    (s.answer r).res0 = s.res0 ∧ (s.answer r).res1 = s.res1 ∧ (s.answer r).maxBits = s.maxBits ∧
    (s.answer r).cp = s.cp ∧ (s.answer r).crt = s.crt ∧ (s.answer r).enc = s.enc ∧ (s.answer r).dec = s.dec ∧
    (s.answer r).status = s.status ∧ (s.answer r).lcmd = s.lcmd ∧ (s.answer r).larg0 = s.larg0 ∧
    (s.answer r).larg1 = s.larg1 ∧ (s.answer r).larg2 = s.larg2 ∧ (s.answer r).arg0 = s.arg0 ∧
    (s.answer r).arg1 = s.arg1 ∧ (s.answer r).arg2 = s.arg2 ∧ (s.answer r).mem = s.mem ∧
    (s.answer r).epoch = s.epoch ∧ (s.answer r).script = s.script ∧ (s.answer r).answers = r :: s.answers :=
  by refine ⟨?_, ?_, ?_, ?_, ?_, ?_, ?_, ?_, ?_, ?_, ?_, ?_, ?_, ?_, ?_, ?_, ?_, ?_, ?_, ?_, ?_, ?_⟩ <;> rfl

@[simp] theorem State.softReset_fields :
    (s.softReset).par = s.par ∧ (s.softReset).regs = Vector.replicate 16 0 ∧
    (s.softReset).flags = ⟨false, false, false, false⟩ ∧ (s.softReset).res0 = 0 ∧ (s.softReset).res1 = 0 ∧
    (s.softReset).maxBits = 0 ∧ (s.softReset).cp = [65535] ∧ (s.softReset).crt = ⟨[], 1⟩ ∧
    (s.softReset).enc = ⟨false, 0, 0, 0, 0, 0, 0, []⟩ ∧ (s.softReset).dec = ⟨false, 0, 0, 0, 0, 0, 0, []⟩ ∧
    (s.softReset).status = ⟨false, false, false, false, 0⟩ ∧ (s.softReset).lcmd = 0 ∧ (s.softReset).larg0 = 0 ∧
    (s.softReset).larg1 = 0 ∧ (s.softReset).larg2 = 0 ∧ (s.softReset).arg0 = 0 ∧ (s.softReset).arg1 = 0 ∧
    (s.softReset).arg2 = 0 ∧ (s.softReset).mem = s.mem ∧ (s.softReset).epoch = s.epoch ∧
    (s.softReset).script = s.script ∧ (s.softReset).answers = s.answers :=
  by refine ⟨?_, ?_, ?_, ?_, ?_, ?_, ?_, ?_, ?_, ?_, ?_, ?_, ?_, ?_, ?_, ?_, ?_, ?_, ?_, ?_, ?_, ?_⟩ <;> rfl

@[simp] theorem State.powerOn_fields :
    (s.powerOn).par = s.par ∧ (s.powerOn).regs = Vector.replicate 16 0 ∧
    (s.powerOn).flags = ⟨false, false, false, false⟩ ∧ (s.powerOn).res0 = 0 ∧ (s.powerOn).res1 = 0 ∧
    (s.powerOn).maxBits = 0 ∧ (s.powerOn).cp = [65535] ∧ (s.powerOn).crt = ⟨[], 1⟩ ∧
    (s.powerOn).enc = ⟨false, 0, 0, 0, 0, 0, 0, []⟩ ∧ (s.powerOn).dec = ⟨false, 0, 0, 0, 0, 0, 0, []⟩ ∧
    (s.powerOn).status = ⟨false, false, false, false, 0⟩ ∧ (s.powerOn).lcmd = 0 ∧ (s.powerOn).larg0 = 0 ∧
    (s.powerOn).larg1 = 0 ∧ (s.powerOn).larg2 = 0 ∧ (s.powerOn).arg0 = 0 ∧ (s.powerOn).arg1 = 0 ∧
    (s.powerOn).arg2 = 0 ∧ (s.powerOn).mem = [] ∧ (s.powerOn).epoch = s.epoch + 1 ∧ (s.powerOn).script = s.script ∧
    (s.powerOn).answers = s.answers :=
  by refine ⟨?_, ?_, ?_, ?_, ?_, ?_, ?_, ?_, ?_, ?_, ?_, ?_, ?_, ?_, ?_, ?_, ?_, ?_, ?_, ?_, ?_, ?_⟩ <;> rfl

/-- The fields of a successful completion: the command's writes, MAXBITS noted, STATUS as R224 says. -/
@[simp] theorem Result.complete_fields (r : Result) :
    r.complete.par = r.st.par ∧ r.complete.regs = r.st.regs ∧ r.complete.flags = r.st.flags ∧
    r.complete.res0 = r.st.res0 ∧ r.complete.res1 = r.st.res1 ∧ r.complete.maxBits = noteBits r.st.maxBits r.big ∧
    r.complete.cp = r.st.cp ∧ r.complete.crt = r.st.crt ∧ r.complete.enc = r.st.enc ∧ r.complete.dec = r.st.dec ∧
    r.complete.status = ⟨false, true, false, r.st.status.drop, 0⟩ ∧ r.complete.lcmd = r.st.lcmd ∧
    r.complete.larg0 = r.st.larg0 ∧ r.complete.larg1 = r.st.larg1 ∧ r.complete.larg2 = r.st.larg2 ∧
    r.complete.arg0 = r.st.arg0 ∧ r.complete.arg1 = r.st.arg1 ∧ r.complete.arg2 = r.st.arg2 ∧
    r.complete.mem = r.st.mem ∧ r.complete.epoch = r.st.epoch ∧ r.complete.script = r.st.script ∧
    r.complete.answers = r.st.answers :=
  by refine ⟨?_, ?_, ?_, ?_, ?_, ?_, ?_, ?_, ?_, ?_, ?_, ?_, ?_, ?_, ?_, ?_, ?_, ?_, ?_, ?_, ?_, ?_⟩ <;> rfl

/-! Reading a big register after an update. -/

theorem State.reg_setReg (d i : Reg) (v : Int) : (s.setReg d v).reg i = if i = d then v else s.reg i := by
  simp only [State.reg, State.setReg_fields, Fin.getElem_fin, Vector.getElem_set]
  by_cases h : i = d
  · simp [h]
  · rw [if_neg h, if_neg (fun hv => h (Fin.ext hv.symm))]

@[simp] theorem State.reg_setReg_same (d : Reg) (v : Int) : (s.setReg d v).reg d = v := by
  rw [State.reg_setReg, if_pos rfl]

theorem State.reg_setReg_other {d i : Reg} (v : Int) (h : i ≠ d) : (s.setReg d v).reg i = s.reg i := by
  rw [State.reg_setReg, if_neg h]

theorem State.reg_eq_of_regs_eq {s t : State} (h : s.regs = t.regs) (i : Reg) : s.reg i = t.reg i := by
  simp [State.reg, h]

@[simp] theorem Status.succeed_eq (t : Status) : t.succeed = ⟨false, true, false, t.drop, 0⟩ := rfl

@[simp] theorem Status.fail_eq (t : Status) (e : CoreErr) : t.fail e = ⟨false, true, true, t.drop, e.code⟩ := rfl

end Sys2Proof.Machine
end

