-- ==== Sys2Proof/Laws/Numbers.lean ====
section
/-! SUPPORT. What the helper functions of 00_scope.md R12 do: lengths of integers, and big-endian byte sequences. -/

namespace Sys2Proof.Machine

/-! ## Lengths -/

theorem bitlen_zero : bitlen 0 = 0 := rfl

theorem bitlen_natAbs (v : Int) : bitlen (v.natAbs : Int) = bitlen v := by
  unfold bitlen
  simp only [Int.natCast_eq_zero, Int.natAbs_eq_zero, Int.natAbs_natCast]

theorem bitlen_neg (v : Int) : bitlen (-v) = bitlen v := by
  simp [bitlen]

/-- `bitlen` counts the bits of the magnitude: at most `n` of them exactly when the magnitude is below `2^n`. -/
theorem bitlen_le_iff (v : Int) (n : Nat) : bitlen v ≤ n ↔ v.natAbs < 2 ^ n := by
  unfold bitlen
  split
  · next h => subst h; simp
  · next h =>
    have : v.natAbs ≠ 0 := by omega
    rw [Nat.add_one_le_iff, Nat.log2_lt this]

theorem bitlen_mono {v w : Int} (h : v.natAbs ≤ w.natAbs) : bitlen v ≤ bitlen w :=
  (bitlen_le_iff v _).2 (lt_of_le_of_lt h ((bitlen_le_iff w _).1 le_rfl))

theorem lt_two_pow_bitlen (v : Int) : v.natAbs < 2 ^ bitlen v := (bitlen_le_iff v _).1 le_rfl

theorem two_pow_le_of_lt_bitlen {v : Int} {n : Nat} (h : n < bitlen v) : 2 ^ n ≤ v.natAbs := by
  by_contra hc
  exact absurd ((bitlen_le_iff v n).2 (by omega)) (by omega)

theorem words_le_iff (v : Int) (n : Nat) : words v ≤ n ↔ bitlen v ≤ 32 * n := by
  unfold words; omega

/-- `minlen` counts the bytes of the magnitude. -/
theorem minlen_le_iff (v : Int) (n : Nat) : minlen v ≤ n ↔ v.natAbs < 256 ^ n := by
  have : (256 : Nat) ^ n = 2 ^ (8 * n) := by rw [show (256 : Nat) = 2 ^ 8 by norm_num, ← pow_mul]
  rw [this, ← bitlen_le_iff]
  unfold minlen; omega

theorem lt_pow_minlen (v : Int) : v.natAbs < 256 ^ minlen v := (minlen_le_iff v _).1 le_rfl

theorem fits_iff (p : Params) (v : Int) : fits p v = true ↔ ∀ w, p.maxW = some w → v.natAbs < 2 ^ (32 * w) := by
  unfold fits
  split
  · next h => simp [h]
  · next w h => simp [h, bitlen_le_iff]

/-- A magnitude no greater than one that fits fits. -/
theorem fits_mono {p : Params} {v w : Int} (hw : fits p w = true) (h : v.natAbs ≤ w.natAbs) : fits p v = true :=
  (fits_iff p v).2 fun k hk => lt_of_le_of_lt h ((fits_iff p w).1 hw k hk)

theorem fits_zero (p : Params) : fits p 0 = true := (fits_iff p 0).2 fun w _ => by positivity

theorem countWord_of_lt {n : Nat} (h : n < 2 ^ 32) : countWord n = BitVec.ofNat 32 n := by
  unfold countWord; rw [if_pos h]

theorem countWord_toNat {n : Nat} (h : n < 2 ^ 32) : (countWord n).toNat = n := by
  rw [countWord_of_lt h, BitVec.toNat_ofNat, Nat.mod_eq_of_lt h]

/-! ## Big-endian sequences -/

theorem fromBE_nil : fromBE [] = 0 := rfl

theorem fromBE_append_singleton (l : List Byte) (b : Byte) : fromBE (l ++ [b]) = fromBE l * 256 + b.toNat := by
  simp [fromBE, List.foldl_append]

theorem fromBE_append (l m : List Byte) : fromBE (l ++ m) = fromBE l * 256 ^ m.length + fromBE m := by
  induction m using List.reverseRecOn with
  | nil => simp [fromBE]
  | append_singleton m b ih =>
    rw [← List.append_assoc, fromBE_append_singleton, ih, fromBE_append_singleton, List.length_append]
    simp only [List.length_cons, List.length_nil, pow_add]; ring

theorem fromBE_cons (b : Byte) (l : List Byte) : fromBE (b :: l) = b.toNat * 256 ^ l.length + fromBE l := by
  have := fromBE_append [b] l
  simpa [fromBE] using this

theorem fromBE_lt (l : List Byte) : fromBE l < 256 ^ l.length := by
  induction l with
  | nil => simp [fromBE]
  | cons b l ih =>
    rw [fromBE_cons, List.length_cons, pow_succ]
    have hb : b.toNat ≤ 255 := by have := b.isLt; omega
    nlinarith [Nat.mul_le_mul_right (256 ^ l.length) hb]

/-- The sum of 00_scope.md R12. -/
theorem fromBE_eq_sum (l : List Byte) :
    fromBE l = ∑ k : Fin l.length, (l[k]).toNat * 256 ^ (l.length - 1 - k) := by
  induction l with
  | nil => simp [fromBE]
  | cons b l ih =>
    rw [fromBE_cons, ih]
    simp only [List.length_cons, Fin.sum_univ_succ, Fin.getElem_fin, Fin.val_zero, List.getElem_cons_zero,
      Fin.val_succ, List.getElem_cons_succ]
    congr 1
    refine Finset.sum_congr rfl fun k _ => ?_
    have : l.length + 1 - 1 - (k + 1 : Nat) = l.length - 1 - k := by omega
    rw [this]

theorem toBEOnto_eq (n : Nat) : ∀ (v : Nat) (acc : List Byte), toBEOnto v n acc = toBE v n ++ acc := by
  induction n with
  | zero => intro v acc; rfl
  | succ n ih =>
    intro v acc
    rw [toBE, toBEOnto, toBEOnto, ih, ih (v / 256) [_], List.append_assoc]; rfl

theorem toBE_zero (v : Nat) : toBE v 0 = [] := rfl

theorem toBE_succ (v n : Nat) : toBE v (n + 1) = toBE (v / 256) n ++ [BitVec.ofNat 8 v] := by
  rw [toBE, toBEOnto, toBEOnto_eq]

@[simp] theorem toBE_length (n : Nat) : ∀ v, (toBE v n).length = n := by
  induction n with
  | zero => intro v; rfl
  | succ n ih => intro v; rw [toBE_succ, List.length_append, ih]; rfl

theorem fromBE_toBE_mod (n : Nat) : ∀ v, fromBE (toBE v n) = v % 256 ^ n := by
  induction n with
  | zero => intro v; simp [toBE_zero, fromBE, Nat.mod_one]
  | succ n ih =>
    intro v
    rw [toBE_succ, fromBE_append_singleton, ih, BitVec.toNat_ofNat, show 2 ^ 8 = 256 from rfl, pow_succ,
      mul_comm (256 ^ n) 256, Nat.mod_mul]
    ring

/-- `toBE(v, n)` is the sequence of `n` bytes that stands for `v` (00_scope.md R12). -/
theorem fromBE_toBE {v n : Nat} (h : v < 256 ^ n) : fromBE (toBE v n) = v := by
  rw [fromBE_toBE_mod, Nat.mod_eq_of_lt h]

/-- The bytes of a sequence are determined by its length and its value. -/
theorem toBE_fromBE (l : List Byte) : toBE (fromBE l) l.length = l := by
  induction l using List.reverseRecOn with
  | nil => rfl
  | append_singleton l b ih =>
    have hb := b.isLt
    rw [List.length_append, List.length_singleton, toBE_succ, fromBE_append_singleton]
    have h1 : (fromBE l * 256 + b.toNat) / 256 = fromBE l := by omega
    have h2 : BitVec.ofNat 8 (fromBE l * 256 + b.toNat) = b := by
      apply BitVec.eq_of_toNat_eq; rw [BitVec.toNat_ofNat]; omega
    rw [h1, h2, ih]

theorem fromBE_replicate_zero (n : Nat) : fromBE (List.replicate n 0) = 0 := by
  induction n with
  | zero => rfl
  | succ n ih => rw [List.replicate_succ, fromBE_cons, ih]; simp

end Sys2Proof.Machine
end

