-- ==== Sys2Proof/Laws/Memory.lean ====
section
/-! SUPPORT. What the memory operations do, and that they keep the canonical form (20_memory.md R60, R63). -/

namespace Sys2Proof.Machine

/-! ## One byte -/

theorem Memory.get?_put (m : Memory) (a b : Nat) (v : Byte) :
    (m.put a v).get? b = if b = a then some v else m.get? b := by
  induction m with
  | nil => simp only [Memory.put, Memory.get?, eq_comm]
  | cons c rest ih =>
    obtain ⟨k, u⟩ := c
    by_cases h1 : a < k
    · simp only [Memory.put, if_pos h1, Memory.get?, eq_comm (a := a)]
    · by_cases h2 : a = k
      · subst h2
        by_cases hb : b = a
        · simp [Memory.put, Memory.get?, hb]
        · simp [Memory.put, Memory.get?, hb, Ne.symm hb]
      · simp only [Memory.put, if_neg h1, if_neg h2, Memory.get?, ih]
        by_cases hb : b = a
        · subst hb; simp [Ne.symm h2]
        · simp only [if_neg hb]

theorem Memory.mem_put {m : Memory} {a : Nat} {v : Byte} {c : Host.Cell} (h : c ∈ m.put a v) : c = (a, v) ∨ c ∈ m := by
  induction m with
  | nil => simpa [Memory.put] using h
  | cons d rest ih =>
    obtain ⟨k, u⟩ := d
    simp only [Memory.put] at h
    split at h
    · simpa using h
    · split at h
      · rcases List.mem_cons.1 h with h | h <;> simp [h]
      · rcases List.mem_cons.1 h with h | h
        · simp [h]
        · rcases ih h with h | h <;> simp [h]

/-- A byte write keeps the addresses strictly rising. -/
theorem Memory.wf_put {m : Memory} (h : m.wf) (a : Nat) (v : Byte) : (m.put a v).wf := by
  induction m with
  | nil => simp [Memory.put, Memory.wf]
  | cons d rest ih =>
    obtain ⟨k, u⟩ := d
    simp only [Memory.wf, List.pairwise_cons] at h
    simp only [Memory.put]
    split
    · next hk =>
      simp only [Memory.wf, List.pairwise_cons, List.mem_cons, forall_eq_or_imp]
      exact ⟨⟨hk, fun c hc => lt_trans hk (h.1 c hc)⟩, h.1, h.2⟩
    · split
      · next hk => subst hk; simpa only [Memory.wf, List.pairwise_cons] using h
      · simp only [Memory.wf, List.pairwise_cons]
        refine ⟨fun c hc => ?_, ih h.2⟩
        rcases Memory.mem_put hc with rfl | hc
        · show k < a; omega
        · exact h.1 c hc

/-! ## A run of bytes -/

theorem Memory.get?_putAll (l : List Byte) : ∀ (m : Memory) (a b : Nat),
    (m.putAll a l).get? b = if a ≤ b ∧ b < a + l.length then l[b - a]? else m.get? b := by
  induction l with
  | nil => intro m a b; simp only [Memory.putAll, List.length_nil]; rw [if_neg (by omega)]
  | cons v vs ih =>
    intro m a b
    simp only [Memory.putAll, ih, Memory.get?_put, List.length_cons]
    by_cases h1 : b = a
    · subst h1; simp
    · by_cases h2 : a + 1 ≤ b ∧ b < a + 1 + vs.length
      · rw [if_pos h2, if_pos (by omega)]
        obtain ⟨k, rfl⟩ : ∃ k, b = a + (k + 1) := ⟨b - a - 1, by omega⟩
        have e1 : a + (k + 1) - (a + 1) = k := by omega
        have e2 : a + (k + 1) - a = k + 1 := by omega
        rw [e1, e2, List.getElem?_cons_succ]
      · rw [if_neg h2, if_neg h1, if_neg (by omega)]

theorem Memory.wf_putAll (l : List Byte) : ∀ {m : Memory} (_ : m.wf) (a : Nat), (m.putAll a l).wf := by
  induction l with
  | nil => intro m h a; exact h
  | cons v vs ih => intro m h a; exact ih (Memory.wf_put h a v) (a + 1)

theorem Memory.mem_putAll (l : List Byte) : ∀ {m : Memory} {a : Nat} {c : Host.Cell}, c ∈ m.putAll a l →
    c ∈ m ∨ (a ≤ c.1 ∧ c.1 < a + l.length) := by
  induction l with
  | nil => intro m a c h; exact .inl h
  | cons v vs ih =>
    intro m a c h
    rw [List.length_cons]
    rcases ih h with h | h
    · rcases Memory.mem_put h with rfl | h
      · exact .inr (by simp)
      · exact .inl h
    · exact .inr (by omega)

/-! ## Through the state -/

theorem State.byteAt_congr {s t : State} (hm : s.mem = t.mem) (he : s.epoch = t.epoch) (a : Nat) :
    s.byteAt a = t.byteAt a := by
  simp [State.byteAt, hm, he]

theorem State.byteAt_memWrite (s : State) (a : Nat) (l : List Byte) (b : Nat) :
    (s.memWrite a l).byteAt b = if a ≤ b ∧ b < a + l.length then l.getD (b - a) 0 else s.byteAt b := by
  simp only [State.byteAt, State.memWrite_fields, Memory.get?_putAll]
  by_cases h : a ≤ b ∧ b < a + l.length
  · have hb : b - a < l.length := by omega
    simp [if_pos h, hb]
  · simp [if_neg h]

/-- A write leaves every byte outside its range alone. -/
theorem State.byteAt_memWrite_outside (s : State) {a b : Nat} (l : List Byte) (h : b < a ∨ a + l.length ≤ b) :
    (s.memWrite a l).byteAt b = s.byteAt b := by
  rw [State.byteAt_memWrite, if_neg (by omega)]

@[simp] theorem State.memRead_length (s : State) (a n : Nat) : (s.memRead a n).length = n := by simp [State.memRead]

theorem State.memRead_getElem (s : State) (a n k : Nat) (h : k < (s.memRead a n).length) :
    (s.memRead a n)[k] = s.byteAt (a + k) := by simp [State.memRead]

theorem State.memRead_congr {s t : State} {a n : Nat} (h : ∀ k < n, s.byteAt (a + k) = t.byteAt (a + k)) :
    s.memRead a n = t.memRead a n := by
  apply List.ext_getElem (by simp)
  intro k h1 h2
  simp only [State.memRead_getElem]
  exact h k (by simpa using h1)

/-- Reading back what was written. -/
theorem State.memRead_memWrite (s : State) (a : Nat) (l : List Byte) : (s.memWrite a l).memRead a l.length = l := by
  apply List.ext_getElem (by simp)
  intro k h1 h2
  rw [State.memRead_getElem, State.byteAt_memWrite, if_pos (by omega)]
  simp [h2]

/-- Reading a part of what was written. -/
theorem State.memRead_memWrite_part (s : State) (a : Nat) (l : List Byte) {i n : Nat} (h : i + n ≤ l.length) :
    (s.memWrite a l).memRead (a + i) n = (l.drop i).take n := by
  apply List.ext_getElem (by simp; omega)
  intro k h1 h2
  have hk : k < n := by simpa using h1
  rw [State.memRead_getElem, State.byteAt_memWrite, if_pos (by omega)]
  have e : a + i + k - a = i + k := by omega
  rw [e, List.getD_eq_getElem _ _ (by omega), List.getElem_take, List.getElem_drop]

end Sys2Proof.Machine
end

