-- ==== Sys2Proof/Laws/Exec.lean ====
section
/-! SUPPORT. What a completion, a register write, an event and a step can do. -/

namespace Sys2Proof.Machine

/-! ## Completions -/

theorem State.finish_ok (s : State) (r : Result) : s.finish (.ok r) = .next r.complete := rfl

theorem State.finish_error (s : State) (e : CoreErr) : s.finish (.error e) = .next (s.raise e) := rfl

/-- A completion is the success of the command, or the error it raised and nothing else. -/
theorem State.finish_cases {s t : State} {r : Except CoreErr Result} (h : s.finish r = .next t) :
    (∃ q, r = .ok q ∧ t = q.complete) ∨ ∃ e, r = .error e ∧ t = s.raise e := by
  cases r with
  | ok q => exact .inl ⟨q, rfl, by cases h; rfl⟩
  | error e => exact .inr ⟨e, rfl, by cases h; rfl⟩

theorem State.finish_next (s : State) (r : Except CoreErr Result) : ∃ t, s.finish r = .next t := by
  cases r with
  | ok q => exact ⟨_, rfl⟩
  | error e => exact ⟨_, rfl⟩

theorem State.raise_eq_failed (s : State) (e : CoreErr) : s.raise e = s.failed e.code := rfl

theorem CoreErr.code_range (e : CoreErr) : 1 ≤ e.code.toNat ∧ e.code.toNat ≤ 11 := by cases e <;> decide

theorem CoreErr.code_injective : Function.Injective CoreErr.code := by
  intro x y; cases x <;> cases y <;> decide

theorem noteBits_nil (m : Word) : noteBits m [] = m := rfl

theorem noteBits_singleton (m : Word) (v : Int) : noteBits m [v] = countWord (max m.toNat (bitlen v)) := rfl

/-- A completion that wrote one big register. -/
theorem Result.complete_setReg (s : State) (d : Reg) (v : Int) : (Result.mk (s.setReg d v) [v]).complete = s.wrote d v :=
  rfl

/-- A write to a big register either fits and is the whole effect, or raises CapacityExceeded. -/
theorem State.writeBig_cases {s : State} {d : Reg} {v : Int} {r : Except CoreErr Result} (h : s.writeBig d v = r) :
    (fits s.par v = true ∧ r = .ok ⟨s.setReg d v, [v]⟩) ∨ (fits s.par v = false ∧ r = .error .capacityExceeded) := by
  unfold State.writeBig at h
  split at h
  · next hf => exact .inl ⟨hf, h.symm⟩
  · next hf => exact .inr ⟨by simpa using hf, h.symm⟩

theorem State.finish_writeBig_of_fits {s : State} {d : Reg} {v : Int} (h : fits s.par v = true) :
    s.finish (s.writeBig d v) = .next (s.wrote d v) := by
  simp only [State.writeBig, h, if_true]; rfl

theorem State.finish_writeBig_of_not_fits {s : State} {d : Reg} {v : Int} (h : fits s.par v = false) :
    s.finish (s.writeBig d v) = .next (s.failed 8) := by
  simp only [State.writeBig, h, Bool.false_eq_true, if_false]; rfl

theorem State.wrote_reg (s : State) (d i : Reg) (v : Int) : (s.wrote d v).reg i = if i = d then v else s.reg i :=
  State.reg_setReg s d i v

theorem State.wrote_sameButReg (s : State) (d : Reg) (v : Int) : s.sameButReg d (s.wrote d v) := by
  unfold State.sameButReg
  rw [State.wrote_reg, if_pos rfl]; rfl

/-! ## Operands -/

/-- The range check of 00_scope.md R11 as a statement on the range. -/
theorem State.outOfRange_of_inRange {s : State} {a n : Nat} (h : s.inRange a n) : s.outOfRange a n = false := by
  unfold State.outOfRange State.inRange at *
  exact decide_eq_false (by omega)

theorem State.outOfRange_of_not_inRange {s : State} {a n : Nat} (h : ¬ s.inRange a n) : s.outOfRange a n = true := by
  unfold State.outOfRange State.inRange at *
  exact decide_eq_true (by omega)

theorem State.scalar0_eq (s : State) : s.scalar0 = s.larg0.toNat := rfl

theorem State.scalar1_eq (s : State) : s.scalar1 = s.larg1.toNat := rfl

theorem State.scalar2_eq (s : State) : s.scalar2 = s.larg2.toNat := rfl

/-- Parameters of 00_scope.md R8 hold any value of 50 words (44_codec.md R191). -/
theorem fits_of_wf {p : Params} (h : p.wf = true) {v : Int} {n : Nat} (hn : n ≤ 50) (hv : v.natAbs < 2 ^ (32 * n)) :
    fits p v = true := by
  rw [fits_iff]
  intro w hw
  simp only [Params.wf, hw, Bool.and_eq_true, decide_eq_true_eq] at h
  exact lt_of_lt_of_le hv (Nat.pow_le_pow_right (by norm_num) (by omega))

/-! ## Events and steps -/

theorem moveOnce_nil {s : State} (h : s.script = []) : moveOnce s = engineTurn s := by
  unfold moveOnce; rw [h]

theorem moveOnce_engine {s : State} {rest : List Event} (h : s.script = .engine :: rest) :
    moveOnce s = engineTurn { s with script := rest } := by
  unfold moveOnce; rw [h]

theorem moveOnce_event {s : State} {e : Event} {rest : List Event} (h : s.script = e :: rest) (he : e ≠ .engine) :
    moveOnce s = .next (State.event { s with script := rest } e) := by
  unfold moveOnce; rw [h]
  cases e <;> first | rfl | exact absurd rfl he

theorem engineTurn_exec {s : State} {i : Instr} (hb : s.status.busy = true) (h : decode s.lcmd = .ok i) :
    engineTurn s = exec i s := by
  unfold engineTurn; rw [if_pos hb, h]

theorem engineTurn_illegal {s : State} {e : Illegal} (hb : s.status.busy = true) (h : decode s.lcmd = .error e) :
    engineTurn s = .next (s.raise .illegalCommand) := by
  unfold engineTurn; rw [if_pos hb, h]

theorem engineTurn_idle {s : State} (hb : s.status.busy = false) : engineTurn s = .next s := by
  unfold engineTurn; rw [hb]; rfl

/-- Everything one step can do: the engine's turn (on the state less the event that gave it), or another event. -/
theorem step_cases {s : State} {o : Host.Outcome State Fault Refusal} (h : step s = o) :
    (∃ u, (u = s ∨ ∃ rest, u = { s with script := rest })
        ∧ ((u.status.busy = false ∧ o = .next u)
          ∨ (u.status.busy = true ∧ ∃ i, decode u.lcmd = .ok i ∧ o = exec i u)
          ∨ (u.status.busy = true ∧ o = .next (u.raise .illegalCommand))))
      ∨ ∃ e rest, e ≠ .engine ∧ s.script = e :: rest ∧ o = .next (State.event { s with script := rest } e) := by
  have turn : ∀ u : State, engineTurn u = o → (u.status.busy = false ∧ o = .next u)
      ∨ (u.status.busy = true ∧ ∃ i, decode u.lcmd = .ok i ∧ o = exec i u)
      ∨ (u.status.busy = true ∧ o = .next (u.raise .illegalCommand)) := by
    intro u hu
    cases hb : u.status.busy with
    | false => exact .inl ⟨rfl, by rw [← hu, engineTurn_idle hb]⟩
    | true =>
      cases hd : decode u.lcmd with
      | ok i => exact .inr (.inl ⟨rfl, i, rfl, by rw [← hu, engineTurn_exec hb hd]⟩)
      | error e => exact .inr (.inr ⟨rfl, by rw [← hu, engineTurn_illegal hb hd]⟩)
  unfold step at h
  cases hs : s.script with
  | nil =>
    rw [moveOnce_nil hs] at h
    exact .inl ⟨s, .inl rfl, turn s h⟩
  | cons e rest =>
    by_cases he : e = .engine
    · subst he
      rw [moveOnce_engine hs] at h
      exact .inl ⟨_, .inr ⟨rest, rfl⟩, turn _ h⟩
    · rw [moveOnce_event hs he] at h
      exact .inr ⟨e, rest, he, rfl, h.symm⟩

end Sys2Proof.Machine
end

