-- ==== Sys2Proof/Laws/Alu.lean ====
section
/-! SUPPORT. What the arithmetic of the ALU commands computes (40_alu.md R107 to R115). -/

namespace Sys2Proof.Machine

/-! ## Division family -/

theorem truncRem_eq_tmod (x y : Int) : truncRem x y = Int.tmod x y := by
  unfold truncRem; have := Int.tmod_add_mul_tdiv x y; omega

/-- The modulus of R108 is the Euclidean remainder. -/
theorem floorMod_eq_emod (x : Int) {y : Int} (hy : 0 < y) : floorMod x y = x % y := by
  have hlt : (Int.tmod x y).natAbs < y.natAbs := by
    rw [Int.natAbs_tmod]; exact Nat.mod_lt _ (by omega)
  have hle : -y < Int.tmod x y ∧ Int.tmod x y < y := by omega
  have he := Int.tmod_add_mul_tdiv x y
  simp only [floorMod, truncRem_eq_tmod]
  split
  · next h =>
    refine (Int.emod_eq_of_lt (a := Int.tmod x y + y) (b := y) (by omega) (by omega)).symm.trans ?_
    conv_rhs => rw [← he]
    rw [Int.add_mul_emod_self_left, Int.add_emod_right]
  · next h =>
    refine (Int.emod_eq_of_lt (a := Int.tmod x y) (b := y) (by omega) (by omega)).symm.trans ?_
    conv_rhs => rw [← he]
    rw [Int.add_mul_emod_self_left]

theorem floorMod_range (x : Int) {y : Int} (hy : 0 < y) : 0 ≤ floorMod x y ∧ floorMod x y < y := by
  rw [floorMod_eq_emod x hy]; exact ⟨Int.emod_nonneg x hy.ne', Int.emod_lt_of_pos x hy⟩

theorem bigGcd_eq (x y : Int) : bigGcd x y = Int.gcd x y := rfl

/-- Euclid's turn of R109: `gcd(x, 0) = |x|`, and otherwise the pair moves to `(y, x mod y)`. -/
theorem bigGcd_zero (x : Int) : bigGcd x 0 = x.natAbs := by simp [bigGcd]

theorem bigGcd_turn (x y : Nat) : bigGcd x y = bigGcd y (x % y : Nat) := by
  simp only [bigGcd, Int.natAbs_natCast]
  rw [Nat.gcd_comm x y, Nat.gcd_rec y x, Nat.gcd_comm]

theorem bigGcd_le_left {x : Int} (hx : x ≠ 0) (y : Int) : bigGcd x y ≤ x.natAbs :=
  Nat.gcd_le_left _ (by omega)

theorem bigGcd_le_right (x : Int) {y : Int} (hy : y ≠ 0) : bigGcd x y ≤ y.natAbs :=
  Nat.gcd_le_right _ (by omega)

theorem fits_bigGcd {p : Params} {x y : Int} (hx : fits p x = true) (hy : fits p y = true) :
    fits p (bigGcd x y) = true := by
  by_cases h : x = 0
  · subst h
    exact fits_mono hy (by unfold bigGcd; rw [Int.natAbs_natCast, Int.natAbs_zero, Nat.gcd_zero_left])
  · exact fits_mono hx (by rw [Int.natAbs_natCast]; exact bigGcd_le_left h y)

theorem fits_truncRem {p : Params} {x : Int} (y : Int) (hx : fits p x = true) : fits p (truncRem x y) = true := by
  refine fits_mono hx ?_
  rw [truncRem_eq_tmod, Int.natAbs_tmod]
  exact Nat.mod_le _ _

/-! ## Modular inverse -/

/-- The loop of R110 keeps its Bézout relation and ends at the greatest common divisor. -/
theorem inverseLoop_spec (a m : Int) : ∀ (fuel : Nat) (r0 r1 t0 t1 : Int), 0 ≤ r1 → 0 < r0 → r1.toNat < fuel →
    m ∣ r0 - t0 * a → m ∣ r1 - t1 * a →
    (inverseLoop fuel r0 r1 t0 t1).1 = Int.gcd r0 r1 ∧
      m ∣ (inverseLoop fuel r0 r1 t0 t1).1 - (inverseLoop fuel r0 r1 t0 t1).2 * a := by
  intro fuel
  induction fuel with
  | zero => intro r0 r1 t0 t1 _ _ h; omega
  | succ fuel ih =>
    intro r0 r1 t0 t1 h1 h0 hf d0 d1
    simp only [inverseLoop]
    split
    · next hz => subst hz; exact ⟨by simp [Int.natAbs_of_nonneg h0.le], d0⟩
    · next hz =>
      have hpos : 0 < r1 := by omega
      have hq : Int.tdiv r0 r1 = r0 / r1 := Int.tdiv_eq_ediv_of_nonneg h0.le
      have hrem : r0 - Int.tdiv r0 r1 * r1 = r0 % r1 := by
        rw [hq, Int.emod_def, mul_comm]
      have hr0 := Int.emod_nonneg r0 hz
      have hr1 := Int.emod_lt_of_pos r0 hpos
      rw [hrem]
      have := ih r1 (r0 % r1) t1 (t0 - Int.tdiv r0 r1 * t1) hr0 hpos (by omega) d1 (by
        have e : r0 % r1 - (t0 - Int.tdiv r0 r1 * t1) * a
            = (r0 - t0 * a) - Int.tdiv r0 r1 * (r1 - t1 * a) := by rw [← hrem]; ring
        rw [e]; exact dvd_sub d0 (dvd_mul_of_dvd_right d1 _))
      have hg : Int.gcd r1 (r0 % r1) = Int.gcd r0 r1 := by
        rw [Int.gcd_comm r1, Int.gcd_emod]
      rw [hg] at this
      exact this

theorem modInverse_of_nonpos (a : Int) {m : Int} (hm : m ≤ 0) : modInverse a m = .error .invalidArgument := by
  unfold modInverse; rw [if_pos hm]

/-- MINV of R110: the inverse in `[0, m)`, or NotInvertible. -/
theorem modInverse_spec (a : Int) {m : Int} (hm : 0 < m) :
    (Int.gcd a m = 1 → ∃ v, modInverse a m = .ok v ∧ 0 ≤ v ∧ v < m ∧ m ∣ a * v - 1)
      ∧ (Int.gcd a m ≠ 1 → modInverse a m = .error .notInvertible) := by
  have hr := floorMod_range a hm
  have hd : m ∣ floorMod a m - 1 * a := by
    rw [floorMod_eq_emod a hm, one_mul]
    exact ⟨-(a / m), by rw [Int.emod_def]; ring⟩
  have hs := inverseLoop_spec a m (m.natAbs + 1) m (floorMod a m) 0 1 hr.1 hm (by omega)
    (by simp) hd
  have hg : Int.gcd m (floorMod a m) = Int.gcd a m := by
    rw [floorMod_eq_emod a hm, Int.gcd_comm, Int.gcd_emod]
  rw [hg] at hs
  unfold modInverse
  rw [if_neg (by omega)]
  constructor
  · intro h1
    refine ⟨floorMod (inverseLoop (m.natAbs + 1) m (floorMod a m) 0 1).2 m, ?_, ?_⟩
    · simp [hs.1, h1]
    · have hr2 := floorMod_range (inverseLoop (m.natAbs + 1) m (floorMod a m) 0 1).2 hm
      refine ⟨hr2.1, hr2.2, ?_⟩
      rw [floorMod_eq_emod _ hm]
      obtain ⟨k, hk⟩ := hs.2
      rw [hs.1, h1] at hk
      set t := (inverseLoop (m.natAbs + 1) m (floorMod a m) 0 1).2
      refine ⟨-k - a * (t / m), ?_⟩
      rw [Int.emod_def]
      push_cast at hk
      linear_combination -hk
  · intro h1
    have : (inverseLoop (m.natAbs + 1) m (floorMod a m) 0 1).1 ≠ 1 := by
      rw [hs.1]; exact_mod_cast h1
    simp [this]

/-! ## Powers -/

theorem powerBySquaring_eq : ∀ (fuel x e : Nat), e ≤ fuel → powerBySquaring fuel x e = x ^ e := by
  intro fuel
  induction fuel with
  | zero => intro x e h; obtain rfl : e = 0 := by omega
            simp [powerBySquaring]
  | succ fuel ih =>
    intro x e h
    simp only [powerBySquaring]
    split
    · next h0 => simp [h0]
    · next h0 =>
      rw [ih x (e / 2) (by omega), ← pow_add]
      split
      · next h1 => rw [← pow_succ]; congr 1; omega
      · next h1 => congr 1; omega

/-- The early test of POW refuses only what the exact test would (40_alu.md R111). -/
theorem powTooWide_not_fits {p : Params} {x e : Nat} (h : powTooWide p x e = true) : fits p ((x ^ e : Nat) : Int) = false := by
  unfold powTooWide at h
  split at h
  · exact absurd h (by simp)
  · next w hw =>
    simp only [Bool.and_eq_true, decide_eq_true_eq] at h
    by_contra hc
    have := (fits_iff p _).1 (Bool.eq_true_of_not_eq_false hc) w hw
    rw [Int.natAbs_natCast] at this
    have hx : 2 ^ (bitlen (x : Int) - 1) ≤ x := by
      have hb : bitlen (x : Int) - 1 < bitlen (x : Int) := by
        have : ¬ bitlen (x : Int) ≤ 0 := by
          rw [bitlen_le_iff]; simp; omega
        omega
      simpa using two_pow_le_of_lt_bitlen hb
    have h2 : 2 ^ (e * (bitlen (x : Int) - 1)) ≤ x ^ e := by
      rw [mul_comm, pow_mul]; exact Nat.pow_le_pow_left hx e
    have h3 : 32 * w ≤ e * (bitlen (x : Int) - 1) := by omega
    have h4 : 2 ^ (32 * w) ≤ x ^ e := le_trans (Nat.pow_le_pow_right (by norm_num) h3) h2
    omega

theorem modPowLoop_eq : ∀ (fuel r s e m : Nat), e ≤ fuel → 0 < m → r < m →
    modPowLoop fuel r s e m = r * s ^ e % m := by
  intro fuel
  induction fuel with
  | zero => intro r s e m h hm hr; obtain rfl : e = 0 := by omega
            simp [modPowLoop, Nat.mod_eq_of_lt hr]
  | succ fuel ih =>
    intro r s e m h hm hr
    simp only [modPowLoop]
    split
    · next h0 => subst h0; simp [Nat.mod_eq_of_lt hr]
    · next h0 =>
      have hr' : (if e % 2 = 1 then r * s % m else r) < m := by
        split
        · exact Nat.mod_lt _ hm
        · exact hr
      rw [ih _ _ _ _ (by omega) hm hr']
      have hsq : ∀ k, (s * s % m) ^ k ≡ s ^ (2 * k) [MOD m] := fun k => by
        rw [pow_mul, sq]; exact (Nat.mod_modEq _ _).pow k
      split
      · next h1 =>
        have he : 2 * (e / 2) + 1 = e := by omega
        have : (r * s % m) * (s * s % m) ^ (e / 2) ≡ r * s * s ^ (2 * (e / 2)) [MOD m] :=
          (Nat.mod_modEq _ _).mul (hsq _)
        refine this.trans ?_
        rw [mul_assoc, ← pow_succ', he]
      · next h1 =>
        have he : 2 * (e / 2) = e := by omega
        have := Nat.ModEq.mul_left r (hsq (e / 2))
        rw [he] at this
        exact this

/-- MPOW is the power reduced modulo the modulus (40_alu.md R112). -/
theorem modPow_eq (x : Int) {e m : Int} (he : 0 ≤ e) (hm : 0 < m) : (modPow x e m : Int) = x ^ e.toNat % m := by
  have hr := floorMod_range x hm
  have hmn : 0 < m.natAbs := by omega
  have hmz : ((m.natAbs : Nat) : Int) = m := Int.natAbs_of_nonneg hm.le
  have hxz : (((floorMod x m).natAbs : Nat) : Int) = floorMod x m := Int.natAbs_of_nonneg hr.1
  unfold modPow
  rw [modPowLoop_eq _ _ _ _ _ le_rfl hmn (Nat.mod_lt _ hmn)]
  have h1 : 1 % m.natAbs * (floorMod x m).natAbs ^ e.natAbs % m.natAbs
      = (floorMod x m).natAbs ^ e.natAbs % m.natAbs := by
    rw [Nat.mul_mod, Nat.mod_mod, ← Nat.mul_mod, one_mul]
  rw [h1]
  push_cast
  rw [Int.natCast_natAbs] at hmz hxz
  rw [hmz, hxz, floorMod_eq_emod x hm, show e.natAbs = e.toNat by omega]
  exact (Int.ModEq.pow e.toNat (Int.mod_modEq x m))

theorem modPow_lt (x e : Int) {m : Int} (hm : 0 < m) : modPow x e m < m.natAbs := by
  have hmn : 0 < m.natAbs := by omega
  unfold modPow
  rw [modPowLoop_eq _ _ _ _ _ le_rfl hmn (Nat.mod_lt _ hmn)]
  exact Nat.mod_lt _ hmn

/-! ## Shifts -/

theorem shiftUp_eq (x : Int) (n : Nat) : shiftUp x n = x * 2 ^ n := by
  unfold shiftUp
  split
  · next h => simp [h]
  · push_cast
    rw [← mul_assoc, Int.sign_mul_abs]

theorem shiftDown_eq (x : Int) (n : Nat) : shiftDown x n = Int.tdiv x (2 ^ n) := by
  unfold shiftDown
  rw [Nat.shiftRight_eq_div_pow]
  rcases lt_trichotomy x 0 with h | h | h
  · rw [Int.sign_eq_neg_one_of_neg h]
    obtain ⟨k, rfl⟩ : ∃ k : Nat, x = -k := ⟨x.natAbs, by omega⟩
    rw [Int.neg_tdiv, Int.natAbs_neg, Int.natAbs_natCast]
    rw [show (2 : Int) ^ n = ((2 ^ n : Nat) : Int) by push_cast; rfl, ← Int.ofNat_tdiv]; ring
  · subst h; simp
  · rw [Int.sign_eq_one_of_pos h, one_mul]
    obtain ⟨k, rfl⟩ : ∃ k : Nat, x = k := ⟨x.natAbs, by omega⟩
    rw [Int.natAbs_natCast]
    rw [show (2 : Int) ^ n = ((2 ^ n : Nat) : Int) by push_cast; rfl, ← Int.ofNat_tdiv]

theorem natAbs_shiftDown_le (x : Int) (n : Nat) : (shiftDown x n).natAbs ≤ x.natAbs := by
  rw [shiftDown_eq]; exact Int.natAbs_tdiv_le_natAbs x _

/-- The capacity test of SHL is exact (40_alu.md R114). -/
theorem shiftTooWide_iff (p : Params) (x : Int) (n : Nat) : shiftTooWide p x n = true ↔ fits p (x * 2 ^ n) = false := by
  have habs : (x * 2 ^ n).natAbs = x.natAbs * 2 ^ n := by rw [Int.natAbs_mul, Int.natAbs_pow]; rfl
  unfold shiftTooWide fits
  cases h : p.maxW with
  | none => simp
  | some w =>
    simp only [Bool.and_eq_true, decide_eq_true_eq, decide_eq_false_iff_not, not_le]
    by_cases hx : x = 0
    · subst hx; simp [bitlen_zero]
    · have hlen : bitlen (x * 2 ^ n) = bitlen x + n := by
        have hpos : 0 < bitlen x := by
          by_contra hc
          have := (bitlen_le_iff x 0).1 (by omega)
          simp at this; exact hx this
        apply le_antisymm
        · rw [bitlen_le_iff, habs, pow_add]
          exact Nat.mul_lt_mul_of_pos_right (lt_two_pow_bitlen x) (by positivity)
        · by_contra hc
          have h1 := (bitlen_le_iff (x * 2 ^ n) (bitlen x + n - 1)).1 (by omega)
          have h2 : 2 ^ (bitlen x - 1) ≤ x.natAbs := two_pow_le_of_lt_bitlen (by omega)
          rw [habs, show bitlen x + n - 1 = (bitlen x - 1) + n by omega, pow_add] at h1
          have := Nat.mul_le_mul_right (2 ^ n) h2
          omega
      rw [hlen]; simp [hx]

end Sys2Proof.Machine
end

