-- ==== Sys2Proof/Laws/Bytes.lean ====
section
/-! SUPPORT. Numbers in DMEM: what the byte sequences the engine reads and writes stand for (00_scope.md R12, R13). -/

namespace Sys2Proof.Machine

theorem toBE_getElem (n : Nat) : ∀ (v k : Nat) (h : k < (toBE v n).length),
    ((toBE v n)[k]).toNat = v / 256 ^ (n - 1 - k) % 256 := by
  induction n with
  | zero => intro v k h; simp at h
  | succ n ih =>
    intro v k h
    have hk : k < n + 1 := by simpa using h
    have hl : (toBE (v / 256) n).length = n := toBE_length n _
    simp only [toBE_succ]
    by_cases hkn : k < n
    · rw [List.getElem_append_left (by omega), ih (v / 256) k (by omega), Nat.div_div_eq_div_mul, ← pow_succ']
      congr 3; omega
    · obtain rfl : k = n := by omega
      rw [List.getElem_append_right (by omega)]
      simp

/-- A range read as one number is the number the spec's `MemRead` and `fromBE` give. -/
theorem State.numberAt_eq (s : State) (a n : Nat) : s.numberAt a n = fromBE (s.memRead a n) := by
  rw [fromBE_eq_sum, State.numberAt, Finset.sum_range]
  refine Fintype.sum_equiv (finCongr (State.memRead_length s a n).symm) _ _ fun k => ?_
  simp [State.memRead]; rfl

theorem State.numberAt_lt (s : State) (a n : Nat) : s.numberAt a n < 256 ^ n := by
  rw [State.numberAt_eq]
  simpa using fromBE_lt (s.memRead a n)

/-- What a write of a number in `n` bytes leaves there. -/
theorem State.holdsNumber_memWrite (s : State) (a n v : Nat) : (s.memWrite a (toBE v n)).holdsNumber a n v := by
  intro k hk
  rw [State.byteAt_memWrite, if_pos (by simp; omega), Nat.add_sub_cancel_left, List.getD_eq_getElem _ _ (by simpa using hk),
    toBE_getElem]

theorem State.holdsNumber_congr {s t : State} {a n v : Nat} (hm : s.mem = t.mem) (he : s.epoch = t.epoch)
    (h : s.holdsNumber a n v) : t.holdsNumber a n v := fun k hk => by
  rw [← State.byteAt_congr hm he]; exact h k hk

theorem State.memRead_congr_mem {s t : State} (hm : s.mem = t.mem) (he : s.epoch = t.epoch) (a n : Nat) :
    s.memRead a n = t.memRead a n := State.memRead_congr fun _ _ => State.byteAt_congr hm he _

/-- The entries of a list in DMEM (43_crt.md R161, R163). -/
theorem State.readEntries_eq (s : State) (a ew n : Nat) :
    s.readEntries a ew n = (List.range n).map (fun k => s.numberAt (a + k * ew) ew) := by
  simp only [State.readEntries, State.numberAt_eq]

/-- Dropping leading zeros keeps the value and leaves no leading zero. -/
theorem fromBE_dropWhile (l : List Byte) : fromBE (l.dropWhile (· == 0)) = fromBE l := by
  induction l with
  | nil => rfl
  | cons b l ih =>
    by_cases hb : b = 0
    · subst hb
      rw [List.dropWhile_cons_of_pos (by simp), ih, fromBE_cons]; simp
    · rw [List.dropWhile_cons_of_neg (by simpa using hb)]

theorem minlen_fromBE_of_head {b : Byte} {l : List Byte} (hb : b ≠ 0) : minlen (fromBE (b :: l) : Nat) = l.length + 1 := by
  apply le_antisymm
  · rw [minlen_le_iff, Int.natAbs_natCast]
    simpa using fromBE_lt (b :: l)
  · by_contra hc
    have h := (minlen_le_iff (fromBE (b :: l) : Nat) l.length).1 (by omega)
    rw [Int.natAbs_natCast, fromBE_cons] at h
    have hb1 : 1 ≤ b.toNat := by
      rcases Nat.eq_zero_or_pos b.toNat with h0 | h0
      · exact absurd (BitVec.eq_of_toNat_eq (by simpa using h0)) hb
      · exact h0
    have := Nat.mul_le_mul_right (256 ^ l.length) hb1
    omega

/-- The minimal form of an imported number is the imported bytes without their leading zero bytes (41_bytes.md R143). -/
theorem toBE_minlen_fromBE (l : List Byte) : toBE (fromBE l) (minlen (fromBE l : Nat)) = l.dropWhile (· == 0) := by
  rw [← fromBE_dropWhile l]
  cases h : l.dropWhile (· == 0) with
  | nil => rfl
  | cons b r =>
    have hb : b ≠ 0 := by
      have := List.head_dropWhile_not (fun x : Byte => x == 0) (l := l) (by rw [h]; simp)
      simp only [h, List.head_cons] at this
      simpa using this
    rw [minlen_fromBE_of_head hb]
    exact toBE_fromBE (b :: r)

theorem minlen_fromBE_le (l : List Byte) : minlen (fromBE l : Nat) ≤ l.length := by
  rw [minlen_le_iff, Int.natAbs_natCast]; exact fromBE_lt l

/-- The first byte of a minimal form is not 0 (41_bytes.md R141). -/
theorem toBE_minlen_head {v : Nat} (h : 0 < v) : (toBE v (minlen (v : Int))).getD 0 0 ≠ 0 := by
  have hpos : 0 < minlen (v : Int) := by
    by_contra hc
    have := (minlen_le_iff (v : Int) 0).1 (by omega)
    rw [Int.natAbs_natCast] at this; omega
  have hlow : 256 ^ (minlen (v : Int) - 1) ≤ v := by
    by_contra hc
    have := (minlen_le_iff (v : Int) (minlen (v : Int) - 1)).2 (by rw [Int.natAbs_natCast]; omega)
    omega
  have hhigh : v < 256 ^ minlen (v : Int) := by simpa using lt_pow_minlen (v : Int)
  rw [List.getD_eq_getElem _ _ (by simpa using hpos)]
  intro h0
  have := toBE_getElem (minlen (v : Int)) v 0 (by simpa using hpos)
  rw [h0, Nat.sub_zero] at this
  have hd : v / 256 ^ (minlen (v : Int) - 1) < 256 := by
    rw [Nat.div_lt_iff_lt_mul (by positivity), ← pow_succ']
    rwa [Nat.sub_add_cancel hpos]
  have hd1 : 1 ≤ v / 256 ^ (minlen (v : Int) - 1) := (Nat.le_div_iff_mul_le (by positivity)).2 (by omega)
  rw [Nat.mod_eq_of_lt hd] at this
  simp at this; omega

end Sys2Proof.Machine
end

