-- ==== Sys2Proof/Laws/Coprime.lean ====
section
/-! SUPPORT. What looking a modulus up does to the cache (42_coprime.md R150, R151). -/

namespace Sys2Proof.Machine

theorem coprimeToAll_iff (c : Nat) (cp : List Nat) : coprimeToAll c cp = true ↔ ∀ m ∈ cp, Nat.Coprime c m := by
  simp [coprimeToAll, Nat.Coprime]

/-- The cache's entries with every number from `c` up to the seed tried: what `extend` keeps at every turn. -/
def TriedDownTo (c : Nat) (cp : List Nat) : Prop :=
  cp.head? = some 65535
    ∧ cp.Pairwise (fun x y => y < x ∧ Nat.Coprime x y)
    ∧ (∀ m ∈ cp, 1 ≤ m ∧ c ≤ m)
    ∧ ∀ x ≤ 65535, c ≤ x → x ∈ cp ∨ ∃ m ∈ cp, x < m ∧ ¬ Nat.Coprime x m

theorem TriedDownTo.cacheSound {c : Nat} {cp : List Nat} (h : TriedDownTo c cp) : CacheSound cp :=
  ⟨h.1, h.2.1, fun m hm => (h.2.2.1 m hm).1, fun x hx ⟨m, hm, hmx⟩ => h.2.2.2 x hx (le_trans (h.2.2.1 m hm).2 hmx)⟩

theorem CacheSound.triedDownTo {cp : List Nat} (h : CacheSound cp) : TriedDownTo (cp.getLastD 0) cp := by
  obtain ⟨hh, hp, hm, hg⟩ := h
  have hne : cp ≠ [] := by rintro rfl; simp at hh
  have hl : cp.getLastD 0 = cp.getLast hne := by rw [List.getLastD_eq_getLast?, List.getLast?_eq_some_getLast hne]; rfl
  have hmem : cp.getLastD 0 ∈ cp := hl ▸ List.getLast_mem hne
  refine ⟨hh, hp, fun m hm' => ⟨hm m hm', ?_⟩, fun x hx hcx => hg x hx ⟨_, hmem, hcx⟩⟩
  rw [hl]
  by_cases he : m = cp.getLast hne
  · exact he ▸ le_rfl
  · have hdrop : m ∈ cp.dropLast := by
      have := List.dropLast_append_getLast hne
      rw [← this] at hm'
      rcases List.mem_append.1 hm' with h | h
      · exact h
      · exact absurd (List.mem_singleton.1 h) he
    have hpw : (cp.dropLast ++ [cp.getLast hne]).Pairwise (fun x y => y < x ∧ Nat.Coprime x y) := by
      rw [List.dropLast_append_getLast]; exact hp
    exact ((List.pairwise_append.1 hpw).2.2 m hdrop _ (by simp)).1.le

theorem TriedDownTo.skip {c : Nat} {cp : List Nat} (h : TriedDownTo (c + 1) cp) (hc : coprimeToAll c cp = false) :
    TriedDownTo c cp := by
  refine ⟨h.1, h.2.1, fun m hm => ⟨(h.2.2.1 m hm).1, by have := (h.2.2.1 m hm).2; omega⟩, fun x hx hcx => ?_⟩
  by_cases he : x = c
  · subst he
    have : ¬ ∀ m ∈ cp, Nat.Coprime x m := by rw [← coprimeToAll_iff]; simp [hc]
    push Not at this
    obtain ⟨m, hm, hn⟩ := this
    exact .inr ⟨m, hm, by have := (h.2.2.1 m hm).2; omega, hn⟩
  · exact h.2.2.2 x hx (by omega)

theorem TriedDownTo.take {c : Nat} {cp : List Nat} (h : TriedDownTo (c + 1) cp) (hc : coprimeToAll c cp = true)
    (hpos : c ≠ 0) : TriedDownTo c (cp ++ [c]) := by
  have hco := (coprimeToAll_iff c cp).1 hc
  refine ⟨?_, ?_, ?_, ?_⟩
  · rw [List.head?_append, h.1]; rfl
  · rw [List.pairwise_append]
    refine ⟨h.2.1, by simp, fun x hx y hy => ?_⟩
    rw [List.mem_singleton] at hy; subst hy
    exact ⟨by have := (h.2.2.1 x hx).2; omega, (hco x hx).symm⟩
  · intro m hm
    rcases List.mem_append.1 hm with hm | hm
    · exact ⟨(h.2.2.1 m hm).1, by have := (h.2.2.1 m hm).2; omega⟩
    · rw [List.mem_singleton] at hm; omega
  · intro x hx hcx
    by_cases he : x = c
    · left; simp [he]
    · rcases h.2.2.2 x hx (by omega) with h1 | ⟨m, hm, h2⟩
      · left; simp [h1]
      · right; exact ⟨m, by simp [hm], h2⟩

/-- Everything `extend` can do: the cache grows at its end, stays within CPMAX, grows no further than asked, and holds
the index asked for unless an error of R151 was raised. -/
theorem extendFrom_spec (cpMax i : Nat) : ∀ (c : Nat) (cp : List Nat) (r : List Nat × Option CoreErr),
    extendFrom cpMax i c cp = r →
    cp <+: r.1 ∧ (cp.length ≤ cpMax → r.1.length ≤ cpMax) ∧ r.1.length ≤ max cp.length (i + 1)
      ∧ (r.2 = none ∧ i < r.1.length ∨ (r.2 = some .exhausted ∨ r.2 = some .capacityExceeded) ∧ r.1.length ≤ i)
      ∧ (TriedDownTo c cp → CacheSound r.1) := by
  intro c
  induction c with
  | zero =>
    intro cp r h
    simp only [extendFrom] at h
    split at h <;> subst h
    · next hi => exact ⟨List.prefix_rfl, id, by simp, .inl ⟨rfl, hi⟩, fun ht => ht.cacheSound⟩
    · next hi => exact ⟨List.prefix_rfl, id, by simp, .inr ⟨.inl rfl, by simpa using hi⟩, fun ht => ht.cacheSound⟩
  | succ c ih =>
    intro cp r h
    simp only [extendFrom] at h
    split at h
    · next hi => subst h; exact ⟨List.prefix_rfl, id, by simp, .inl ⟨rfl, hi⟩, fun ht => ht.cacheSound⟩
    · next hi =>
      split at h
      · subst h
        exact ⟨List.prefix_rfl, id, by simp, .inr ⟨.inl rfl, by simpa using hi⟩, fun ht => ht.cacheSound⟩
      · next hc0 =>
        split at h
        · next hco =>
          split at h
          · subst h
            exact ⟨List.prefix_rfl, id, by simp, .inr ⟨.inr rfl, by simpa using hi⟩, fun ht => ht.cacheSound⟩
          · next hmax =>
            obtain ⟨h1, h2, h3, h4, h5⟩ := ih _ r h
            have hlen : (cp ++ [c]).length = cp.length + 1 := by simp
            rw [hlen] at h2 h3
            exact ⟨(List.prefix_append cp [c]).trans h1, fun hl => h2 (by omega), by omega, h4,
              fun ht => h5 (ht.take hco hc0)⟩
        · next hco =>
          obtain ⟨h1, h2, h3, h4, h5⟩ := ih _ r h
          exact ⟨h1, h2, h3, h4, fun ht => h5 (ht.skip (by simpa using hco))⟩

/-- Everything a lookup can do (42_coprime.md R150). -/
theorem coprimeAt_spec {cpMax i : Nat} {cp cp' : List Nat} {r : Except CoreErr Nat}
    (h : coprimeAt cpMax cp i = (cp', r)) :
    cp <+: cp' ∧ (cp.length ≤ cpMax → cp'.length ≤ cpMax) ∧ cp'.length ≤ max cp.length (i + 1)
      ∧ (CacheSound cp → CacheSound cp')
      ∧ ((i < cp'.length ∧ r = .ok (cp'.getD i 0))
        ∨ (cp'.length ≤ i ∧ (r = .error .exhausted ∨ r = .error .capacityExceeded))) := by
  unfold coprimeAt at h
  obtain ⟨h1, h2, h3, h4, h5⟩ := extendFrom_spec cpMax i (cp.getLastD 0) cp _ rfl
  split at h
  · next cp'' he =>
    rw [he] at h1 h2 h3 h4 h5
    obtain ⟨rfl, rfl⟩ := Prod.mk.inj h
    refine ⟨h1, h2, h3, fun hs => h5 hs.triedDownTo, .inl ⟨?_, rfl⟩⟩
    rcases h4 with ⟨_, hi⟩ | ⟨he', _⟩
    · exact hi
    · simp at he'
  · next cp'' e he =>
    rw [he] at h1 h2 h3 h4 h5
    obtain ⟨rfl, rfl⟩ := Prod.mk.inj h
    refine ⟨h1, h2, h3, fun hs => h5 hs.triedDownTo, .inr ?_⟩
    rcases h4 with ⟨he', _⟩ | ⟨he', hi⟩
    · simp at he'
    · exact ⟨hi, by simpa using he'⟩

/-- A lookup of a cached index changes nothing. -/
theorem coprimeAt_cached (cpMax : Nat) {cp : List Nat} {i : Nat} (h : i < cp.length) :
    coprimeAt cpMax cp i = (cp, .ok (cp.getD i 0)) := by
  have : extendFrom cpMax i (cp.getLastD 0) cp = (cp, none) := by
    cases cp.getLastD 0 <;> simp [extendFrom, h]
  unfold coprimeAt; rw [this]

/-- Everything a run of lookups can do. -/
theorem coprimesAt_spec (cpMax : Nat) : ∀ (is cp cp' : List Nat) (r : Except CoreErr (List Nat)),
    coprimesAt cpMax cp is = (cp', r) →
    cp <+: cp' ∧ (cp.length ≤ cpMax → cp'.length ≤ cpMax) ∧ (CacheSound cp → CacheSound cp')
      ∧ (((∀ i ∈ is, i < cp'.length) ∧ r = .ok (is.map fun i => cp'.getD i 0))
        ∨ ∃ i ∈ is, cp'.length ≤ i ∧ (r = .error .exhausted ∨ r = .error .capacityExceeded)) := by
  intro is
  induction is with
  | nil =>
    intro cp cp' r h
    obtain ⟨rfl, rfl⟩ := Prod.mk.inj h
    exact ⟨List.prefix_rfl, id, id, .inl ⟨by simp, rfl⟩⟩
  | cons i is ih =>
    intro cp cp' r h
    simp only [coprimesAt] at h
    split at h
    · next cp1 e he =>
      obtain ⟨rfl, rfl⟩ := Prod.mk.inj h
      obtain ⟨h1, h2, _, h4, h5⟩ := coprimeAt_spec he
      refine ⟨h1, h2, h4, .inr ⟨i, by simp, ?_⟩⟩
      rcases h5 with ⟨_, h5⟩ | ⟨h5, h6⟩
      · simp at h5
      · exact ⟨h5, by rcases h6 with h | h <;> simp_all⟩
    · next cp1 m he =>
      obtain ⟨h1, h2, _, h4, h5⟩ := coprimeAt_spec he
      have hm : i < cp1.length ∧ m = cp1.getD i 0 := by
        rcases h5 with ⟨h5, h6⟩ | ⟨_, h6⟩
        · exact ⟨h5, by simpa using h6⟩
        · rcases h6 with h6 | h6 <;> simp at h6
      split at h
      · next cp2 e he2 =>
        obtain ⟨rfl, rfl⟩ := Prod.mk.inj h
        obtain ⟨g1, g2, g4, g5⟩ := ih _ _ _ he2
        refine ⟨h1.trans g1, fun hl => g2 (h2 hl), fun hs => g4 (h4 hs), .inr ?_⟩
        rcases g5 with ⟨_, g5⟩ | ⟨j, hj, g5⟩
        · simp at g5
        · exact ⟨j, by simp [hj], by simpa using g5⟩
      · next cp2 ms he2 =>
        obtain ⟨rfl, rfl⟩ := Prod.mk.inj h
        obtain ⟨g1, g2, g4, g5⟩ := ih _ _ _ he2
        refine ⟨h1.trans g1, fun hl => g2 (h2 hl), fun hs => g4 (h4 hs), .inl ?_⟩
        rcases g5 with ⟨g5, g6⟩ | ⟨j, hj, g5, g6⟩
        · have hi2 : i < cp2.length := lt_of_lt_of_le hm.1 g1.length_le
          have heq : cp1.getD i 0 = cp2.getD i 0 := by
            rw [List.getD_eq_getElem _ _ hm.1, List.getD_eq_getElem _ _ hi2]
            exact g1.getElem hm.1
          refine ⟨fun j hj => ?_, ?_⟩
          · rcases List.mem_cons.1 hj with rfl | hj
            · exact hi2
            · exact g5 j hj
          · rw [hm.2, heq]; simp at g6; simp [g6]
        · rcases g6 with g6 | g6 <;> simp at g6

/-- Lookups of cached indices change nothing. -/
theorem coprimesAt_cached (cpMax : Nat) {cp : List Nat} : ∀ {is : List Nat}, (∀ i ∈ is, i < cp.length) →
    coprimesAt cpMax cp is = (cp, .ok (is.map fun i => cp.getD i 0)) := by
  intro is
  induction is with
  | nil => intro _; rfl
  | cons i is ih =>
    intro h
    simp only [coprimesAt, coprimeAt_cached cpMax (h i (by simp)), ih (fun j hj => h j (by simp [hj])), List.map_cons]

theorem cacheSound_seed : CacheSound [65535] := by
  refine ⟨rfl, by simp, by simp, fun c hc h => ?_⟩
  left
  obtain ⟨m, hm, hmc⟩ := h
  rw [List.mem_singleton] at hm ⊢
  omega

/-- Entries of a sound cache are in `[1, 65535]`. -/
theorem CacheSound.range {cp : List Nat} (h : CacheSound cp) {m : Nat} (hm : m ∈ cp) : 1 ≤ m ∧ m ≤ 65535 := by
  refine ⟨h.2.2.1 m hm, ?_⟩
  cases cp with
  | nil => simp at hm
  | cons x xs =>
    have hx : x = 65535 := by simpa using h.1
    rcases List.mem_cons.1 hm with rfl | hm
    · omega
    · have := ((List.pairwise_cons.1 h.2.1).1 m hm).1; omega

/-! ## Lookups that succeed and that fail, on a sound cache -/

/-- Which error an extension raises: Exhausted once 1 is in the cache, CapacityExceeded on a full cache before that. -/
theorem extendFrom_error (cpMax i : Nat) : ∀ (c : Nat) (cp : List Nat) (r : List Nat × Option CoreErr),
    extendFrom cpMax i c cp = r → TriedDownTo c cp → cp.length ≤ cpMax →
    (r.2 = some .exhausted → 1 ∈ r.1) ∧ (r.2 = some .capacityExceeded → r.1.length = cpMax ∧ 1 ∉ r.1) := by
  have one_mem : ∀ {c : Nat} {cp : List Nat}, c ≤ 1 → TriedDownTo c cp → 1 ∈ cp := by
    intro c cp hc ht
    rcases ht.2.2.2 1 (by omega) hc with h | ⟨m, _, _, h⟩
    · exact h
    · exact absurd (Nat.coprime_one_left m) h
  intro c
  induction c with
  | zero =>
    intro cp r h ht _
    simp only [extendFrom] at h
    split at h <;> subst h
    · simp
    · exact ⟨fun _ => one_mem (by omega) ht, by simp⟩
  | succ c ih =>
    intro cp r h ht hl
    simp only [extendFrom] at h
    split at h
    · subst h; simp
    · split at h
      · next hc0 => subst h; exact ⟨fun _ => one_mem (by omega) ht, by simp⟩
      · next hc0 =>
        split at h
        · next hco =>
          split at h
          · next hmax =>
            subst h
            refine ⟨by simp, fun _ => ⟨hmax, fun h1 => ?_⟩⟩
            have := (ht.2.2.1 1 h1).2; omega
          · next hmax => exact ih _ r h (ht.take hco hc0) (by simp; omega)
        · next hco => exact ih _ r h (ht.skip (by simpa using hco)) hl

/-- A lookup that fails on a sound cache (42_coprime.md R151, R152). -/
theorem coprimeAt_error {cpMax i : Nat} {cp cp' : List Nat} {e : CoreErr} (hs : CacheSound cp) (hl : cp.length ≤ cpMax)
    (h : coprimeAt cpMax cp i = (cp', .error e)) :
    (e = .exhausted ∧ 1 ∈ cp') ∨ (e = .capacityExceeded ∧ 1 ∉ cp' ∧ cp'.length = cpMax) := by
  have h5 := (coprimeAt_spec h).2.2.2.2
  have hx := extendFrom_error cpMax i (cp.getLastD 0) cp _ rfl hs.triedDownTo hl
  unfold coprimeAt at h
  split at h
  · simp at h
  · next cp'' e' he =>
    rw [he] at hx
    obtain ⟨rfl, h2⟩ := Prod.mk.inj h
    obtain rfl : e' = e := by simpa using h2
    rcases h5 with ⟨_, h5⟩ | ⟨_, h5 | h5⟩
    · simp at h5
    · obtain rfl : e' = .exhausted := by simpa using h5
      exact .inl ⟨rfl, hx.1 rfl⟩
    · obtain rfl : e' = .capacityExceeded := by simpa using h5
      exact .inr ⟨rfl, (hx.2 rfl).2, (hx.2 rfl).1⟩

/-- A lookup that succeeds on a sound cache: the cache grown to the index and no further. -/
theorem coprimeAt_ok {cpMax i m : Nat} {cp cp' : List Nat} (h : coprimeAt cpMax cp i = (cp', .ok m)) :
    i < cp'.length ∧ cp'[i]? = some m ∧ cp'.length = max cp.length (i + 1) := by
  obtain ⟨h1, _, h3, _, h5⟩ := coprimeAt_spec h
  rcases h5 with ⟨h5, h6⟩ | ⟨_, h6 | h6⟩
  · refine ⟨h5, ?_, ?_⟩
    · obtain rfl : m = cp'.getD i 0 := by simpa using h6
      rw [List.getD_eq_getElem _ _ h5, List.getElem?_eq_getElem h5]
    · have := h1.length_le; omega
  · simp at h6
  · simp at h6

theorem depth_cons (i : Nat) (is : List Nat) : depth (i :: is) = max (i + 1) (depth is) := rfl

theorem lt_depth {is : List Nat} {i : Nat} (h : i ∈ is) : i < depth is := by
  induction is with
  | nil => simp at h
  | cons j is ih =>
    rw [depth_cons]
    rcases List.mem_cons.1 h with rfl | h
    · omega
    · have := ih h; omega

/-- How far a run of lookups that succeeds grows the cache. -/
theorem coprimesAt_ok (cpMax : Nat) : ∀ {is cp cp' ms : List Nat}, coprimesAt cpMax cp is = (cp', .ok ms) →
    cp'.length = max cp.length (depth is) := by
  intro is
  induction is with
  | nil => intro cp cp' ms h; obtain ⟨rfl, _⟩ := Prod.mk.inj h; simp [depth]
  | cons i is ih =>
    intro cp cp' ms h
    simp only [coprimesAt] at h
    split at h
    · simp at h
    · next cp1 m he =>
      split at h
      · simp at h
      · next cp2 ms' he2 =>
        obtain ⟨rfl, _⟩ := Prod.mk.inj h
        rw [ih he2, (coprimeAt_ok he).2.2, depth_cons]; omega

/-- A run of lookups that fails on a sound cache. -/
theorem coprimesAt_error (cpMax : Nat) : ∀ {is cp cp' : List Nat} {e : CoreErr}, CacheSound cp → cp.length ≤ cpMax →
    coprimesAt cpMax cp is = (cp', .error e) →
    (e = .exhausted ∧ 1 ∈ cp') ∨ (e = .capacityExceeded ∧ 1 ∉ cp' ∧ cp'.length = cpMax) := by
  intro is
  induction is with
  | nil => intro cp cp' e _ _ h; simp [coprimesAt] at h
  | cons i is ih =>
    intro cp cp' e hs hl h
    simp only [coprimesAt] at h
    split at h
    · next cp1 e1 he =>
      obtain ⟨rfl, h2⟩ := Prod.mk.inj h
      obtain rfl : e1 = e := by simpa using h2
      exact coprimeAt_error hs hl he
    · next cp1 m he =>
      obtain ⟨_, h2, _, h4, _⟩ := coprimeAt_spec he
      split at h
      · next cp2 e2 he2 =>
        obtain ⟨rfl, h3⟩ := Prod.mk.inj h
        obtain rfl : e2 = e := by simpa using h3
        exact ih (h4 hs) (h2 hl) he2
      · simp at h

end Sys2Proof.Machine
end

