-- ==== Sys2Proof/Laws/Crt.lean ====
section
/-! SUPPORT. What the coefficient set and the combination compute (43_crt.md R160, R162). -/

namespace Sys2Proof.Machine

theorem product_eq_prod (ms : List Nat) : product ms = ms.prod := by
  rw [product, List.prod_eq_foldl]

/-- The running product of R160, reduced at every turn, is the product modulo `base`. -/
theorem foldl_mulMod_modEq (base : Nat) (l : List Nat) : ∀ p : Nat,
    l.foldl (fun p m => p * m % base) p ≡ p * l.prod [MOD base] := by
  induction l with
  | nil => intro p; simp [Nat.ModEq]
  | cons m l ih =>
    intro p
    rw [List.foldl_cons, List.prod_cons]
    refine (ih _).trans ?_
    rw [← mul_assoc]
    exact (Nat.mod_modEq _ _).mul_right _

theorem foldl_mulMod_lt {base : Nat} (hb : 0 < base) {l : List Nat} (hl : l ≠ []) (p : Nat) :
    l.foldl (fun p m => p * m % base) p < base := by
  have : l = l.dropLast ++ [l.getLast hl] := (List.dropLast_append_getLast hl).symm
  rw [this, List.foldl_append]
  exact Nat.mod_lt _ hb

theorem prod_eq_mul_eraseIdx : ∀ {ms : List Nat} {i : Nat} (h : i < ms.length), ms.prod = ms[i] * (ms.eraseIdx i).prod
  | m :: ms, 0, _ => by simp
  | m :: ms, i + 1, h => by
    have hi : i < ms.length := by simpa using h
    simp only [List.getElem_cons_succ, List.eraseIdx_cons_succ, List.prod_cons, prod_eq_mul_eraseIdx hi]; ring

theorem getElem_dvd_prod_eraseIdx : ∀ {ms : List Nat} {i j : Nat} (hj : j < ms.length), j ≠ i →
    ms[j] ∣ (ms.eraseIdx i).prod
  | m :: ms, 0, 0, _, h => absurd rfl h
  | m :: ms, 0, j + 1, hj, _ => by
    simp only [List.getElem_cons_succ, List.eraseIdx_cons_zero]
    exact List.dvd_prod (List.getElem_mem _)
  | m :: ms, i + 1, 0, _, _ => by simp
  | m :: ms, i + 1, j + 1, hj, h => by
    have hj' : j < ms.length := by simpa using hj
    simp only [List.getElem_cons_succ, List.eraseIdx_cons_succ, List.prod_cons]
    exact Dvd.dvd.mul_left (getElem_dvd_prod_eraseIdx hj' (by omega)) _

theorem coprime_prod_eraseIdx_iff : ∀ {ms : List Nat} {i : Nat} {m : Nat},
    Nat.Coprime (ms.eraseIdx i).prod m ↔ ∀ j (hj : j < ms.length), j ≠ i → Nat.Coprime ms[j] m
  | [], i, m => by simp
  | x :: ms, 0, m => by
    simp only [List.eraseIdx_cons_zero, Nat.coprime_list_prod_left_iff]
    constructor
    · intro h j hj hne
      obtain ⟨k, rfl⟩ : ∃ k, j = k + 1 := ⟨j - 1, by omega⟩
      exact h _ (List.getElem_mem _)
    · intro h y hy
      obtain ⟨k, hk, rfl⟩ := List.getElem_of_mem hy
      exact h (k + 1) (by simpa using hk) (by omega)
  | x :: ms, i + 1, m => by
    simp only [List.eraseIdx_cons_succ, List.prod_cons, Nat.coprime_mul_iff_left]
    rw [coprime_prod_eraseIdx_iff (ms := ms) (i := i)]
    constructor
    · rintro ⟨h0, h⟩ j hj hne
      cases j with
      | zero => exact h0
      | succ j => exact h j (by simpa using hj) (by omega)
    · intro h
      exact ⟨h 0 (by simp) (by omega), fun j hj hne => h (j + 1) (by simpa using hj) (by omega)⟩

/-- One weight of R160: 1 modulo its own modulus, 0 modulo every other, and below `base`; it fails exactly when its
modulus shares a factor with another. -/
theorem crtWeight_spec {ms : List Nat} {i : Nat} (hi : i < ms.length) (hpos : ∀ m ∈ ms, m ≠ 0) :
    ((∀ j (hj : j < ms.length), j ≠ i → Nat.Coprime ms[j] ms[i]) →
      ∃ w, crtWeight ms ms.prod i = .ok w ∧ w < ms.prod ∧ w ≡ 1 [MOD ms[i]]
        ∧ ∀ j (hj : j < ms.length), j ≠ i → w ≡ 0 [MOD ms[j]])
      ∧ ((¬ ∀ j (hj : j < ms.length), j ≠ i → Nat.Coprime ms[j] ms[i]) →
        crtWeight ms ms.prod i = .error .notInvertible) := by
  set P := (ms.eraseIdx i).prod with hP
  set part := (ms.eraseIdx i).foldl (fun p m => p * m % ms.prod) 1 with hpart
  have hprod : ms.prod = ms[i] * P := prod_eq_mul_eraseIdx hi
  have hbase : 0 < ms.prod := Nat.pos_of_ne_zero (List.prod_ne_zero (fun h => hpos 0 h rfl))
  have hmi : 0 < ms[i] := Nat.pos_of_ne_zero (hpos _ (List.getElem_mem _))
  have hPpos : 0 < P := by
    rcases Nat.eq_zero_or_pos P with h | h
    · rw [hprod, h] at hbase; simp at hbase
    · exact h
  have hcong : part ≡ P [MOD ms.prod] := by
    have := foldl_mulMod_modEq ms.prod (ms.eraseIdx i) 1
    rwa [one_mul] at this
  have hcongi : part ≡ P [MOD ms[i]] := hcong.of_dvd (Dvd.intro _ hprod.symm)
  have hunf : crtWeight ms ms.prod i = match modInverse ((part % ms[i] : Nat) : Int) ms[i] with
      | .error e => .error e
      | .ok c => .ok (c.natAbs * part) := by
    simp only [crtWeight, List.getD_eq_getElem _ _ hi]; rfl
  have hgcd : Int.gcd ((part % ms[i] : Nat) : Int) (ms[i] : Nat) = Nat.gcd P ms[i] := by
    have h1 : part % ms[i] = P % ms[i] := hcongi
    rw [Int.gcd_natCast_natCast, h1, Nat.gcd_comm P, Nat.gcd_rec ms[i] P]
  have hspec := modInverse_spec ((part % ms[i] : Nat) : Int) (m := (ms[i] : Nat)) (by exact_mod_cast hmi)
  rw [hgcd] at hspec
  have hcop : (∀ j (hj : j < ms.length), j ≠ i → Nat.Coprime ms[j] ms[i]) ↔ Nat.gcd P ms[i] = 1 :=
    (coprime_prod_eraseIdx_iff (ms := ms) (i := i) (m := ms[i])).symm
  constructor
  · intro hall
    obtain ⟨v, hv, hv0, hvlt, hvd⟩ := hspec.1 (hcop.1 hall)
    obtain ⟨c, rfl⟩ : ∃ c : Nat, v = c := ⟨v.toNat, by omega⟩
    have hclt : c < ms[i] := by exact_mod_cast hvlt
    refine ⟨c * part, by rw [hunf, hv]; simp, ?_, ?_, ?_⟩
    · by_cases hone : ms[i] = 1
      · obtain rfl : c = 0 := by omega
        simpa using hbase
      · by_cases hnil : ms.eraseIdx i = []
        · have h1 : part = 1 := by rw [hpart, hnil]; rfl
          have h2 : P = 1 := by rw [hP, hnil]; rfl
          rw [hprod, h1, h2]; omega
        · have hlt := foldl_mulMod_lt hbase hnil 1
          rw [← hpart] at hlt
          have h2 : 2 ≤ ms[i] := by omega
          have hPlt : P < ms.prod := by rw [hprod]; nlinarith
          have hpP : part = P := by
            have := hcong
            rwa [Nat.ModEq, Nat.mod_eq_of_lt hlt, Nat.mod_eq_of_lt hPlt] at this
          rw [hpP, hprod]
          exact Nat.mul_lt_mul_of_pos_right hclt hPpos
    · have h1 : ((part % ms[i] * c : Nat) : Int) ≡ (1 : Nat) [ZMOD (ms[i] : Nat)] := by
        push_cast
        push_cast at hvd
        exact (Int.modEq_iff_dvd.2 hvd).symm
      have h2 : part % ms[i] * c ≡ 1 [MOD ms[i]] := (Int.natCast_modEq_iff).1 h1
      rw [mul_comm]
      exact ((Nat.mod_modEq _ _).symm.mul_right c).trans h2
    · intro j hj hne
      have hdvd : ms[j] ∣ P := getElem_dvd_prod_eraseIdx hj hne
      have h1 : part ≡ P [MOD ms[j]] := hcong.of_dvd (List.dvd_prod (List.getElem_mem _))
      have h2 : part ≡ 0 [MOD ms[j]] := h1.trans ((Nat.modEq_zero_iff_dvd).2 hdvd)
      simpa using h2.mul_left c
  · intro hn
    rw [hunf, hspec.2 (fun h => hn (hcop.2 h))]

/-- The weights at a list of indices: all of them, or the first error. -/
theorem crtWeights_ok_iff (ms : List Nat) (base : Nat) : ∀ (is ws : List Nat),
    crtWeights ms base is = .ok ws ↔ List.Forall₂ (fun i w => crtWeight ms base i = .ok w) is ws := by
  intro is
  induction is with
  | nil => intro ws; simp [crtWeights, eq_comm]
  | cons i is ih =>
    intro ws
    simp only [crtWeights]
    cases hw : crtWeight ms base i with
    | error e => simp [List.forall₂_cons_left_iff, hw]
    | ok w =>
      cases hs : crtWeights ms base is with
      | error e =>
        simp only [List.forall₂_cons_left_iff, reduceCtorEq, false_iff]
        rintro ⟨b, u, _, hu, _⟩
        rw [(ih u).2 hu] at hs; simp at hs
      | ok ws' =>
        constructor
        · intro h
          simp only [Except.ok.injEq] at h
          subst h
          exact .cons hw ((ih ws').1 hs)
        · intro h
          cases h with
          | cons h1 h2 =>
            rw [hw] at h1
            rw [(ih _).2 h2] at hs
            simp_all

/-- The coefficient set of R160, when there is one: its base is the product, and there is one weight per modulus. -/
theorem coefficients_ok_iff (p : Params) (ms ws : List Nat) (base : Nat) :
    coefficients p ms = .ok (ws, base) ↔
      (∀ m ∈ ms, m ≠ 0) ∧ fits p (ms.prod : Nat) = true ∧ base = ms.prod
        ∧ List.Forall₂ (fun i w => crtWeight ms ms.prod i = .ok w) (List.range ms.length) ws := by
  rw [← crtWeights_ok_iff]
  unfold coefficients
  rw [product_eq_prod]
  by_cases h0 : ms.any (· == 0) = true
  · simp only [h0, if_true, reduceCtorEq, false_iff]
    rintro ⟨hp, _⟩
    simp only [List.any_eq_true, beq_iff_eq] at h0
    obtain ⟨x, hx, rfl⟩ := h0
    exact hp 0 hx rfl
  · have hp : ∀ m ∈ ms, m ≠ 0 := by
      intro m hm h; subst h; exact h0 (List.any_eq_true.2 ⟨0, hm, rfl⟩)
    rw [if_neg h0]
    by_cases hf : fits p (ms.prod : Nat) = true
    · rw [if_pos hf]
      cases hw : crtWeights ms ms.prod (List.range ms.length) with
      | error e => simp
      | ok ws' =>
        simp only [Except.ok.injEq, Prod.mk.injEq]
        constructor
        · rintro ⟨rfl, rfl⟩; exact ⟨hp, hf, rfl, rfl⟩
        · rintro ⟨_, _, rfl, rfl⟩; exact ⟨rfl, rfl⟩
    · rw [if_neg hf]
      simp only [reduceCtorEq, false_iff]
      rintro ⟨_, h, _⟩
      exact hf h

theorem coefficients_length {p : Params} {ms ws : List Nat} {base : Nat} (h : coefficients p ms = .ok (ws, base)) :
    ws.length = ms.length := by
  have := ((coefficients_ok_iff p ms ws base).1 h).2.2.2.length_eq
  simpa using this.symm

/-- Positive pairwise coprime moduli whose product fits have a coefficient set. -/
theorem coefficients_of_coprime {p : Params} {ms : List Nat} (hpos : ∀ m ∈ ms, m ≠ 0) (hfit : fits p (ms.prod : Nat) = true)
    (hco : ms.Pairwise Nat.Coprime) : ∃ ws, coefficients p ms = .ok (ws, ms.prod) := by
  have hall : ∀ i (hi : i < ms.length), ∃ w, crtWeight ms ms.prod i = .ok w := by
    intro i hi
    obtain ⟨w, hw, _⟩ := (crtWeight_spec hi hpos).1 (fun j hj hne => by
      rcases lt_or_gt_of_ne hne with h | h
      · exact List.pairwise_iff_getElem.1 hco j i hj hi h
      · exact (List.pairwise_iff_getElem.1 hco i j hi hj h).symm)
    exact ⟨w, hw⟩
  have : ∀ is : List Nat, (∀ i ∈ is, i < ms.length) →
      ∃ ws, List.Forall₂ (fun i w => crtWeight ms ms.prod i = .ok w) is ws := by
    intro is
    induction is with
    | nil => intro _; exact ⟨[], .nil⟩
    | cons i is ih =>
      intro h
      obtain ⟨ws, hws⟩ := ih (fun j hj => h j (by simp [hj]))
      obtain ⟨w, hw⟩ := hall i (h i (by simp))
      exact ⟨w :: ws, .cons hw hws⟩
  obtain ⟨ws, hws⟩ := this (List.range ms.length) (by simp)
  exact ⟨ws, (coefficients_ok_iff p ms ws _).2 ⟨hpos, hfit, rfl, hws⟩⟩

/-- The weight at an index of a coefficient set. -/
theorem coefficients_weight {p : Params} {ms ws : List Nat} {base : Nat} (h : coefficients p ms = .ok (ws, base))
    {i : Nat} (hi : i < ms.length) : crtWeight ms ms.prod i = .ok (ws.getD i 0) := by
  have hl := coefficients_length h
  have hf := ((coefficients_ok_iff p ms ws base).1 h).2.2.2
  have := hf.get (i := i) (by simpa using hi) (by omega)
  rw [List.getD_eq_getElem _ _ (by omega)]
  simpa using this

/-- The moduli of a coefficient set are pairwise coprime. -/
theorem coefficients_coprime {p : Params} {ms ws : List Nat} {base : Nat} (h : coefficients p ms = .ok (ws, base))
    {i j : Nat} (hi : i < ms.length) (hj : j < ms.length) (hne : j ≠ i) : Nat.Coprime ms[j] ms[i] := by
  have hpos := ((coefficients_ok_iff p ms ws base).1 h).1
  by_contra hc
  have := (crtWeight_spec hi hpos).2 (fun hall => hc (hall j hj hne))
  rw [coefficients_weight h hi] at this
  simp at this

/-- What the weights of a coefficient set are: below the base, 1 modulo their own modulus, 0 modulo the others. -/
theorem coefficients_weight_spec {p : Params} {ms ws : List Nat} {base : Nat} (h : coefficients p ms = .ok (ws, base))
    {i : Nat} (hi : i < ms.length) :
    ws.getD i 0 < base ∧ ws.getD i 0 ≡ 1 [MOD ms[i]] ∧ ∀ j (hj : j < ms.length), j ≠ i → ws.getD i 0 ≡ 0 [MOD ms[j]] := by
  obtain ⟨hpos, _, hb, _⟩ := (coefficients_ok_iff p ms ws base).1 h
  obtain ⟨w, hw, h1, h2, h3⟩ := (crtWeight_spec hi hpos).1 (fun j hj hne => coefficients_coprime h hi hj hne)
  rw [coefficients_weight h hi] at hw
  obtain rfl : ws.getD i 0 = w := by simpa using hw
  exact ⟨hb ▸ h1, h2, h3⟩

/-! ## Combination -/

theorem foldl_combine_modEq (base : Nat) (l : List (Nat × Nat)) : ∀ r : Nat,
    l.foldl (fun r x => (r + x.1 * x.2) % base) r ≡ r + (l.map fun x => x.1 * x.2).sum [MOD base] := by
  induction l with
  | nil => intro r; simp [Nat.ModEq]
  | cons x l ih =>
    intro r
    rw [List.foldl_cons, List.map_cons, List.sum_cons]
    refine (ih _).trans ?_
    rw [← add_assoc]
    exact (Nat.mod_modEq _ _).add_right _

theorem foldl_combine_lt {base : Nat} (hb : 0 < base) (l : List (Nat × Nat)) :
    l.foldl (fun r x => (r + x.1 * x.2) % base) 0 < base := by
  rcases l.eq_nil_or_concat with rfl | ⟨l, x, rfl⟩
  · exact hb
  · rw [List.concat_eq_append, List.foldl_append]; exact Nat.mod_lt _ hb

theorem modEq_map_sum {f g : Nat → Nat} {m : Nat} : ∀ {n : Nat}, (∀ i, i < n → f i ≡ g i [MOD m]) →
    ((List.range n).map f).sum ≡ ((List.range n).map g).sum [MOD m]
  | 0, _ => by simp [Nat.ModEq]
  | n + 1, h => by
    simp only [List.range_succ, List.map_append, List.map_cons, List.map_nil, List.sum_append, List.sum_cons, List.sum_nil,
      add_zero]
    exact (modEq_map_sum fun i hi => h i (by omega)).add (h n (by omega))

theorem sum_map_range_ite {k v : Nat} : ∀ {n : Nat}, k < n →
    ((List.range n).map fun i => if i = k then v else 0).sum = v
  | 0, h => by omega
  | n + 1, h => by
    simp only [List.range_succ, List.map_append, List.map_cons, List.map_nil, List.sum_append, List.sum_cons, List.sum_nil,
      add_zero]
    by_cases hn : n = k
    · subst hn
      have : ((List.range n).map fun i => if i = n then v else 0) = (List.range n).map fun _ => 0 :=
        List.map_congr_left fun i hi => by
          rw [if_neg]; have := List.mem_range.1 hi; omega
      rw [this]; simp
    · rw [if_neg hn, sum_map_range_ite (by omega), add_zero]

/-- The Chinese remainder property of R162: the combination is below the base and agrees with every part modulo its
modulus. -/
theorem combine_spec {p : Params} {ms ws ps : List Nat} {base : Nat} (h : coefficients p ms = .ok (ws, base))
    (hps : ps.length = ms.length) :
    ∃ r, combine ps ws base ms.length = .ok r ∧ r < base ∧ ∀ k (hk : k < ms.length), r ≡ ps.getD k 0 [MOD ms[k]] := by
  obtain ⟨hpos, _, hb, _⟩ := (coefficients_ok_iff p ms ws base).1 h
  have hbase : 0 < base := hb ▸ Nat.pos_of_ne_zero (List.prod_ne_zero (fun h => hpos 0 h rfl))
  have hl := coefficients_length h
  refine ⟨_, by unfold combine; rw [if_neg (by simpa using hps)], foldl_combine_lt hbase _, fun k hk => ?_⟩
  have hdvd : ms[k] ∣ base := hb ▸ List.dvd_prod (List.getElem_mem _)
  refine ((foldl_combine_modEq base _ 0).of_dvd hdvd).trans ?_
  rw [zero_add]
  have hzip : (ws.zip ps).map (fun x => x.1 * x.2) = (List.range ms.length).map (fun i => ws.getD i 0 * ps.getD i 0) := by
    apply List.ext_getElem
    · simp [hl, hps]
    · intro n h1 h2
      have hn : n < ms.length := by simpa using h2
      simp only [List.getElem_map, List.getElem_zip, List.getElem_range]
      rw [List.getD_eq_getElem _ _ (by omega), List.getD_eq_getElem _ _ (by omega)]
  rw [hzip]
  have hterm : ∀ i, i < ms.length →
      ws.getD i 0 * ps.getD i 0 ≡ (if i = k then ps.getD k 0 else 0) [MOD ms[k]] := by
    intro i hi
    obtain ⟨_, h1, h2⟩ := coefficients_weight_spec h hi
    by_cases he : i = k
    · subst he
      rw [if_pos rfl]
      simpa using h1.mul_right (ps.getD i 0)
    · rw [if_neg he]
      simpa using (h2 k hk (Ne.symm he)).mul_right (ps.getD i 0)
  refine (modEq_map_sum hterm).trans ?_
  rw [sum_map_range_ite hk]

end Sys2Proof.Machine
end

