-- ==== Sys2Proof/Laws/Codec.lean ====
section
/-! SUPPORT. What the geometry, the hunks, the bundle store and the recovery compute (44_codec.md R188 to R197). -/

namespace Sys2Proof.Machine

/-! ## Geometry -/

/-- Everything `geometry` answers (44_codec.md R188), the hunk count as `S / 2`. -/
theorem geometry_eq (p : Params) (l sz : Nat) :
    geometry p l sz =
      if sz = 0 ∨ sz % 2 = 1 ∨ l = 0 then .error .invalidArgument
      else if 100 < (l + sz - 1) / sz then .error .dataTooLarge
      else if p.maxH < sz / 2 then .error .capacityExceeded
      else .ok ⟨(l + sz - 1) / sz * sz, (l + sz - 1) / sz, 2 * ((l + sz - 1) / sz), sz / 2⟩ := by
  unfold geometry
  by_cases h1 : sz = 0 ∨ sz % 2 = 1
  · rw [if_pos h1, if_pos (by tauto)]
  · rw [if_neg h1]
    by_cases h2 : l = 0
    · rw [if_pos h2, if_pos (by tauto)]
    · have h12 : ¬(sz = 0 ∨ sz % 2 = 1 ∨ l = 0) := by tauto
      rw [if_neg h2, if_neg h12]
      have hpos : 0 < sz := by omega
      have hmb : 1 ≤ (l + sz - 1) / sz := (Nat.le_div_iff_mul_le hpos).2 (by omega)
      simp only [Nat.mul_div_cancel _ hpos]
      have hnh : (l + sz - 1) / sz * sz / (2 * ((l + sz - 1) / sz)) = sz / 2 := by
        rw [mul_comm 2, Nat.mul_div_mul_left _ _ hmb]
      rw [hnh]

/-- The identities of an accepted geometry (44_codec.md R188, R191). -/
theorem geometry_ok {p : Params} {l sz : Nat} {g : Geometry} (h : geometry p l sz = .ok g) :
    0 < sz ∧ sz % 2 = 0 ∧ 0 < l ∧ 1 ≤ g.minb ∧ g.minb ≤ 100 ∧ g.nh = sz / 2 ∧ g.nh ≤ p.maxH ∧ g.hsize = 2 * g.minb
      ∧ g.plen = g.minb * sz ∧ g.plen = g.nh * g.hsize ∧ l ≤ g.plen ∧ g.plen < l + sz := by
  rw [geometry_eq] at h
  split at h
  · simp at h
  · next h1 =>
    push Not at h1
    split at h
    · simp at h
    · next h2 =>
      split at h
      · simp at h
      · next h3 =>
        simp only [Except.ok.injEq] at h
        subst h
        have hpos : 0 < sz := by omega
        have hmb : 1 ≤ (l + sz - 1) / sz := (Nat.le_div_iff_mul_le hpos).2 (by omega)
        have h4 := Nat.div_add_mod (l + sz - 1) sz
        have h5 := Nat.mod_lt (l + sz - 1) hpos
        have h6 : sz = 2 * (sz / 2) := by omega
        refine ⟨hpos, by omega, by omega, hmb, by simpa using h2, rfl, by simpa using h3, rfl, rfl, ?_, ?_, ?_⟩
        · show (l + sz - 1) / sz * sz = sz / 2 * (2 * ((l + sz - 1) / sz))
          have h7 : (l + sz - 1) / sz * sz = (l + sz - 1) / sz * (2 * (sz / 2)) := by rw [← h6]
          rw [h7]; ring
        · show l ≤ (l + sz - 1) / sz * sz
          rw [mul_comm]; omega
        · show (l + sz - 1) / sz * sz < l + sz
          rw [mul_comm]; omega

/-! ## Hunks -/

/-- The zero-padded buffer of 44_codec.md R189. -/
def padded (data : List Byte) (g : Geometry) : List Byte := data ++ List.replicate (g.plen - data.length) 0

theorem padded_length {data : List Byte} {g : Geometry} (h : data.length ≤ g.plen) : (padded data g).length = g.plen := by
  simp [padded]; omega

@[simp] theorem hunks_length (data : List Byte) (g : Geometry) : (hunks data g).length = g.nh := by simp [hunks]

theorem hunks_getElem (data : List Byte) (g : Geometry) (h : Nat) (hh : h < (hunks data g).length) :
    (hunks data g)[h] = fromBE (((padded data g).drop (h * g.hsize)).take g.hsize) := by
  simp [hunks, padded]

theorem hunks_lt {data : List Byte} {g : Geometry} {v : Nat} (h : v ∈ hunks data g) : v < 256 ^ g.hsize := by
  obtain ⟨k, hk, rfl⟩ := List.getElem_of_mem h
  rw [hunks_getElem]
  refine lt_of_lt_of_le (fromBE_lt _) (Nat.pow_le_pow_right (by norm_num) ?_)
  simp

/-- Cutting a list into runs of one length and joining them gives it back. -/
theorem flatMap_runs {α : Type} (w : Nat) : ∀ (n : Nat) (l : List α), l.length = n * w →
    (List.range n).flatMap (fun h => (l.drop (h * w)).take w) = l
  | 0, l, h => by
    have : l.length = 0 := by simpa using h
    simp [List.length_eq_zero_iff.1 this]
  | n + 1, l, h => by
    rw [List.range_succ, List.flatMap_append, List.flatMap_singleton]
    have h1 : (l.take (n * w)).length = n * w := by simp [h, add_mul]
    have h2 := flatMap_runs w n (l.take (n * w)) h1
    have h3 : (List.range n).flatMap (fun k => (l.drop (k * w)).take w)
        = (List.range n).flatMap (fun k => ((l.take (n * w)).drop (k * w)).take w) := by
      apply List.flatMap_congr
      intro k hk
      have hk' : (k + 1) * w ≤ n * w := Nat.mul_le_mul_right w (List.mem_range.1 hk)
      rw [List.drop_take, List.take_take]
      congr 1
      rw [add_mul, one_mul] at hk'
      omega
    rw [h3, h2]
    have h4 : (l.drop (n * w)).take w = l.drop (n * w) := by
      apply List.take_of_length_le
      rw [List.length_drop, h, add_mul, one_mul]; omega
    rw [h4, List.take_append_drop]

/-- Exporting the hunks at the hunk size gives the padded buffer back (44_codec.md R189, R197). -/
theorem flatMap_toBE_hunks {data : List Byte} {g : Geometry} (hlen : data.length ≤ g.plen) (hp : g.plen = g.nh * g.hsize) :
    (hunks data g).flatMap (fun v => toBE v g.hsize) = padded data g := by
  rw [← flatMap_runs g.hsize g.nh (padded data g) (by rw [padded_length hlen, hp])]
  rw [show hunks data g = (List.range g.nh).map (fun h => fromBE (((padded data g).drop (h * g.hsize)).take g.hsize)) from rfl,
    List.flatMap_map]
  apply List.flatMap_congr
  intro h hh
  have hl : (((padded data g).drop (h * g.hsize)).take g.hsize).length = g.hsize := by
    rw [List.length_take, List.length_drop, padded_length hlen, hp]
    have : (h + 1) * g.hsize ≤ g.nh * g.hsize := Nat.mul_le_mul_right _ (List.mem_range.1 hh)
    rw [add_mul, one_mul] at this
    omega
  conv_rhs => rw [← toBE_fromBE (((padded data g).drop (h * g.hsize)).take g.hsize), hl]

theorem padded_take {data : List Byte} (g : Geometry) : (padded data g).take data.length = data := by
  simp [padded]

/-! ## Slices -/

@[simp] theorem Enc.slices_length (e : Enc) (m : Nat) : (e.slices m).length = e.bsize / 2 := by simp [Enc.slices]

theorem Enc.slices_lt {e : Enc} {m : Nat} (hm : 0 < m) {v : Nat} (h : v ∈ e.slices m) : v < m := by
  simp only [Enc.slices, List.mem_map] at h
  obtain ⟨i, _, rfl⟩ := h
  exact Nat.mod_lt _ hm

/-- No remainder modulo a cached modulus needs more than 2 bytes (42_coprime.md R155). -/
theorem Enc.slices_minlen {e : Enc} {m : Nat} (hm : 1 ≤ m ∧ m ≤ 65535) :
    (e.slices m).any (fun p => decide (2 < minlen p)) = false := by
  rw [List.any_eq_false]
  intro v hv
  have := Enc.slices_lt (by omega) hv
  have h2 : minlen (v : Int) ≤ 2 := (minlen_le_iff _ _).2 (by rw [Int.natAbs_natCast]; omega)
  simpa using h2

theorem flatMap_toBE_length (n : Nat) (l : List Nat) : (l.flatMap (fun p => toBE p n)).length = l.length * n := by
  induction l with
  | nil => simp
  | cons v l ih => rw [List.flatMap_cons, List.length_append, ih, toBE_length, List.length_cons]; ring

/-- The run of a joined export that stands for one entry. -/
theorem flatMap_toBE_run (n : Nat) : ∀ (l : List Nat) (h : Nat) (hh : h < l.length),
    ((l.flatMap (fun p => toBE p n)).drop (n * h)).take n = toBE l[h] n
  | v :: l, 0, _ => by
    rw [List.flatMap_cons]; simp
  | v :: l, h + 1, hh => by
    have hh' : h < l.length := by simpa using hh
    rw [List.flatMap_cons, List.drop_append, toBE_length, List.getElem_cons_succ, ← flatMap_toBE_run n l h hh']
    have e1 : n * (h + 1) - n = n * h := by rw [mul_add, mul_one]; omega
    rw [e1, List.drop_of_length_le (by rw [toBE_length, mul_add, mul_one]; omega), List.nil_append]

/-! ## The bundle store -/

theorem mem_storePut {idx : Nat} {bytes : List Byte} {s : List (Nat × List Byte)} {e : Nat × List Byte}
    (h : e ∈ storePut idx bytes s) : e = (idx, bytes) ∨ e ∈ s := by
  induction s with
  | nil => simpa [storePut] using h
  | cons x s ih =>
    obtain ⟨k, u⟩ := x
    simp only [storePut] at h
    split at h
    · simpa using h
    · split at h
      · rcases List.mem_cons.1 h with h | h <;> simp [h]
      · rcases List.mem_cons.1 h with h | h
        · simp [h]
        · rcases ih h with h | h <;> simp [h]

/-- A push keeps the indices strictly rising. -/
theorem pairwise_storePut (idx : Nat) (bytes : List Byte) {s : List (Nat × List Byte)}
    (h : s.Pairwise (fun x y => x.1 < y.1)) : (storePut idx bytes s).Pairwise (fun x y => x.1 < y.1) := by
  induction s with
  | nil => simp [storePut]
  | cons x s ih =>
    obtain ⟨k, u⟩ := x
    rw [List.pairwise_cons] at h
    simp only [storePut]
    split
    · next hk =>
      simp only [List.pairwise_cons, List.mem_cons, forall_eq_or_imp]
      exact ⟨⟨hk, fun c hc => lt_trans hk (h.1 c hc)⟩, h.1, h.2⟩
    · split
      · next hk => subst hk; simpa only [List.pairwise_cons] using h
      · rw [List.pairwise_cons]
        refine ⟨fun c hc => ?_, ih h.2⟩
        rcases mem_storePut hc with rfl | hc
        · show k < idx; omega
        · exact h.1 c hc

/-- What a push stores: its own entry, and every earlier entry under another index (44_codec.md R195). -/
theorem mem_storePut_iff {idx : Nat} {bytes : List Byte} {s : List (Nat × List Byte)}
    (hs : s.Pairwise (fun x y => x.1 < y.1)) (e : Nat × List Byte) :
    e ∈ storePut idx bytes s ↔ e = (idx, bytes) ∨ (e ∈ s ∧ e.1 ≠ idx) := by
  induction s with
  | nil => simp [storePut]
  | cons x s ih =>
    obtain ⟨k, u⟩ := x
    rw [List.pairwise_cons] at hs
    simp only [storePut]
    split
    · next hk =>
      have : ∀ e ∈ (k, u) :: s, e.1 ≠ idx := by
        intro e he
        rcases List.mem_cons.1 he with rfl | he
        · exact (ne_of_gt hk)
        · have := hs.1 e he; simp only at this; omega
      rw [List.mem_cons]
      constructor
      · rintro (h | h)
        · exact .inl h
        · exact .inr ⟨h, this e h⟩
      · rintro (h | h)
        · exact .inl h
        · exact .inr h.1
    · split
      · next hk =>
        subst hk
        simp only [List.mem_cons]
        constructor
        · rintro (h | h)
          · exact .inl h
          · have := hs.1 e h; simp only at this; exact .inr ⟨.inr h, by omega⟩
        · rintro (h | ⟨h | h, hne⟩)
          · exact .inl h
          · subst h; exact absurd rfl hne
          · exact .inr h
      · next hk1 hk2 =>
        rw [List.mem_cons, ih hs.2, List.mem_cons]
        constructor
        · rintro (h | h | h)
          · subst h; exact .inr ⟨.inl rfl, Ne.symm hk2⟩
          · exact .inl h
          · exact .inr ⟨.inr h.1, h.2⟩
        · rintro (h | ⟨h | h, hne⟩)
          · exact .inr (.inl h)
          · exact .inl h
          · exact .inr (.inr ⟨h, hne⟩)

/-- The count after a push: one more for a new index, the same for a stored one (44_codec.md R195). -/
theorem storePut_length {idx : Nat} {bytes : List Byte} {s : List (Nat × List Byte)}
    (hs : s.Pairwise (fun x y => x.1 < y.1)) :
    (storePut idx bytes s).length = if idx ∈ s.map Prod.fst then s.length else s.length + 1 := by
  induction s with
  | nil => simp [storePut]
  | cons x s ih =>
    obtain ⟨k, u⟩ := x
    rw [List.pairwise_cons] at hs
    simp only [storePut]
    split
    · next hk =>
      have : idx ∉ ((k, u) :: s).map Prod.fst := by
        intro hm
        obtain ⟨e, he, hi⟩ := List.mem_map.1 hm
        rcases List.mem_cons.1 he with rfl | he
        · simp only at hi; omega
        · have := hs.1 e he; simp only at this; omega
      rw [if_neg this]; rfl
    · split
      · next hk => subst hk; simp
      · next hk1 hk2 =>
        rw [List.length_cons, ih hs.2]
        simp only [List.map_cons, List.mem_cons, hk2, false_or, List.length_cons]
        split <;> rfl

/-- The indices after a push are those before it, and the pushed one where it is new, in their order. -/
theorem perm_indices_storePut (idx : Nat) (bytes : List Byte) (s : List (Nat × List Byte)) :
    (storePut idx bytes s).map Prod.fst = s.map Prod.fst
      ∨ ((storePut idx bytes s).map Prod.fst).Perm (idx :: s.map Prod.fst) := by
  induction s with
  | nil => exact .inr (by simp [storePut])
  | cons x s ih =>
    obtain ⟨k, u⟩ := x
    simp only [storePut]
    split
    · exact .inr (by simp)
    · split
      · next hk => subst hk; exact .inl (by simp)
      · rcases ih with h | h
        · exact .inl (by simp [h])
        · exact .inr (by
            rw [List.map_cons, List.map_cons]
            exact (h.cons k).trans (List.Perm.swap idx k _))

/-! ## Recovery -/

@[simp] theorem Dec.slicesAt_length (x : Dec) (h : Nat) : (x.slicesAt h).length = x.s.length := by simp [Dec.slicesAt]

/-- Everything one hunk can do: an export of the hunk size, or ReconstructionFailed (44_codec.md R197). -/
theorem recoverHunk_cases {x : Dec} {full sub : List Nat × Nat} {h : Nat} {r : Except CoreErr (List Byte × Bool)}
    (hr : recoverHunk x full sub h = r) :
    (∃ bytes retried, r = .ok (bytes, retried) ∧ bytes.length = x.hsize) ∨ r = .error .reconstructionFailed := by
  unfold recoverHunk at hr
  simp only [combine, Dec.slicesAt_length, ne_eq, not_true_eq_false, if_false, List.length_dropLast] at hr
  split at hr
  · exact .inl ⟨_, _, hr.symm, by simp⟩
  · split at hr
    · exact .inr hr.symm
    · exact .inl ⟨_, _, hr.symm, by simp⟩

theorem recoverHunks_cases {x : Dec} {full sub : List Nat × Nat} : ∀ {hs : List Nat}
    {r : Except CoreErr (List Byte × Nat)}, recoverHunks x full sub hs = r →
    (∃ out n, r = .ok (out, n) ∧ out.length = hs.length * x.hsize ∧ n ≤ hs.length) ∨ r = .error .reconstructionFailed := by
  intro hs
  induction hs with
  | nil => intro r h; exact .inl ⟨[], 0, h.symm, by simp⟩
  | cons k hs ih =>
    intro r h
    simp only [recoverHunks] at h
    rcases recoverHunk_cases (x := x) (full := full) (sub := sub) (h := k) rfl with ⟨b, t, hb, hl⟩ | hb
    · rw [hb] at h
      rcases ih (r := recoverHunks x full sub hs) rfl with ⟨out, n, ho, hol, hn⟩ | ho
      · rw [ho] at h
        refine .inl ⟨_, _, h.symm, ?_, ?_⟩
        · rw [List.length_append, hl, hol, List.length_cons]; ring
        · rw [List.length_cons]; have : t.toNat ≤ 1 := by cases t <;> decide
          omega
      · rw [ho] at h; exact .inr h.symm
    · rw [hb] at h; exact .inr h.symm

/-- Hunks that all export at once give their joined export and no retry. -/
theorem recoverHunks_ok {x : Dec} {full sub : List Nat × Nat} {b : Nat → List Byte} : ∀ {hs : List Nat},
    (∀ h ∈ hs, recoverHunk x full sub h = .ok (b h, false)) → recoverHunks x full sub hs = .ok (hs.flatMap b, 0) := by
  intro hs
  induction hs with
  | nil => intro _; rfl
  | cons k hs ih =>
    intro h
    simp only [recoverHunks, h k (by simp), ih (fun j hj => h j (by simp [hj]))]
    rfl

/-- What `recover` answers is at most the declared length. -/
theorem recover_ok {p : Params} {x : Dec} {ms : List Nat} {out : List Byte} {n : Nat} (h : recover p x ms = .ok (out, n)) :
    out.length = min x.len (x.nh * x.hsize) ∧ n ≤ x.nh := by
  unfold recover at h
  cases hf : coefficients p ms with
  | error e => rw [hf] at h; simp at h
  | ok full =>
    cases hs : coefficients p ms.dropLast with
    | error e => rw [hf, hs] at h; simp at h
    | ok sub =>
      rw [hf, hs] at h
      simp only at h
      rcases recoverHunks_cases (x := x) (full := full) (sub := sub) (hs := List.range x.nh) rfl with ⟨o, k, ho, hl, hn⟩ | ho
      · rw [ho] at h
        simp only [Except.ok.injEq, Prod.mk.injEq] at h
        obtain ⟨rfl, rfl⟩ := h
        rw [List.length_range] at hl hn
        exact ⟨by rw [List.length_take, hl], hn⟩
      · rw [ho] at h; simp at h

end Sys2Proof.Machine
end

