-- ==== Sys2Proof/Laws/Commands.lean ====
section
/-! SUPPORT. What each command can do: the state of its success, or of an error, which changed nothing but STATUS and the
coprime cache (10_state.md R47, 60_exceptions.md R223). -/

namespace Sys2Proof.Machine

/-! ## Commands that write a big register -/

/-- A command with a D field, CPGET apart, writes a value within capacity to that register or raises an error. -/
theorem exec_destination_cases {i : Instr} {d : Reg} {s t : State} (hd : destination i = some d)
    (hc : ∀ d', i ≠ .cpget d') (h : exec i s = .next t) :
    (∃ v, fits s.par v = true ∧ t = s.wrote d v) ∨ ∃ e, t = s.raise e := by
  cases i
  all_goals first
    | exact absurd rfl (hc _)
    | (simp only [destination, reduceCtorEq] at hd; done)
    | skip
  all_goals
    simp only [destination, Option.some.injEq] at hd
    subst hd
    simp only [exec, execLdi, execMov, execAdd, execSub, execMul, execRem, execMod, execGcd, execMinv, execPow, execMpow,
      execShl, execShr, execLdbe, execCrtcomb, execCrtw, execCrtm, execCrtbase, execEnchunk, shiftBody] at h
    rcases State.finish_cases h with ⟨q, hq, rfl⟩ | ⟨e, _, rfl⟩
    · refine .inl ?_
      (repeat' split at hq)
      all_goals first
        | (simp only [reduceCtorEq] at hq)
        | (rcases State.writeBig_cases hq with ⟨hf, hq⟩ | ⟨_, hq⟩
           · obtain rfl := Except.ok.inj hq
             exact ⟨_, hf, rfl⟩
           · simp only [reduceCtorEq] at hq)
    · exact .inr ⟨e, rfl⟩

/-- CPGET writes the modulus it looked up to its register and RES0, or raises an error; either way the cache grew. -/
theorem exec_cpget_cases {d : Reg} {s t : State} (h : exec (.cpget d) s = .next t) :
    ∃ cp' r, coprimeAt s.par.cpMax s.cp s.larg0.toNat = (cp', r)
      ∧ ((∃ m : Nat, r = .ok m ∧ fits s.par m = true ∧ t = { s.wrote d m with cp := cp', res0 := countWord m })
        ∨ (∃ m : Nat, r = .ok m ∧ fits s.par m = false ∧ t = (s.setCp cp').raise .capacityExceeded)
        ∨ ∃ e, r = .error e ∧ t = (s.setCp cp').raise e) := by
  simp only [exec, execCpget] at h
  split at h
  · next cp' e hx =>
    cases h; exact ⟨cp', _, hx, .inr (.inr ⟨e, rfl, rfl⟩)⟩
  · next cp' m hx =>
    refine ⟨cp', _, hx, ?_⟩
    rcases State.finish_cases h with ⟨q, hq, rfl⟩ | ⟨e, he, rfl⟩
    · rcases State.writeBig_cases hq with ⟨hf, hq⟩ | ⟨_, hq⟩
      · obtain rfl := Except.ok.inj hq
        exact .inl ⟨m, rfl, hf, rfl⟩
      · simp only [reduceCtorEq] at hq
    · rcases State.writeBig_cases he with ⟨_, he⟩ | ⟨hf, he⟩
      · simp only [reduceCtorEq] at he
      · obtain rfl := Except.error.inj he
        exact .inr (.inl ⟨m, rfl, hf, rfl⟩)

/-! ## Commands that write none -/

theorem exec_nop_eq (s : State) : exec .nop s = .next s.completed := rfl

theorem exec_cmp_eq (a b : Reg) (s : State) :
    exec (.cmp a b) s = .next { s.completed with
      flags := compareFlags (s.reg a) (s.reg b) s.flags
      res0 := compareResult (s.reg a) (s.reg b) } := rfl

/-- STBE stores the minimal form within its range, or raises an error. -/
theorem exec_stbe_cases {a : Reg} {s t : State} (h : exec (.stbe a) s = .next t) :
    (∃ l : List Byte, l.length = minlen (s.reg a) ∧ s.inRange s.larg0.toNat l.length
        ∧ t = { s.completed with mem := s.mem.putAll s.larg0.toNat l, res0 := countWord (minlen (s.reg a)) })
      ∨ ∃ e ∈ [CoreErr.addressError, .invalidArgument, .overflow], t = s.raise e := by
  simp only [exec, execStbe] at h
  split at h
  · cases h; exact .inr ⟨_, by simp, rfl⟩
  · next h1 =>
    split at h
    · cases h; exact .inr ⟨_, by simp, rfl⟩
    · split at h
      · cases h; exact .inr ⟨_, by simp, rfl⟩
      · next h3 =>
        cases h
        refine .inl ⟨_, toBE_length _ _, ?_, rfl⟩
        rw [toBE_length]
        by_contra hc
        exact h1 (State.outOfRange_of_not_inRange fun hr => hc (le_trans (Nat.add_le_add_left (Nat.not_lt.1 h3) _) hr))

/-- STBEW stores the fixed width within its range, or raises an error. -/
theorem exec_stbew_cases {a : Reg} {s t : State} (h : exec (.stbew a) s = .next t) :
    (∃ l : List Byte, l.length = s.larg1.toNat ∧ s.inRange s.larg0.toNat l.length
        ∧ t = { s.completed with mem := s.mem.putAll s.larg0.toNat l, res0 := countWord s.larg1.toNat })
      ∨ ∃ e ∈ [CoreErr.addressError, .invalidArgument, .overflow], t = s.raise e := by
  simp only [exec, execStbew] at h
  split at h
  · cases h; exact .inr ⟨_, by simp, rfl⟩
  · next h1 =>
    split at h
    · cases h; exact .inr ⟨_, by simp, rfl⟩
    · split at h
      · cases h; exact .inr ⟨_, by simp, rfl⟩
      · cases h
        refine .inl ⟨_, toBE_length _ _, ?_, rfl⟩
        rw [toBE_length]
        by_contra hc
        exact h1 (State.outOfRange_of_not_inRange hc)

/-- CRTCOEF replaces the CRT table whole by a coefficient set within capacity, or raises an error. -/
theorem exec_crtcoef_cases {s t : State} (h : exec .crtcoef s = .next t) :
    (∃ ms ws base, ms.length ≤ s.par.maxK ∧ (∀ m ∈ ms, fits s.par (m : Nat) = true)
        ∧ coefficients s.par ms = .ok (ws, base)
        ∧ t = { s.completed with
            crt := .ofLists ms ws base
            res0 := countWord (bitlen base)
            maxBits := noteBits s.maxBits (ms.map Int.ofNat ++ ws.map Int.ofNat ++ [Int.ofNat base]) })
      ∨ ∃ e ∈ [CoreErr.invalidArgument, .notInvertible, .capacityExceeded, .addressError], t = s.raise e := by
  simp only [exec, execCrtcoef] at h
  split at h
  · cases h; exact .inr ⟨_, by simp, rfl⟩
  · next hk =>
    split at h
    · cases h; exact .inr ⟨_, by simp, rfl⟩
    · split at h
      · next hall =>
        split at h
        · next e he =>
          cases h
          refine .inr ⟨e, ?_, rfl⟩
          unfold coefficients at he
          split at he
          · cases he; simp
          · split at he
            · split at he
              · next e' hw =>
                cases he
                have : ∀ is : List Nat, ∀ ms base, crtWeights ms base is = .error e →
                    e = .invalidArgument ∨ e = .notInvertible := by
                  intro is
                  induction is with
                  | nil => intro ms base h; simp [crtWeights] at h
                  | cons i is ih =>
                    intro ms base h
                    simp only [crtWeights] at h
                    split at h
                    · next e1 h1 =>
                      cases h
                      unfold crtWeight modInverse at h1
                      simp only at h1
                      split at h1
                      · next e2 h2 =>
                        cases h1
                        split at h2
                        · cases h2; exact .inl rfl
                        · split at h2
                          · cases h2; exact .inr rfl
                          · cases h2
                      · cases h1
                    · split at h
                      · next e1 h1 => cases h; exact ih _ _ h1
                      · cases h
                rcases this _ _ _ hw with rfl | rfl <;> simp
              · cases he
            · cases he; simp
        · next ws base he =>
          cases h
          refine .inl ⟨_, ws, base, ?_, ?_, he, rfl⟩
          · simpa [State.readEntries] using hk
          · exact List.all_eq_true.1 hall
      · cases h; exact .inr ⟨_, by simp, rfl⟩

/-- ENCINIT replaces the encoder whole, or raises an error. -/
theorem exec_encinit_cases {s t : State} (h : exec .encinit s = .next t) :
    (∃ g data, geometry s.par s.larg1.toNat s.larg2.toNat = .ok g ∧ data.length = s.larg1.toNat
        ∧ data = s.memRead s.larg0.toNat s.larg1.toNat
        ∧ t = { s.completed with
            enc := ⟨true, s.larg1.toNat, s.larg2.toNat, g.plen, g.minb, g.hsize, g.nh, hunks data g⟩
            res0 := countWord g.nh
            res1 := countWord g.minb
            maxBits := noteBits s.maxBits ((hunks data g).map Int.ofNat) })
      ∨ ∃ e ∈ [CoreErr.invalidArgument, .dataTooLarge, .capacityExceeded, .addressError], t = s.raise e := by
  simp only [exec, execEncinit] at h
  split at h
  · next e he =>
    cases h
    refine .inr ⟨e, ?_, rfl⟩
    rw [geometry_eq] at he
    (repeat' split at he) <;> cases he <;> simp
  · next g hg =>
    split at h
    · cases h; exact .inr ⟨_, by simp, rfl⟩
    · cases h; exact .inl ⟨g, _, hg, State.memRead_length _ _ _, rfl, rfl⟩

/-- ENCGEN stores one bundle within its range, or raises an error; the cache may have grown either way. -/
theorem exec_encgen_cases {s t : State} (h : exec .encgen s = .next t) :
    (s.enc.valid = false ∧ t = s.raise .notInitialised) ∨ t = s.raise .addressError
      ∨ ∃ cp' r, coprimeAt s.par.cpMax s.cp s.larg0.toNat = (cp', r)
        ∧ ((∃ m l, r = .ok m ∧ s.enc.valid = true ∧ s.inRange s.larg1.toNat s.enc.bsize
            ∧ l = s.enc.bundle m ∧ l.length = s.enc.bsize / 2 * 2
            ∧ t = { s.completed with cp := cp', mem := s.mem.putAll s.larg1.toNat l })
          ∨ (∃ m, r = .ok m ∧ (s.enc.slices m).any (fun p => decide (2 < minlen p)) = true
            ∧ t = (s.setCp cp').raise .overflow)
          ∨ ∃ e, r = .error e ∧ t = (s.setCp cp').raise e) := by
  simp only [exec, execEncgen] at h
  split at h
  · next hv => cases h; exact .inl ⟨hv, rfl⟩
  · next hv =>
    split at h
    · cases h; exact .inr (.inl rfl)
    · next hr =>
      split at h
      · next cp' e hx => cases h; exact .inr (.inr ⟨cp', _, hx, .inr (.inr ⟨e, rfl, rfl⟩)⟩)
      · next cp' m hx =>
        split at h
        · next ho => cases h; exact .inr (.inr ⟨cp', _, hx, .inr (.inl ⟨m, rfl, ho, rfl⟩)⟩)
        · cases h
          refine .inr (.inr ⟨cp', _, hx, .inl ⟨m, _, rfl, by simpa using hv, ?_, rfl, ?_, rfl⟩⟩)
          · by_contra hc; exact hr (State.outOfRange_of_not_inRange hc)
          · unfold Enc.bundle; rw [flatMap_toBE_length, Enc.slices_length]

/-- DECINIT replaces the decoder whole and clears C, or raises an error. -/
theorem exec_decinit_cases {s t : State} (h : exec .decinit s = .next t) :
    (∃ g, geometry s.par s.larg0.toNat s.larg1.toNat = .ok g
        ∧ t = { s.completed with
            dec := ⟨true, s.larg0.toNat, s.larg1.toNat, g.plen, g.minb, g.hsize, g.nh, []⟩
            flags := s.flags.withC false })
      ∨ ∃ e ∈ [CoreErr.invalidArgument, .dataTooLarge, .capacityExceeded], t = s.raise e := by
  simp only [exec, execDecinit] at h
  split at h
  · next e he =>
    cases h
    refine .inr ⟨e, ?_, rfl⟩
    rw [geometry_eq] at he
    (repeat' split at he) <;> cases he <;> simp
  · next g hg => cases h; exact .inl ⟨g, hg, rfl⟩

/-- DECPUSH stores one bundle of the bundle size in a store with room for it, or raises an error. -/
theorem exec_decpush_cases {s t : State} (h : exec .decpush s = .next t) :
    (∃ bytes, s.dec.valid = true ∧ bytes.length = s.dec.bsize
        ∧ (s.larg0.toNat ∈ s.dec.indices ∨ s.dec.s.length ≠ s.par.maxB)
        ∧ t = { s.completed with
            dec := { s.dec with s := storePut s.larg0.toNat bytes s.dec.s }
            res0 := countWord (storePut s.larg0.toNat bytes s.dec.s).length })
      ∨ ∃ e ∈ [CoreErr.notInitialised, .invalidArgument, .addressError, .capacityExceeded], t = s.raise e := by
  simp only [exec, execDecpush] at h
  split at h
  · cases h; exact .inr ⟨_, by simp, rfl⟩
  · next hv =>
    split at h
    · cases h; exact .inr ⟨_, by simp, rfl⟩
    · next hn =>
      split at h
      · cases h; exact .inr ⟨_, by simp, rfl⟩
      · split at h
        · cases h; exact .inr ⟨_, by simp, rfl⟩
        · next hc =>
          cases h
          refine .inl ⟨_, by simpa using hv, ?_, ?_, rfl⟩
          · rw [State.memRead_length]; exact not_not.1 hn
          · by_cases hi : s.larg0.toNat ∈ s.dec.indices
            · exact .inl hi
            · exact .inr fun hl => hc ⟨hi, hl⟩

/-- DECDONE writes C and RES0 by the moduli it looked up, or raises an error; the cache may have grown either way. -/
theorem exec_decdone_cases {s t : State} (h : exec .decdone s = .next t) :
    (s.dec.valid = false ∧ t = s.raise .notInitialised)
      ∨ ∃ cp' r, coprimesAt s.par.cpMax s.cp s.dec.indices = (cp', r)
        ∧ ((∃ ms, r = .ok ms ∧ t = { s.completed with
              cp := cp'
              flags := s.flags.withC (s.dec.completeWith ms)
              res0 := if s.dec.completeWith ms then 1 else 0 })
          ∨ ∃ e, r = .error e ∧ t = (s.setCp cp').raise e) := by
  simp only [exec, execDecdone] at h
  split at h
  · next hv => cases h; exact .inl ⟨hv, rfl⟩
  · split at h
    · next cp' e hx => cases h; exact .inr ⟨cp', _, hx, .inr ⟨e, rfl, rfl⟩⟩
    · next cp' ms hx => cases h; exact .inr ⟨cp', _, hx, .inl ⟨ms, rfl, rfl⟩⟩

/-- The errors a recovery can raise of itself. -/
theorem recover_error {p : Params} {x : Dec} {ms : List Nat} {e : CoreErr} (h : recover p x ms = .error e) :
    (∃ l, (l = ms ∨ l = ms.dropLast) ∧ coefficients p l = .error e) ∨ e = .reconstructionFailed := by
  unfold recover at h
  cases hf : coefficients p ms with
  | error e' => rw [hf] at h; cases h; exact .inl ⟨ms, .inl rfl, hf⟩
  | ok full =>
    cases hs : coefficients p ms.dropLast with
    | error e' => rw [hf, hs] at h; cases h; exact .inl ⟨_, .inr rfl, hs⟩
    | ok sub =>
      rw [hf, hs] at h
      simp only at h
      rcases recoverHunks_cases (x := x) (full := full) (sub := sub) (hs := List.range x.nh) rfl with ⟨o, k, ho, _⟩ | ho
      · rw [ho] at h; simp at h
      · rw [ho] at h; cases h; exact .inr rfl

/-- DECREC stores at most the declared length within its range, or raises an error; the cache may have grown either way. -/
theorem exec_decrec_cases {s t : State} (h : exec .decrec s = .next t) :
    (s.dec.valid = false ∧ t = s.raise .notInitialised) ∨ t = s.raise .addressError
      ∨ ∃ cp' r, coprimesAt s.par.cpMax s.cp s.dec.indices = (cp', r)
        ∧ ((∃ ms l n, r = .ok ms ∧ s.dec.valid = true ∧ s.inRange s.larg0.toNat s.dec.len
            ∧ recover s.par s.dec ms = .ok (l, n) ∧ l.length ≤ s.dec.len
            ∧ t = { s.completed with
                cp := cp', mem := s.mem.putAll s.larg0.toNat l, res0 := countWord s.dec.len, res1 := countWord n })
          ∨ (∃ ms, r = .ok ms ∧ t = (s.setCp cp').raise .incomplete)
          ∨ (∃ ms e, r = .ok ms ∧ s.dec.valid = true ∧ s.dec.completeWith ms = true
            ∧ recover s.par s.dec ms = .error e ∧ t = (s.setCp cp').raise e)
          ∨ ∃ e, r = .error e ∧ t = (s.setCp cp').raise e) := by
  simp only [exec, execDecrec] at h
  split at h
  · next hv => cases h; exact .inl ⟨hv, rfl⟩
  · next hv =>
    split at h
    · cases h; exact .inr (.inl rfl)
    · next hr =>
      split at h
      · next cp' e hx => cases h; exact .inr (.inr ⟨cp', _, hx, .inr (.inr (.inr ⟨e, rfl, rfl⟩))⟩)
      · next cp' ms hx =>
        split at h
        · cases h; exact .inr (.inr ⟨cp', _, hx, .inr (.inl ⟨ms, rfl, rfl⟩)⟩)
        · next hc =>
          split at h
          · next e he =>
            cases h
            exact .inr (.inr ⟨cp', _, hx, .inr (.inr (.inl ⟨ms, e, rfl, by simpa using hv, by simpa using hc, he, rfl⟩))⟩)
          · next l n he =>
            cases h
            refine .inr (.inr ⟨cp', _, hx, .inl ⟨ms, l, n, rfl, by simpa using hv, ?_, he, ?_, rfl⟩⟩)
            · by_contra hc'; exact hr (State.outOfRange_of_not_inRange hc')
            · rw [(recover_ok he).1]; exact min_le_left _ _

end Sys2Proof.Machine
end

