-- ==== Sys2Proof/Laws/Decode.lean ====
section
/-! SUPPORT. The fields of a command word and of an encoded command (30_encoding.md R81, R85). -/

namespace Sys2Proof

theorem pack_toNat {op : Nat} (h : op < 256) (d a b c : Reg) :
    (pack op d a b c).toNat
      = op * 0x1000000 + d.val * 0x100000 + a.val * 0x10000 + b.val * 0x1000 + c.val * 0x100 := by
  have := d.isLt; have := a.isLt; have := b.isLt; have := c.isLt
  rw [pack, BitVec.toNat_ofNat, Nat.mod_eq_of_lt]; omega

theorem fieldOP_pack {op : Nat} (h : op < 256) (d a b c : Reg) : fieldOP (pack op d a b c) = op := by
  have := d.isLt; have := a.isLt; have := b.isLt; have := c.isLt
  rw [fieldOP, pack_toNat h]; omega

theorem fieldD_pack {op : Nat} (h : op < 256) (d a b c : Reg) : fieldD (pack op d a b c) = d := by
  have := d.isLt; have := a.isLt; have := b.isLt; have := c.isLt
  ext; rw [fieldD, pack_toNat h, Fin.val_ofNat]; omega

theorem fieldA_pack {op : Nat} (h : op < 256) (d a b c : Reg) : fieldA (pack op d a b c) = a := by
  have := d.isLt; have := a.isLt; have := b.isLt; have := c.isLt
  ext; rw [fieldA, pack_toNat h, Fin.val_ofNat]; omega

theorem fieldB_pack {op : Nat} (h : op < 256) (d a b c : Reg) : fieldB (pack op d a b c) = b := by
  have := d.isLt; have := a.isLt; have := b.isLt; have := c.isLt
  ext; rw [fieldB, pack_toNat h, Fin.val_ofNat]; omega

theorem fieldC_pack {op : Nat} (h : op < 256) (d a b c : Reg) : fieldC (pack op d a b c) = c := by
  have := d.isLt; have := a.isLt; have := b.isLt; have := c.isLt
  ext; rw [fieldC, pack_toNat h, Fin.val_ofNat]; omega

theorem fieldZ_pack {op : Nat} (h : op < 256) (d a b c : Reg) : fieldZ (pack op d a b c) = 0 := by
  have := d.isLt; have := a.isLt; have := b.isLt; have := c.isLt
  rw [fieldZ, pack_toNat h]; omega

/-- A word is its opcode, its four register fields and Z. -/
theorem word_fields (w : Word) :
    w.toNat = fieldOP w * 0x1000000 + (fieldD w).val * 0x100000 + (fieldA w).val * 0x10000 + (fieldB w).val * 0x1000
      + (fieldC w).val * 0x100 + fieldZ w := by
  have := w.isLt
  simp only [fieldOP, fieldD, fieldA, fieldB, fieldC, fieldZ, Fin.val_ofNat]
  omega

theorem fieldOP_lt (w : Word) : fieldOP w < 256 := by have := w.isLt; unfold fieldOP; omega

/-- A word whose Z is 0 is the word packed from its fields. -/
theorem eq_pack {w : Word} (h : fieldZ w = 0) : w = pack (fieldOP w) (fieldD w) (fieldA w) (fieldB w) (fieldC w) := by
  apply BitVec.eq_of_toNat_eq
  rw [pack_toNat (fieldOP_lt w), ← Nat.add_zero (_ + _), ← h]
  exact word_fields w

/-- What the check of the unused fields lets through. -/
theorem ifUnusedZero_ok {w : Word} {l : List (Word → Reg)} {i j : Instr} :
    ifUnusedZero w l i = .ok j ↔ fieldZ w = 0 ∧ l.all (fun f => f w == 0) = true ∧ i = j := by
  unfold ifUnusedZero
  by_cases h : fieldZ w = 0 ∧ l.all (fun f => f w == 0) = true
  · rw [if_pos h]; simp [h.1, h.2]
  · rw [if_neg h]
    simp only [reduceCtorEq, false_iff]
    rintro ⟨h1, h2, _⟩; exact h ⟨h1, h2⟩

/-- A word whose OP no row has is refused as unassigned (30_encoding.md R86). -/
theorem decode_unassigned {w : Word} (h : ∀ r ∈ opRows, r.op ≠ fieldOP w) : decode w = .error .unassignedOpcode := by
  simp only [opRows, List.forall_mem_cons] at h
  unfold decode
  generalize hO : fieldOP w = o at *
  split
  case h_32 => rfl
  all_goals (exfalso; omega)

/-- Everything the decoder does with a word whose OP a row has: it reads the command of that row, whose encoding packs the
fields the row uses, unless Z or a field the row does not use has a bit set (30_encoding.md R85, R86). -/
theorem decode_assigned {w : Word} {r : OpRow} (hr : r ∈ opRows) (h : r.op = fieldOP w) :
    ∃ i, encode i = pack r.op (if r.usesD then fieldD w else 0) (if r.usesA then fieldA w else 0)
        (if r.usesB then fieldB w else 0) (if r.usesC then fieldC w else 0)
      ∧ decode w = if fieldZ w = 0 ∧ (r.usesD = false → fieldD w = 0) ∧ (r.usesA = false → fieldA w = 0)
          ∧ (r.usesB = false → fieldB w = 0) ∧ (r.usesC = false → fieldC w = 0) then .ok i
        else .error .nonzeroReserved := by
  simp only [opRows, List.mem_cons, List.not_mem_nil, or_false] at hr
  rcases hr with rfl | rfl | rfl | rfl | rfl | rfl | rfl | rfl | rfl | rfl | rfl | rfl | rfl | rfl | rfl | rfl | rfl
    | rfl | rfl | rfl | rfl | rfl | rfl | rfl | rfl | rfl | rfl | rfl | rfl | rfl | rfl <;>
  (simp only at h
   unfold decode
   rw [← h]
   simp only [ifUnusedZero, List.all_cons, List.all_nil, Bool.and_true, Bool.and_eq_true, beq_iff_eq, forall_true_left,
     Bool.true_eq_false, Bool.false_eq_true, if_true, if_false, false_implies, and_true, true_and]
   refine ⟨_, ?_, rfl⟩
   rfl)

/-- A nibble is 0 when its four bits are. -/
theorem nibble_eq_zero_iff (n k : Nat) : (n / 2^k) % 16 = 0 ↔ ∀ i < 4, n.testBit (k+i) = false := by
  constructor
  · intro h i hi
    have : (n / 2^k % 2^4).testBit i = false := by rw [show (2:Nat)^4 = 16 by rfl, h]; simp
    rw [Nat.testBit_mod_two_pow, Nat.testBit_div_two_pow] at this
    simpa [hi, Nat.add_comm] using this
  · intro h
    rw [show (16:Nat) = 2^4 by rfl]
    apply Nat.eq_of_testBit_eq
    intro i
    rw [Nat.testBit_mod_two_pow, Nat.testBit_div_two_pow]
    by_cases hi : i < 4
    · simp [hi, Nat.add_comm, h i hi]
    · simp [hi]

/-- A low byte is 0 when its eight bits are. -/
theorem lowByte_eq_zero_iff (n : Nat) : n % 0x100 = 0 ↔ ∀ i < 8, n.testBit i = false := by
  constructor
  · intro h i hi
    have : (n % 2^8).testBit i = false := by rw [show (2:Nat)^8 = 0x100 by rfl, h]; simp
    rw [Nat.testBit_mod_two_pow] at this
    simpa [hi] using this
  · intro h
    rw [show (0x100:Nat) = 2^8 by rfl]
    apply Nat.eq_of_testBit_eq
    intro i
    rw [Nat.testBit_mod_two_pow]
    by_cases hi : i < 8
    · simp [hi, h i hi]
    · simp [hi]

/-- A top byte is `op` when its eight bits are those of `op`. -/
theorem topByte_eq_iff (n op : Nat) (hn : n < 2^32) (hop : op < 256) : op = n / 0x1000000 ↔ ∀ i < 8, n.testBit (24+i) = op.testBit i := by
  constructor
  · rintro rfl i hi
    rw [show (0x1000000:Nat) = 2^24 by rfl, Nat.testBit_div_two_pow, Nat.add_comm]
  · intro h
    apply Nat.eq_of_testBit_eq
    intro i
    rw [show (0x1000000:Nat) = 2^24 by rfl, Nat.testBit_div_two_pow]
    by_cases hi : i < 8
    · rw [← h i hi, Nat.add_comm]
    · rw [Nat.testBit_lt_two_pow (x := op), Nat.testBit_lt_two_pow (x := n)]
      · exact lt_of_lt_of_le hn (Nat.pow_le_pow_right (by norm_num) (by omega))
      · exact lt_of_lt_of_le (show op < 2^8 from hop) (Nat.pow_le_pow_right (by norm_num) (by omega))

/-- The bits of a row's mask (30_encoding.md R85). -/
theorem OpRow.mask_bits : ∀ d a b c : Bool, ∀ i < 32, (OpRow.mask ⟨0, d, a, b, c⟩).getLsbD i = decide
    (i < 8 ∨ 24 ≤ i ∨ (20 ≤ i ∧ i < 24 ∧ d = false) ∨ (16 ≤ i ∧ i < 20 ∧ a = false) ∨ (12 ≤ i ∧ i < 16 ∧ b = false) ∨ (8 ≤ i ∧ i < 12 ∧ c = false)) := by
  decide +kernel

/-- What the match and mask test says of the fields of a word (30_encoding.md R85). -/
theorem OpRow.selects_iff {r : OpRow} (hr : r ∈ opRows) (w : Word) :
    r.selects w = true ↔ r.op = fieldOP w ∧ fieldZ w = 0 ∧ (r.usesD = false → fieldD w = 0)
      ∧ (r.usesA = false → fieldA w = 0) ∧ (r.usesB = false → fieldB w = 0) ∧ (r.usesC = false → fieldC w = 0) := by
  have hop : r.op < 256 := by revert r; decide
  have fz : ∀ n : Nat, (Fin.ofNat 16 n = (0 : Reg)) ↔ n % 16 = 0 := fun n => by
    rw [Fin.ext_iff]; simp
  rw [fieldOP, topByte_eq_iff _ _ w.isLt hop]
  simp only [fieldZ, lowByte_eq_zero_iff, fieldD, fieldA, fieldB, fieldC, fz]
  rw [show (0x100000:Nat) = 2^20 by rfl, show (0x10000:Nat) = 2^16 by rfl, show (0x1000:Nat) = 2^12 by rfl, show (0x100:Nat) = 2^8 by rfl]
  simp only [nibble_eq_zero_iff, OpRow.selects, beq_iff_eq, BitVec.testBit_toNat]
  obtain ⟨op, d, a, b, c⟩ := r
  have hw : ∀ x y : Word, x = y ↔ ∀ i < 32, x.getLsbD i = y.getLsbD i := fun x y => ⟨fun h _ _ => by rw [h], fun h => BitVec.eq_of_getLsbD_eq h⟩
  rw [hw]
  have hm : ∀ i < 32, (OpRow.mask ⟨op, d, a, b, c⟩).getLsbD i = decide (i < 8 ∨ 24 ≤ i ∨ (20 ≤ i ∧ i < 24 ∧ d = false) ∨ (16 ≤ i ∧ i < 20 ∧ a = false) ∨ (12 ≤ i ∧ i < 16 ∧ b = false) ∨ (8 ≤ i ∧ i < 12 ∧ c = false)) := by
    exact OpRow.mask_bits d a b c
  have hp : ∀ i < 32, (OpRow.pattern ⟨op, d, a, b, c⟩).getLsbD i = (decide (24 ≤ i) && op.testBit (i - 24)) := by
    intro i hi
    simp only [OpRow.pattern, BitVec.getLsbD_shiftLeft, BitVec.getLsbD_ofNat]
    by_cases h : 24 ≤ i
    · simp [hi, h, show i - 24 < 32 by omega]
    · simp [hi, h]
  simp only [BitVec.getLsbD_and]
  constructor
  · intro H
    replace H : ∀ i < 32, (w.getLsbD i && decide (i < 8 ∨ 24 ≤ i ∨ (20 ≤ i ∧ i < 24 ∧ d = false) ∨ (16 ≤ i ∧ i < 20 ∧ a = false) ∨ (12 ≤ i ∧ i < 16 ∧ b = false) ∨ (8 ≤ i ∧ i < 12 ∧ c = false))) = (decide (24 ≤ i) && op.testBit (i - 24)) := fun i hi => by
      rw [← hm i hi, ← hp i hi]; exact H i hi
    have H' := H
    refine ⟨fun i hi => ?_, fun i hi => ?_, fun hu i hi => ?_, fun hu i hi => ?_, fun hu i hi => ?_, fun hu i hi => ?_⟩
    · have := H' (24 + i) (by omega); simpa using this
    all_goals subst_vars
    · have := H' i (by omega); simpa [hi, show ¬ 24 ≤ i by omega] using this
    · have := H' (20 + i) (by omega); simpa [show 20 + i < 24 by omega, show ¬ 24 ≤ 20 + i by omega] using this
    · have := H' (16 + i) (by omega); simpa [show 16 + i < 20 by omega, show ¬ 24 ≤ 16 + i by omega] using this
    · have := H' (12 + i) (by omega); simpa [show 12 + i < 16 by omega, show ¬ 24 ≤ 12 + i by omega] using this
    · have := H' (8 + i) (by omega); simpa [show 8 + i < 12 by omega, show ¬ 24 ≤ 8 + i by omega] using this
  · rintro ⟨h0, h1, h2, h3, h4, h5⟩ i hi
    rw [hm i hi, hp i hi]
    by_cases c0 : 24 ≤ i
    · have := h0 (i - 24) (by omega); rw [show 24 + (i - 24) = i by omega] at this; simp [c0, this]
    · by_cases c1 : i < 8
      · simp [c0, h1 i c1]
      · by_cases c2 : 20 ≤ i
        · cases d
          · have := h2 rfl (i - 20) (by omega); rw [show 20 + (i - 20) = i by omega] at this; simp [c0, this]
          · simp [c0, c1, show ¬ i < 20 by omega, show ¬ i < 16 by omega, show ¬ i < 12 by omega]
        · by_cases c3 : 16 ≤ i
          · cases a
            · have := h3 rfl (i - 16) (by omega); rw [show 16 + (i - 16) = i by omega] at this; simp [c0, this]
            · simp [c0, c1, c2, show ¬ i < 16 by omega, show ¬ i < 12 by omega]
          · by_cases c4 : 12 ≤ i
            · cases b
              · have := h4 rfl (i - 12) (by omega); rw [show 12 + (i - 12) = i by omega] at this; simp [c0, this]
              · simp [c0, c1, c2, c3, show ¬ i < 12 by omega]
            · cases c
              · have := h5 rfl (i - 8) (by omega); rw [show 8 + (i - 8) = i by omega] at this; simp [c0, this]
              · simp [c0, c1, c2, c3, c4]

end Sys2Proof
end

