-- ==== Sys2Proof/Laws/PerInstr.lean ====
section
/-! SUPPORT. The statements made of every command, one lemma per constructor of `Instr`. -/

namespace Sys2Proof.Laws

/-- The word that encodes a command has a Z of 0 (30_encoding.md R81). -/
def ReservedBitsZero.Statement (i : Instr) : Prop := fieldZ (encode i) = 0

theorem ReservedBitsZero.nop : ReservedBitsZero.Statement .nop := fieldZ_pack (by decide) _ _ _ _

theorem ReservedBitsZero.ldi (d : Reg) : ReservedBitsZero.Statement (.ldi d) := fieldZ_pack (by decide) _ _ _ _

theorem ReservedBitsZero.mov (d a : Reg) : ReservedBitsZero.Statement (.mov d a) := fieldZ_pack (by decide) _ _ _ _

theorem ReservedBitsZero.add (d a b : Reg) : ReservedBitsZero.Statement (.add d a b) := fieldZ_pack (by decide) _ _ _ _

theorem ReservedBitsZero.sub (d a b : Reg) : ReservedBitsZero.Statement (.sub d a b) := fieldZ_pack (by decide) _ _ _ _

theorem ReservedBitsZero.mul (d a b : Reg) : ReservedBitsZero.Statement (.mul d a b) := fieldZ_pack (by decide) _ _ _ _

theorem ReservedBitsZero.rem (d a b : Reg) : ReservedBitsZero.Statement (.rem d a b) := fieldZ_pack (by decide) _ _ _ _

theorem ReservedBitsZero.mod (d a b : Reg) : ReservedBitsZero.Statement (.mod d a b) := fieldZ_pack (by decide) _ _ _ _

theorem ReservedBitsZero.gcd (d a b : Reg) : ReservedBitsZero.Statement (.gcd d a b) := fieldZ_pack (by decide) _ _ _ _

theorem ReservedBitsZero.minv (d a b : Reg) : ReservedBitsZero.Statement (.minv d a b) := fieldZ_pack (by decide) _ _ _ _

theorem ReservedBitsZero.pow (d : Reg) : ReservedBitsZero.Statement (.pow d) := fieldZ_pack (by decide) _ _ _ _

theorem ReservedBitsZero.mpow (d a b c : Reg) : ReservedBitsZero.Statement (.mpow d a b c) := fieldZ_pack (by decide) _ _ _ _

theorem ReservedBitsZero.cmp (a b : Reg) : ReservedBitsZero.Statement (.cmp a b) := fieldZ_pack (by decide) _ _ _ _

theorem ReservedBitsZero.shl (d a : Reg) : ReservedBitsZero.Statement (.shl d a) := fieldZ_pack (by decide) _ _ _ _

theorem ReservedBitsZero.shr (d a : Reg) : ReservedBitsZero.Statement (.shr d a) := fieldZ_pack (by decide) _ _ _ _

theorem ReservedBitsZero.ldbe (d : Reg) : ReservedBitsZero.Statement (.ldbe d) := fieldZ_pack (by decide) _ _ _ _

theorem ReservedBitsZero.stbe (a : Reg) : ReservedBitsZero.Statement (.stbe a) := fieldZ_pack (by decide) _ _ _ _

theorem ReservedBitsZero.stbew (a : Reg) : ReservedBitsZero.Statement (.stbew a) := fieldZ_pack (by decide) _ _ _ _

theorem ReservedBitsZero.cpget (d : Reg) : ReservedBitsZero.Statement (.cpget d) := fieldZ_pack (by decide) _ _ _ _

theorem ReservedBitsZero.crtcoef : ReservedBitsZero.Statement .crtcoef := fieldZ_pack (by decide) _ _ _ _

theorem ReservedBitsZero.crtcomb (d : Reg) : ReservedBitsZero.Statement (.crtcomb d) := fieldZ_pack (by decide) _ _ _ _

theorem ReservedBitsZero.crtw (d : Reg) : ReservedBitsZero.Statement (.crtw d) := fieldZ_pack (by decide) _ _ _ _

theorem ReservedBitsZero.crtm (d : Reg) : ReservedBitsZero.Statement (.crtm d) := fieldZ_pack (by decide) _ _ _ _

theorem ReservedBitsZero.crtbase (d : Reg) : ReservedBitsZero.Statement (.crtbase d) := fieldZ_pack (by decide) _ _ _ _

theorem ReservedBitsZero.encinit : ReservedBitsZero.Statement .encinit := fieldZ_pack (by decide) _ _ _ _

theorem ReservedBitsZero.encgen : ReservedBitsZero.Statement .encgen := fieldZ_pack (by decide) _ _ _ _

theorem ReservedBitsZero.enchunk (d : Reg) : ReservedBitsZero.Statement (.enchunk d) := fieldZ_pack (by decide) _ _ _ _

theorem ReservedBitsZero.decinit : ReservedBitsZero.Statement .decinit := fieldZ_pack (by decide) _ _ _ _

theorem ReservedBitsZero.decpush : ReservedBitsZero.Statement .decpush := fieldZ_pack (by decide) _ _ _ _

theorem ReservedBitsZero.decdone : ReservedBitsZero.Statement .decdone := fieldZ_pack (by decide) _ _ _ _

theorem ReservedBitsZero.decrec : ReservedBitsZero.Statement .decrec := fieldZ_pack (by decide) _ _ _ _

end Sys2Proof.Laws
end

