-- ==== Sys2Proof/Tests/Slice0.lean ====
section
/-! SUPPORT. Tests. Expected values are those of spec/95_test_vectors.md (its vector or program is named beside each test),
of the encoding tables of 30_encoding.md, and of the constraints of 00_scope.md R8. After them, one witness for the
hypotheses of each statement. -/

namespace Sys2Proof.Tests

open Sys2Proof Sys2Proof.Machine

-- Each kernel evaluation waits for all earlier ones: without this option every one of them holds a thread meanwhile.
set_option Elab.async false

/-! ## Well-formedness: each check refuses an ill-formed term -/

/-- 30_encoding.md R86, and V-ENC-W9 to V-ENC-W14: an unassigned OP, Z, and each register field in a command that does not
use it. -/
theorem test_ill_formed_words :
    [0x03000000, 0xFF000000, 0x10312001, 0x00000080, 0x19156000, 0x00100000, 0x01110000, 0x01101000, 0x10312100,
      0x5A000F00].all (fun (w : Nat) => !legalWord (BitVec.ofNat 32 w) && decodeTableWord 32 w == none) = true := by
  decide +kernel

/-- The unassigned ranges of 30_encoding.md R86 at their ends, and the assigned neighbours. -/
theorem test_unassigned_ranges :
    [0x03, 0x0F, 0x1C, 0x1F, 0x23, 0x2F, 0x31, 0x3F, 0x45, 0x4F, 0x53, 0x57, 0x5C, 0xFF].all
        (fun (op : Nat) => decodeTableWord 32 (op * 0x1000000) == none)
      && [0x02, 0x10, 0x1B, 0x20, 0x22, 0x30, 0x40, 0x44, 0x50, 0x52, 0x58, 0x5B].all
        (fun (op : Nat) => (decodeTableWord 32 (op * 0x1000000)).isSome) = true := by decide +kernel

/-- 00_scope.md R8: the defaults are well formed, and so is an unbounded `MAXW`; one parameter out of its range is not. -/
theorem test_params_wf :
    Params.default.wf = true ∧ { Params.default with maxW := none }.wf = true
      ∧ { Params.default with maxW := some 51, maxB := 101 }.wf = true
      ∧ [{ Params.default with maxW := some 49, maxB := 90 }, { Params.default with maxW := some 127 },
          { Params.default with dmemSize := 0 }, { Params.default with dmemSize := 2 ^ 31 + 1 },
          { Params.default with maxB := 100 }, { Params.default with maxK := 0 }, { Params.default with maxH := 0 },
          { Params.default with maxH := 2 ^ 24 + 1 }, { Params.default with cpMax := 0 }].all
        (fun p => !p.wf) = true := by decide +kernel

/-- The match and mask of every row of spec/opcode_table.json. -/
theorem test_op_table : opRows.map (fun r => (r.pattern, r.mask)) = [
    (0x00000000, 0xFFFFFFFF), (0x01000000, 0xFF0FFFFF), (0x02000000, 0xFF00FFFF), (0x10000000, 0xFF000FFF),
    (0x11000000, 0xFF000FFF), (0x12000000, 0xFF000FFF), (0x13000000, 0xFF000FFF), (0x14000000, 0xFF000FFF),
    (0x15000000, 0xFF000FFF), (0x16000000, 0xFF000FFF), (0x17000000, 0xFF0FFFFF), (0x18000000, 0xFF0000FF),
    (0x19000000, 0xFFF00FFF), (0x1A000000, 0xFF00FFFF), (0x1B000000, 0xFF00FFFF), (0x20000000, 0xFF0FFFFF),
    (0x21000000, 0xFFF0FFFF), (0x22000000, 0xFFF0FFFF), (0x30000000, 0xFF0FFFFF), (0x40000000, 0xFFFFFFFF),
    (0x41000000, 0xFF0FFFFF), (0x42000000, 0xFF0FFFFF), (0x43000000, 0xFF0FFFFF), (0x44000000, 0xFF0FFFFF),
    (0x50000000, 0xFFFFFFFF), (0x51000000, 0xFFFFFFFF), (0x52000000, 0xFF0FFFFF), (0x58000000, 0xFFFFFFFF),
    (0x59000000, 0xFFFFFFFF), (0x5A000000, 0xFFFFFFFF), (0x5B000000, 0xFFFFFFFF)] := by decide +kernel

/-! ## Decoding: a word of every command, bit by bit (30_encoding.md R81, R84) -/

theorem test_decode_data_movement :
    [(0b00000000_0000_0000_0000_0000_00000000, Instr.nop),
      (0b00000001_0001_0000_0000_0000_00000000, Instr.ldi 1),
      (0b00000010_0010_0001_0000_0000_00000000, Instr.mov 2 1)].all
      (fun (e : Nat × Instr) => decodeTableWord 32 e.1 == some e.2) = true := by decide +kernel

theorem test_decode_arithmetic :
    [(0b00010000_0011_0001_0010_0000_00000000, Instr.add 3 1 2),
      (0b00010001_1111_1110_1101_0000_00000000, Instr.sub 15 14 13),
      (0b00010010_0100_0011_0001_0000_00000000, Instr.mul 4 3 1),
      (0b00010011_0101_0110_0111_0000_00000000, Instr.rem 5 6 7),
      (0b00010100_0101_0100_0010_0000_00000000, Instr.mod 5 4 2),
      (0b00010101_0100_0001_0000_0000_00000000, Instr.gcd 4 1 0),
      (0b00010110_0011_0001_0010_0000_00000000, Instr.minv 3 1 2),
      (0b00010111_1001_0000_0000_0000_00000000, Instr.pow 9),
      (0b00011000_0100_0001_0010_0011_00000000, Instr.mpow 4 1 2 3),
      (0b00011001_0000_0101_0110_0000_00000000, Instr.cmp 5 6),
      (0b00011010_1010_1011_0000_0000_00000000, Instr.shl 10 11),
      (0b00011011_1100_1101_0000_0000_00000000, Instr.shr 12 13)].all
      (fun (e : Nat × Instr) => decodeTableWord 32 e.1 == some e.2) = true := by decide +kernel

theorem test_decode_bytes :
    [(0b00100000_1000_0000_0000_0000_00000000, Instr.ldbe 8),
      (0b00100001_0000_0101_0000_0000_00000000, Instr.stbe 5),
      (0b00100010_0000_0001_0000_0000_00000000, Instr.stbew 1)].all
      (fun (e : Nat × Instr) => decodeTableWord 32 e.1 == some e.2) = true := by decide +kernel

theorem test_decode_coprime :
    [(0b00110000_0111_0000_0000_0000_00000000, Instr.cpget 7)].all
      (fun (e : Nat × Instr) => decodeTableWord 32 e.1 == some e.2) = true := by decide +kernel

theorem test_decode_crt :
    [(0b01000000_0000_0000_0000_0000_00000000, Instr.crtcoef),
      (0b01000001_0111_0000_0000_0000_00000000, Instr.crtcomb 7),
      (0b01000010_0010_0000_0000_0000_00000000, Instr.crtw 2),
      (0b01000011_0011_0000_0000_0000_00000000, Instr.crtm 3),
      (0b01000100_0110_0000_0000_0000_00000000, Instr.crtbase 6)].all
      (fun (e : Nat × Instr) => decodeTableWord 32 e.1 == some e.2) = true := by decide +kernel

theorem test_decode_codec :
    [(0b01010000_0000_0000_0000_0000_00000000, Instr.encinit),
      (0b01010001_0000_0000_0000_0000_00000000, Instr.encgen),
      (0b01010010_0001_0000_0000_0000_00000000, Instr.enchunk 1),
      (0b01011000_0000_0000_0000_0000_00000000, Instr.decinit),
      (0b01011001_0000_0000_0000_0000_00000000, Instr.decpush),
      (0b01011010_0000_0000_0000_0000_00000000, Instr.decdone),
      (0b01011011_0000_0000_0000_0000_00000000, Instr.decrec)].all
      (fun (e : Nat × Instr) => decodeTableWord 32 e.1 == some e.2) = true := by decide +kernel

/-! ## One step -/

/-- Reset with `b1`, `b2`, ... loaded, the latched arguments given, and bytes in DMEM. -/
def mk (vs : List Int) (a0 a1 a2 : Word := 0) (mem : Memory := []) : State :=
  { State.reset with regs := Vector.ofFn (fun i => (0 :: vs).getD i 0), larg0 := a0, larg1 := a1, larg2 := a2, mem := mem }

/-- The state a command leaves. -/
def run (i : Instr) (s : State) : State := match exec i s with | .next t => t | _ => s

/-- The big register `j` after a command, or the error code. -/
def result (i : Instr) (s : State) (j : Reg) : Except Nat Int :=
  if (run i s).status.err then .error (run i s).status.ecode.toNat else .ok ((run i s).reg j)

/-- Bytes at consecutive addresses. -/
def bytesAt (a : Nat) (l : List Byte) : Memory := l.zipIdx.map (fun x => (a + x.2, x.1))

/-- "Hello" at 0, and the bundles of V-GEN-1 to V-GEN-4. -/
def hello : List Byte := [0x48, 0x65, 0x6C, 0x6C, 0x6F]
def bundle0 : List Byte := [0xB4, 0xD1, 0x6F, 0x00]
def bundle1 : List Byte := [0xFD, 0x36, 0xDE, 0x00]
def bundle2 : List Byte := [0x45, 0x9E, 0x4D, 0x03]

/-- The encoder after V-ENC-1. -/
def helloEnc : Enc := ⟨true, 5, 4, 8, 2, 4, 2, [0x48656C6C, 0x6F000000]⟩

/-- The decoder after DECINIT with ARG0 = 5 and ARG1 = 4, holding a store. -/
def helloDec (store : List (Nat × List Byte)) : Dec := ⟨true, 5, 4, 8, 2, 4, 2, store⟩

/-- The CRT table after V-CRT-1. -/
def crt357 : Crt := ⟨[⟨3, 70⟩, ⟨5, 21⟩, ⟨7, 15⟩], 105⟩

/-- V-ENC-W1, V-EX-1. -/
theorem test_nop : (run .nop State.reset).readWindow 0x08 4 = 2 := by decide +kernel

/-- V-ALU-13, V-ALU-73. -/
theorem test_ldi : result (.ldi 1) (mk [] 0xFFFFFFFF) 1 = .ok 4294967295 := by decide +kernel
theorem test_mov : result (.mov 2 1) (mk [-5]) 2 = .ok (-5) := by decide +kernel

/-- V-ALU-1, V-ALU-3. -/
theorem test_add : result (.add 3 1 2) (mk [0xFFFFFFFF, 1]) 3 = .ok 4294967296
    ∧ result (.add 1 1 1) (mk [-3]) 1 = .ok (-6) := by decide +kernel

/-- V-ALU-4, V-ALU-6. -/
theorem test_sub : result (.sub 3 1 2) (mk [3, 5]) 3 = .ok (-2)
    ∧ result (.sub 3 1 2) (mk [-2 ^ 32, 2 ^ 32]) 3 = .ok (-8589934592) := by decide +kernel

/-- V-ALU-7, V-ALU-10, V-ALU-11. -/
theorem test_mul : result (.mul 3 1 2) (mk [-3, -4]) 3 = .ok 12
    ∧ result (.mul 3 1 2) (mk [2 ^ 4095, 2 ^ 4096]) 3 = .ok (2 ^ 8191)
    ∧ result (.mul 3 1 2) (mk [2 ^ 4096, 2 ^ 4096]) 3 = .error 8 := by decide +kernel

/-- V-ALU-14 to V-ALU-17. -/
theorem test_rem : [(7, 2), (-7, 2), (7, -2), (-7, -2), (5, 0)].map (fun x => result (.rem 3 1 2) (mk [x.1, x.2]) 3)
    = [.ok 1, .ok (-1), .ok 1, .ok (-1), .error 1] := by decide +kernel
theorem test_mod : [(7, 2), (-7, 2), (7, -2), (-6, 3), (5, 0)].map (fun x => result (.mod 3 1 2) (mk [x.1, x.2]) 3)
    = [.ok 1, .ok 1, .error 1, .ok 0, .error 1] := by decide +kernel

/-- V-ALU-18 to V-ALU-22. -/
theorem test_gcd : [(0, 5), (5, 0), (0, 0), (-12, 18)].map (fun x => result (.gcd 3 1 2) (mk [x.1, x.2]) 3)
    = [.ok 5, .ok 5, .ok 0, .ok 6] := by decide +kernel

/-- V-ALU-23 to V-ALU-30, V-ALU-32, V-EX-13. -/
theorem test_minv :
    [(3, 11), (-3, 11), (0, 1), (2, 4), (3, 0), (3, -7), (0, 7), (0, 0), (2 ^ 64 + 1, 65521)].map
        (fun x => result (.minv 3 1 2) (mk [x.1, x.2]) 3)
      = [.ok 4, .ok 7, .ok 0, .error 2, .error 1, .error 1, .error 2, .error 1, .ok 36229] := by decide +kernel

/-- V-ALU-33 to V-ALU-38, V-ALU-41, V-ALU-42. -/
theorem test_pow :
    [(0, 0), (0, 5), (7, 0), (1, 0xFFFFFFFF), (0, 0xFFFFFFFF), (2, 32), (2, 8191), (2, 8192)].map
        (fun (x : Word × Word) => result (.pow 1) (mk [] x.1 x.2) 1)
      = [.ok 1, .ok 0, .ok 1, .ok 1, .ok 0, .ok 4294967296, .ok (2 ^ 8191), .error 8] := by decide +kernel

/-- V-ALU-44 to V-ALU-52. -/
theorem test_mpow :
    [(4, 13, 497), (-2, 3, 5), (0, 0, 1), (0, 0, 7), (5, -1, 7), (5, 3, 0), (2, 10 ^ 30, 1000000007), (3, 65534, 65535)].map
        (fun x => result (.mpow 4 1 2 3) (mk [x.1, x.2.1, x.2.2]) 4)
      = [.ok 445, .ok 2, .ok 0, .ok 1, .error 1, .error 1, .ok 312267046, .ok 31554] := by decide +kernel

/-- V-ALU-53 to V-ALU-55, V-ALU-57. -/
theorem test_cmp :
    [(-5, -3), (2 ^ 32, 2), (0, 0), (2 ^ 32, 2 ^ 32 + 1)].map
        (fun x => ((run (.cmp 1 2) (mk [x.1, x.2])).readWindow 0x0C 4, (run (.cmp 1 2) (mk [x.1, x.2])).res0))
      = [(1, 0xFFFFFFFF), (4, 1), (2, 0), (1, 0xFFFFFFFF)] := by decide +kernel

/-- V-ALU-59 to V-ALU-65. -/
theorem test_shl :
    [(3, 32), (-5, 0xFFFFFFFF), (1, 0xFFFFFFFF), (0, 100000), (1, 8191), (1, 8192), (-1, 8191)].map
        (fun (x : Int × Word) => result (.shl 2 1) (mk [x.1] x.2) 2)
      = [.ok 12884901888, .ok (-2), .ok 0, .ok 0, .ok (2 ^ 8191), .error 8, .ok (-2 ^ 8191)] := by decide +kernel

/-- V-ALU-67 to V-ALU-72. -/
theorem test_shr :
    [(-5, 1), (5, 3), (5, 0xFFFFFFFF), (0, 0x80000000), (1, 0x80000000), (2 ^ 100, 0x7FFFFFFF)].map
        (fun (x : Int × Word) => result (.shr 2 1) (mk [x.1] x.2) 2)
      = [.ok (-2), .ok 0, .ok 10, .ok 0, .error 8, .ok 0] := by decide +kernel

/-- V-BYTE-1, V-BYTE-4, V-BYTE-5. -/
theorem test_ldbe : result (.ldbe 1) (mk [] 16 5 0 (bytesAt 16 [1, 0, 0, 0, 0])) 1 = .ok 4294967296
    ∧ result (.ldbe 1) (mk [] 65535 2) 1 = .error 11 ∧ result (.ldbe 1) (mk [] 65536 0) 1 = .ok 0 := by decide +kernel

/-- V-BYTE-9. -/
theorem test_stbe : (run (.stbe 1) (mk [258] 0 8 0 (bytesAt 0 (List.replicate 8 0xAA)))).memRead 0 8
      = [1, 2, 0xAA, 0xAA, 0xAA, 0xAA, 0xAA, 0xAA]
    ∧ (run (.stbe 1) (mk [258] 0 8)).res0 = 2 := by decide +kernel
/-- V-BYTE-10a to V-BYTE-10c. -/
theorem test_stbe_errors : result (.stbe 1) (mk [-1] 0 8) 1 = .error 1 ∧ result (.stbe 1) (mk [65536] 0 2) 1 = .error 4
    ∧ result (.stbe 1) (mk [-1] 65535 2) 1 = .error 11 := by decide +kernel

/-- V-BYTE-11, V-BYTE-15. -/
theorem test_stbew : (run (.stbew 1) (mk [0x4D] 4 2 0 (bytesAt 0 (List.replicate 8 0xAA)))).memRead 0 8
      = [0xAA, 0xAA, 0xAA, 0xAA, 0, 0x4D, 0xAA, 0xAA]
    ∧ (run (.stbew 1) (mk [0x4D] 4 2)).res0 = 2 ∧ (run (.stbew 1) (mk [0] 4 3)).mem = [(4, 0), (5, 0), (6, 0)] := by
  decide +kernel
/-- V-BYTE-13, V-BYTE-16. -/
theorem test_stbew_errors : result (.stbew 1) (mk [1] 0 0) 1 = .error 4 ∧ result (.stbew 1) (mk [-5] 0 8) 1 = .error 1 := by
  decide +kernel

/-- V-CP-4. -/
theorem test_cpget : result (.cpget 1) (mk [] 3) 1 = .ok 65531 ∧ (run (.cpget 1) (mk [] 3)).res0 = 65531
    ∧ (run (.cpget 1) (mk [] 3)).cp = [65535, 65534, 65533, 65531] := by decide +kernel
/-- V-CP-10. -/
theorem test_cpget_full : result (.cpget 1) { mk [] 3 with par := { Params.default with cpMax := 3 } } 1 = .error 8
    ∧ (run (.cpget 1) { mk [] 3 with par := { Params.default with cpMax := 3 } }).cp = [65535, 65534, 65533] := by
  decide +kernel

/-- V-CRT-1. -/
theorem test_crtcoef : (run .crtcoef (mk [] 3 0 2 (bytesAt 0 [0, 3, 0, 5, 0, 7]))).crt = crt357
    ∧ (run .crtcoef (mk [] 3 0 2 (bytesAt 0 [0, 3, 0, 5, 0, 7]))).res0 = 7 := by decide +kernel
/-- V-CRT-5, V-CRT-6, V-CRT-10, V-CRT-11. -/
theorem test_crtcoef_errors : result .crtcoef (mk [] 2 0 1 (bytesAt 0 [6, 4])) 0 = .error 2
    ∧ result .crtcoef (mk [] 3 0 1 (bytesAt 0 [3, 0, 5])) 0 = .error 1 ∧ result .crtcoef (mk [] 257 0 2) 0 = .error 8
    ∧ result .crtcoef (mk [] 2 65534 2) 0 = .error 11 := by decide +kernel

/-- V-CRT-15, V-CRT-18. -/
theorem test_crtcomb : result (.crtcomb 1) { mk [] 3 100 2 (bytesAt 100 [0, 5, 0, 8, 0, 9]) with crt := crt357 } 1 = .ok 23
    ∧ result (.crtcomb 1) { mk [] 2 100 2 (bytesAt 100 [0, 2, 0, 3]) with crt := crt357 } 1 = .error 1 := by decide +kernel

/-- V-CRT-21, V-CRT-22. -/
theorem test_crtw : result (.crtw 2) { mk [] 1 with crt := crt357 } 2 = .ok 21 ∧ result (.crtw 2) (mk []) 2 = .error 1 := by
  decide +kernel
theorem test_crtm : result (.crtm 3) { mk [] 2 with crt := crt357 } 3 = .ok 7
    ∧ result (.crtm 3) { mk [] 3 with crt := crt357 } 3 = .error 1 := by decide +kernel
theorem test_crtbase : result (.crtbase 3) { mk [] with crt := crt357 } 3 = .ok 105 ∧ result (.crtbase 3) (mk []) 3 = .ok 1 := by
  decide +kernel

/-- V-ENC-1. -/
theorem test_encinit : (run .encinit (mk [] 0 5 4 (bytesAt 0 hello))).enc = helloEnc
    ∧ (run .encinit (mk [] 0 5 4 (bytesAt 0 hello))).res0 = 2 ∧ (run .encinit (mk [] 0 5 4 (bytesAt 0 hello))).res1 = 2 := by
  decide +kernel
/-- V-ENC-2, V-ENC-5, V-ENC-7, V-ENC-9. -/
theorem test_encinit_errors : result .encinit (mk [] 0 5 3) 0 = .error 1 ∧ result .encinit (mk [] 0 202 2) 0 = .error 6
    ∧ result .encinit (mk [] 0 1026 1026) 0 = .error 8 ∧ result .encinit (mk [] 65533 5 4) 0 = .error 11 := by decide +kernel

/-- V-GEN-3, V-GEN-6, V-GEN-8. -/
theorem test_encgen : (run .encgen { mk [] 2 100 with enc := helloEnc }).memRead 100 4 = bundle2
    ∧ result .encgen { mk [] 0 65533 with enc := helloEnc } 0 = .error 11 ∧ result .encgen (mk []) 0 = .error 10 := by
  decide +kernel

/-- V-ENC-11. -/
theorem test_enchunk : result (.enchunk 1) { mk [] 1 with enc := helloEnc } 1 = .ok 0x6F000000
    ∧ result (.enchunk 1) { mk [] 2 with enc := helloEnc } 1 = .error 1 := by decide +kernel

/-- P4, V-DEC-0. -/
theorem test_decinit : (run .decinit (mk [] 5 4)).dec = helloDec [] ∧ result .decinit (mk [] 0 4) 0 = .error 1
    ∧ result .decinit (mk [] 202 2) 0 = .error 6 := by decide +kernel

/-- V-DEC-3: the second push under index 0 replaces the first. -/
theorem test_decpush : (run .decpush { mk [] 0 100 4 (bytesAt 100 bundle0) with dec := helloDec [(0, bundle1)] }).dec
      = helloDec [(0, bundle0)]
    ∧ (run .decpush { mk [] 0 100 4 (bytesAt 100 bundle0) with dec := helloDec [(0, bundle1)] }).res0 = 1 := by decide +kernel
/-- V-DEC-2, V-DEC-2a, V-DEC-12. -/
theorem test_decpush_errors : result .decpush { mk [] 0 100 3 with dec := helloDec [] } 0 = .error 1
    ∧ result .decpush { mk [] 0 65534 4 with dec := helloDec [] } 0 = .error 11 ∧ result .decpush (mk []) 0 = .error 10 := by
  decide +kernel

/-- V-DEC-4, V-DEC-4a. -/
theorem test_decdone : (run .decdone { mk [] with dec := helloDec [(0, bundle0), (1, bundle1)] }).res0 = 0
    ∧ (run .decdone { mk [] with dec := helloDec [(0, bundle0), (1, bundle1), (2, bundle2)] }).res0 = 1
    ∧ (run .decdone { mk [] with dec := helloDec [(0, bundle0), (1, bundle1), (2, bundle2)] }).flags.c = true := by
  decide +kernel

/-- V-DEC-8: both hunks take the retry. -/
theorem test_decrec :
    (run .decrec { mk [] 32 with dec := helloDec [(0, bundle0), (1, bundle1), (2, [0x12, 0x34, 0x56, 0x78])] }).memRead 32 5
      = hello
    ∧ (run .decrec { mk [] 32 with dec := helloDec [(0, bundle0), (1, bundle1), (2, [0x12, 0x34, 0x56, 0x78])] }).res1 = 2 := by
  decide +kernel
/-- V-DEC-9, V-DEC-4b. -/
theorem test_decrec_errors :
    result .decrec { mk [] 32 with dec := helloDec [(0, [0xFC, 0x37, 0, 0]), (1, bundle1), (2, bundle2)] } 0 = .error 5
    ∧ result .decrec { mk [] 32 with dec := helloDec [(0, bundle0), (1, bundle1)] } 0 = .error 9 := by decide +kernel

/-- V-EX-5, V-EX-7: a CMD write while BUSY, as STATUS then reads, and its clearing. -/
theorem test_drop : ((State.reset.writeWindow 0x10 4 0x10312000).writeWindow 0x10 4 0).readWindow 0x08 4 = 9
    ∧ (((State.reset.writeWindow 0x10 4 0x10312000).writeWindow 0x10 4 0).writeWindow 0x08 4 8).readWindow 0x08 4 = 1 := by
  decide +kernel

/-- The word stored for the next step runs: V-EX-2's MOD by 0, and V-EX-3's illegal word. -/
theorem test_fetch_word :
    [0x14312000, 0x14312001].map (fun w => match step (State.reset.withFetchWord 32 w) with
      | .next t => t.readWindow 0x08 4 | _ => 0) = [0x106, 0x706] := by decide +kernel

/-! ## Witnesses: a state and operands that meet the hypotheses of each statement, clause by clause -/

/-- The greatest value of the default capacity, `2^8192 - 1`. -/
def top : Int := 2 ^ 8192 - 1

/-- A command whose meaning is one `finish` answers the state `run` names. -/
theorem exec_eq_run {i : Instr} {s : State} {r : Except CoreErr Result} (h : exec i s = s.finish r) :
    exec i s = .next (run i s) := by
  obtain ⟨t, ht⟩ := State.finish_next s r
  simp only [run, h, ht]

theorem exec_encinit_run (s : State) : exec .encinit s = .next (run .encinit s) :=
  exec_eq_run (by unfold exec execEncinit; rfl)

theorem exec_decpush_run (s : State) : exec .decpush s = .next (run .decpush s) :=
  exec_eq_run (by unfold exec execDecpush; rfl)

/-- The state a step leaves. -/
def stepped (s : State) : State := match step s with | .next t => t | _ => s

/-- BUSY with a command word, and a script. -/
def busyWith (w : Word) (script : List Event) : State := { State.reset.accept w with script := script }

theorem witness_EncodeOfDecode : decode 0x18412300 = .ok (.mpow 4 1 2 3) := by decide +kernel

theorem witness_IllegalWords : 0x03 < 256 ∧ 0xFF < 256 := by decide

theorem witness_StepRunsDecodedCommand :
    ((busyWith 0x10312000 []).status.busy = true ∧ decode (busyWith 0x10312000 []).lcmd = .ok (.add 3 1 2)
        ∧ (busyWith 0x10312000 []).script = [])
      ∧ (busyWith 0x5B000000 [.engine, .powerOn]).status.busy = true
        ∧ decode (busyWith 0x5B000000 [.engine, .powerOn]).lcmd = .ok .decrec
        ∧ (busyWith 0x5B000000 [.engine, .powerOn]).script = .engine :: [.powerOn] := by decide +kernel

theorem witness_IllegalCommandCompletes :
    (({ State.reset with script := [.regWrite 0x10 4 0x14312001] } : State).script = .regWrite 0x10 4 0x14312001 :: []
        ∧ ({ State.reset with script := [.regWrite 0x10 4 0x14312001] } : State).status.busy = false)
      ∧ (busyWith 0x14312001 []).script = [] ∧ (busyWith 0x14312001 []).status.busy = true
        ∧ decode (busyWith 0x14312001 []).lcmd = .error .nonzeroReserved := by decide +kernel

theorem witness_IdleRetainsState : (State.reset.status.busy = false ∧ State.reset.script = [])
    ∧ ({ State.reset with script := [.engine] } : State).status.busy = false
      ∧ ({ State.reset with script := [.engine] } : State).script = .engine :: [] := by decide +kernel

theorem witness_EveryCommandCompletes : (busyWith 0x00000000 []).script = [] ∧ (busyWith 0x00000000 []).status.busy = true
    ∧ step (busyWith 0x00000000 []) = .next (State.completed (busyWith 0x00000000 [])) := ⟨rfl, rfl, rfl⟩

theorem witness_DataMovementResult : (mk [] 0xFFFFFFFF).par.wf = true
    ∧ fits (mk [top]).par ((mk [top]).reg 1) = true := by decide +kernel

theorem witness_SumDifferenceProductResult :
    fits (mk [top - 1, 1]).par ((mk [top - 1, 1]).reg 1 + (mk [top - 1, 1]).reg 2) = true
      ∧ fits (mk [top, 1]).par ((mk [top, 1]).reg 1 + (mk [top, 1]).reg 2) = false
      ∧ fits (mk [-top, 0]).par ((mk [-top, 0]).reg 1 - (mk [-top, 0]).reg 2) = true
      ∧ fits (mk [-top, 1]).par ((mk [-top, 1]).reg 1 - (mk [-top, 1]).reg 2) = false
      ∧ fits (mk [2 ^ 4095, 2 ^ 4096]).par ((mk [2 ^ 4095, 2 ^ 4096]).reg 1 * (mk [2 ^ 4095, 2 ^ 4096]).reg 2) = true
      ∧ fits (mk [2 ^ 4096, 2 ^ 4096]).par ((mk [2 ^ 4096, 2 ^ 4096]).reg 1 * (mk [2 ^ 4096, 2 ^ 4096]).reg 2) = false
      ∧ (mk [-3, 0]).reg 2 = 0 := by decide +kernel

theorem witness_RemainderAndModulusResult : (mk [5, 0]).reg 2 = 0
    ∧ ((mk [-top, -2]).reg 2 ≠ 0 ∧ fits (mk [-top, -2]).par ((mk [-top, -2]).reg 1) = true)
    ∧ (mk [7, 0]).reg 2 ≤ 0 ∧ (mk [7, -2]).reg 2 ≤ 0
    ∧ (0 < (mk [7, 1]).reg 2 ∧ fits (mk [7, 1]).par ((mk [7, 1]).reg 2) = true)
    ∧ 0 < (mk [-7, top]).reg 2 ∧ fits (mk [-7, top]).par ((mk [-7, top]).reg 2) = true := by decide +kernel

theorem witness_GcdResult : fits (mk [-12, top]).par ((mk [-12, top]).reg 1) = true
    ∧ fits (mk [-12, top]).par ((mk [-12, top]).reg 2) = true := by decide +kernel

theorem witness_InverseResult : (mk [3, 0]).reg 2 ≤ 0
    ∧ (0 < (mk [2, 4]).reg 2 ∧ Int.gcd ((mk [2, 4]).reg 1) ((mk [2, 4]).reg 2) ≠ 1)
    ∧ 0 < (mk [0, 1]).reg 2 ∧ Int.gcd ((mk [0, 1]).reg 1) ((mk [0, 1]).reg 2) = 1
      ∧ fits (mk [0, 1]).par ((mk [0, 1]).reg 2) = true := by decide +kernel

theorem witness_PowerResult :
    fits (mk [] 2 8191).par (((mk [] 2 8191).larg0.toNat ^ (mk [] 2 8191).larg1.toNat : Nat) : Int) = true
      ∧ fits (mk [] 2 8192).par (((mk [] 2 8192).larg0.toNat ^ (mk [] 2 8192).larg1.toNat : Nat) : Int) = false := by
  decide +kernel

theorem witness_ModularPowerResult : ((mk [5, 3, 0]).reg 3 ≤ 0 ∨ (mk [5, 3, 0]).reg 2 < 0)
    ∧ ((mk [5, -1, 7]).reg 3 ≤ 0 ∨ (mk [5, -1, 7]).reg 2 < 0)
    ∧ 0 < (mk [-2, 0, 1]).reg 3 ∧ 0 ≤ (mk [-2, 0, 1]).reg 2 ∧ fits (mk [-2, 0, 1]).par ((mk [-2, 0, 1]).reg 3) = true := by
  decide +kernel

theorem witness_CompareResult : (mk [-5, -3]).reg 1 < (mk [-5, -3]).reg 2 ∧ (mk [0, 0]).reg 1 = (mk [0, 0]).reg 2
    ∧ (mk [0, -1]).reg 2 < (mk [0, -1]).reg 1 := by decide +kernel

theorem witness_ShiftResult :
    ((mk [1] 8191).larg0.toInt = (8191 : Nat) ∧ fits (mk [1] 8191).par ((mk [1] 8191).reg 1 * 2 ^ 8191) = true
        ∧ fits (mk [1] 8191).par ((mk [1] 8191).reg 1) = true)
      ∧ ((mk [1] 8192).larg0.toInt = (8192 : Nat) ∧ fits (mk [1] 8192).par ((mk [1] 8192).reg 1 * 2 ^ 8192) = false)
      ∧ ((mk [-5] 0xFFFFFFFF).larg0.toInt = -(1 : Nat) ∧ fits (mk [-5] 0xFFFFFFFF).par ((mk [-5] 0xFFFFFFFF).reg 1 * 2 ^ 1) = true
        ∧ fits (mk [-5] 0xFFFFFFFF).par ((mk [-5] 0xFFFFFFFF).reg 1) = true)
      ∧ (mk [top] 0xFFFFFFFF).larg0.toInt = -(1 : Nat)
        ∧ fits (mk [top] 0xFFFFFFFF).par ((mk [top] 0xFFFFFFFF).reg 1 * 2 ^ 1) = false
      ∧ (mk [top] 0).larg0.toInt = (0 : Nat) ∧ (mk [top] 0).larg0.toInt = -(0 : Nat)
        ∧ fits (mk [top] 0).par ((mk [top] 0).reg 1 * 2 ^ 0) = true := by decide +kernel

/-- `n` bytes of FF at 0 on a machine of 2-word capacity, 8 bytes, so that a wide import stays short here. -/
def ones (n : Nat) (a0 a1 a2 : Word) : State :=
  { mk [] a0 a1 a2 (bytesAt 0 (List.replicate n 0xFF)) with par := { Params.default with maxW := some 2 } }

/-- The number in DMEM is what the import of the same bytes gives. -/
theorem numberAt_fromBE (s : State) (a n : Nat) : s.numberAt a n = fromBE (s.memRead a n) := State.numberAt_eq s a n

theorem witness_ImportResult :
    ¬ (mk [] 65535 2).inRange 65535 2
      ∧ ((mk [] 65536 0).inRange 65536 0 ∧ fits (mk [] 65536 0).par ((mk [] 65536 0).numberAt 65536 0 : Nat) = true)
      ∧ ((ones 8 0 8 0).inRange 0 8 ∧ fits (ones 8 0 8 0).par ((ones 8 0 8 0).numberAt 0 8 : Nat) = true)
      ∧ (ones 9 0 9 0).inRange 0 9 ∧ fits (ones 9 0 9 0).par ((ones 9 0 9 0).numberAt 0 9 : Nat) = false := by
  simp only [numberAt_fromBE]; unfold State.inRange; decide +kernel

theorem witness_MinimalExportResult :
    ¬ (mk [-1] 65535 2).inRange 65535 2 ∧ ((mk [-1] 0 8).inRange 0 8 ∧ (mk [-1] 0 8).reg 1 < 0)
      ∧ ((mk [65536] 0 2).inRange 0 2 ∧ 0 ≤ (mk [65536] 0 2).reg 1 ∧ (mk [65536] 0 2).larg1.toNat < minlen ((mk [65536] 0 2).reg 1))
      ∧ ((mk [0] 65536 0).inRange 65536 0 ∧ 0 ≤ (mk [0] 65536 0).reg 1
        ∧ minlen ((mk [0] 65536 0).reg 1) ≤ (mk [0] 65536 0).larg1.toNat)
      ∧ (mk [65535] 65534 2).inRange 65534 2 ∧ 0 < (mk [65535] 65534 2).reg 1
        ∧ minlen ((mk [65535] 65534 2).reg 1) ≤ (mk [65535] 65534 2).larg1.toNat := by
  unfold State.inRange; decide +kernel

/-- STBEW's hypotheses are STBE's. -/
theorem witness_FixedWidthExportResult :
    ¬ (mk [-1] 65535 2).inRange 65535 2 ∧ ((mk [-5] 0 8).inRange 0 8 ∧ (mk [-5] 0 8).reg 1 < 0)
      ∧ ((mk [1] 0 0).inRange 0 0 ∧ 0 ≤ (mk [1] 0 0).reg 1 ∧ (mk [1] 0 0).larg1.toNat < minlen ((mk [1] 0 0).reg 1))
      ∧ ((mk [0] 0 0).inRange 0 0 ∧ 0 ≤ (mk [0] 0 0).reg 1 ∧ minlen ((mk [0] 0 0).reg 1) ≤ (mk [0] 0 0).larg1.toNat)
      ∧ (mk [0x4D] 65534 2).inRange 65534 2 ∧ 0 ≤ (mk [0x4D] 65534 2).reg 1
        ∧ minlen ((mk [0x4D] 65534 2).reg 1) ≤ (mk [0x4D] 65534 2).larg1.toNat := by
  unfold State.inRange; decide +kernel

theorem witness_ExportImportRoundTrip :
    (0 ≤ (mk [65535] 65534 2).reg 1 ∧ fits (mk [65535] 65534 2).par ((mk [65535] 65534 2).reg 1) = true
        ∧ minlen ((mk [65535] 65534 2).reg 1) ≤ (mk [65535] 65534 2).larg1.toNat ∧ (mk [65535] 65534 2).inRange 65534 2)
      ∧ (mk [] 0 3 0 (bytesAt 0 [0, 0, 1])).inRange 0 3 ∧ (mk [] 0 3 0 (bytesAt 0 [0, 0, 1])).inRange 65533 3 ∧ 3 ≤ 3
        ∧ fits (mk [] 0 3 0 (bytesAt 0 [0, 0, 1])).par ((mk [] 0 3 0 (bytesAt 0 [0, 0, 1])).numberAt 0 3 : Nat) = true := by
  simp only [numberAt_fromBE]; unfold State.inRange; decide +kernel

/-- The prefix of the sequence that CPGET of 3 leaves. -/
theorem cacheSound_four : CacheSound [65535, 65534, 65533, 65531] :=
  (coprimeAt_spec (cpMax := 6493) (i := 3) (cp := [65535]) (r := .ok 65531) (by decide +kernel)).2.2.2.1 cacheSound_seed

theorem isModulus_0 : IsModulus 0 65535 := ⟨_, cacheSound_four, rfl⟩
theorem isModulus_1 : IsModulus 1 65534 := ⟨_, cacheSound_four, rfl⟩
theorem isModulus_2 : IsModulus 2 65533 := ⟨_, cacheSound_four, rfl⟩
theorem isModulus_3 : IsModulus 3 65531 := ⟨_, cacheSound_four, rfl⟩

/-- The sequence falls strictly from 65535 and is positive, so it has no entry at 65535. -/
theorem no_modulus_65535 : ∀ m, ¬ IsModulus 65535 m := by
  rintro m ⟨cp, h, hm⟩
  have hlt : 65535 < cp.length := (List.getElem?_eq_some_iff.1 hm).1
  have key : ∀ i (hi : i < cp.length), cp[i] + i ≤ 65535 := by
    intro i
    induction i with
    | zero => intro hi; have := (h.range (List.getElem_mem hi)).2; omega
    | succ i ih =>
      intro hi
      have h1 := ih (by omega)
      have h2 := (List.pairwise_iff_getElem.1 h.2.1 i (i + 1) (by omega) hi (by omega)).1
      omega
  have h1 := key 65535 hlt
  have h2 := (h.range (List.getElem_mem hlt)).1
  omega

theorem witness_ModulusIsFunctionOfIndex : IsModulus 3 65531 ∧ IsModulus 3 65531 := ⟨isModulus_3, isModulus_3⟩

theorem witness_ModuliCoprimeAndSmall : 0 < 3 ∧ IsModulus 0 65535 ∧ IsModulus 3 65531 :=
  ⟨by decide, isModulus_0, isModulus_3⟩

/-- Reset, and arguments, have a sound cache. -/
theorem mk_cacheSound (vs : List Int) (a0 a1 a2 : Word) (mem : Memory) : (mk vs a0 a1 a2 mem).CacheSound :=
  ⟨cacheSound_seed, by show 1 ≤ 6493; decide⟩

theorem witness_ModulusLookupResult :
    ((mk [] 0).CacheSound ∧ (mk [] 0).par.wf = true ∧ IsModulus (mk [] 0).larg0.toNat 65535 ∧ (mk [] 0).larg0.toNat < 6493)
      ∧ (mk [] 3).CacheSound ∧ (mk [] 3).par.wf = true ∧ IsModulus (mk [] 3).larg0.toNat 65531
        ∧ (mk [] 3).larg0.toNat < (mk [] 3).par.cpMax :=
  ⟨⟨mk_cacheSound _ _ _ _ _, rfl, isModulus_0, by decide +kernel⟩, mk_cacheSound _ _ _ _ _, rfl, isModulus_3, by decide +kernel⟩

theorem witness_CoefficientSetResult : 0 ∈ [3, 0, 5]
    ∧ (0 ∉ [2 ^ 8192] ∧ fits Params.default ([2 ^ 8192].prod : Nat) = false)
    ∧ (0 ∉ [6, 4] ∧ fits Params.default ([6, 4].prod : Nat) = true ∧ ¬ [6, 4].Pairwise Nat.Coprime)
    ∧ (0 ∉ ([] : List Nat) ∧ fits Params.default (([] : List Nat).prod : Nat) = true ∧ ([] : List Nat).Pairwise Nat.Coprime)
    ∧ 0 ∉ [1, 5] ∧ fits Params.default ([1, 5].prod : Nat) = true ∧ [1, 5].Pairwise Nat.Coprime := by
  decide +kernel

theorem witness_CombineIsUniqueSolution : coefficients Params.default [3, 5, 7] = .ok ([70, 21, 15], 105)
    ∧ [5, 8, 9].length = [3, 5, 7].length ∧ 0 < 3 ∧ 2 < [3, 5, 7].length := by decide +kernel

/-- The moduli CRTCOEF reads. -/
def moduliIn (s : State) : List Nat :=
  (List.range s.larg0.toNat).map (fun k => fromBE (s.memRead (s.larg1.toNat + k * s.larg2.toNat) s.larg2.toNat))

theorem moduliIn_eq (s : State) : moduliIn s =
    (List.range s.larg0.toNat).map (fun k => s.numberAt (s.larg1.toNat + k * s.larg2.toNat) s.larg2.toNat) := by
  simp only [moduliIn, numberAt_fromBE]

theorem witness_CoefficientCommandResult :
    (mk [] 257 0 2).par.maxK < (mk [] 257 0 2).larg0.toNat
      ∧ ((mk [] 2 65534 2).larg0.toNat ≤ (mk [] 2 65534 2).par.maxK ∧ ¬ (mk [] 2 65534 2).inRange 65534 (2 * 2))
      ∧ (∃ m ∈ moduliIn (ones 9 1 0 9), fits (ones 9 1 0 9).par (m : Nat) = false)
      ∧ ((∀ m ∈ moduliIn (mk [] 1 0 0), fits Params.default (m : Nat) = true) ∧ 0 ∈ moduliIn (mk [] 1 0 0))
      ∧ ((∀ m ∈ moduliIn (ones 8 2 0 4), fits (ones 8 2 0 4).par (m : Nat) = true) ∧ 0 ∉ moduliIn (ones 8 2 0 4)
        ∧ fits (ones 8 2 0 4).par ((moduliIn (ones 8 2 0 4)).prod : Nat) = true)
      ∧ ((∀ m ∈ moduliIn (ones 10 2 0 5), fits (ones 10 2 0 5).par (m : Nat) = true) ∧ 0 ∉ moduliIn (ones 10 2 0 5)
        ∧ fits (ones 10 2 0 5).par ((moduliIn (ones 10 2 0 5)).prod : Nat) = false)
      ∧ (moduliIn (mk [] 2 0 1 (bytesAt 0 [6, 4])) = [6, 4] ∧ 0 ∉ [6, 4] ∧ fits Params.default ([6, 4].prod : Nat) = true
        ∧ ¬ [6, 4].Pairwise Nat.Coprime)
      ∧ (mk [] 3 65530 2 (bytesAt 65530 [0, 3, 0, 5, 0, 7])).inRange 65530 (3 * 2)
        ∧ moduliIn (mk [] 3 65530 2 (bytesAt 65530 [0, 3, 0, 5, 0, 7])) = [3, 5, 7] ∧ 0 ∉ [3, 5, 7]
        ∧ fits Params.default ([3, 5, 7].prod : Nat) = true ∧ [3, 5, 7].Pairwise Nat.Coprime := by
  unfold State.inRange; decide +kernel

/-- V-CRT-1's table, with the arguments of CRTCOMB. -/
def withCrt (a0 a1 a2 : Word) (mem : Memory) : State := { mk [] a0 a1 a2 mem with crt := crt357 }

theorem withCrt_sound (a0 a1 a2 : Word) (mem : Memory) : (withCrt a0 a1 a2 mem).CrtSound := ⟨by show 3 ≤ 256; decide, by
    show coefficients Params.default [3, 5, 7] = .ok ([70, 21, 15], 105); decide +kernel⟩

theorem witness_CombineCommandResult :
    (withCrt 2 100 2 []).larg0.toNat ≠ (withCrt 2 100 2 []).crt.entries.length
      ∧ ((withCrt 3 65531 2 []).larg0.toNat = (withCrt 3 65531 2 []).crt.entries.length
        ∧ ¬ (withCrt 3 65531 2 []).inRange 65531 (3 * 2))
      ∧ (({ ones 9 3 0 9 with crt := crt357 } : State).inRange 0 (3 * 9)
        ∧ fits (ones 9 3 0 9).par (({ ones 9 3 0 9 with crt := crt357 } : State).numberAt (0 + 0 * 9) 9 : Nat)
          = false)
      ∧ ((withCrt 3 65530 2 (bytesAt 65530 [0, 5, 0, 8, 0, 9])).inRange 65530 (3 * 2)
        ∧ ∀ k < 3, fits Params.default ((withCrt 3 65530 2 (bytesAt 65530 [0, 5, 0, 8, 0, 9])).numberAt (65530 + k * 2) 2 : Nat)
          = true)
      ∧ (withCrt 3 65530 2 (bytesAt 65530 [0, 5, 0, 8, 0, 9])).CrtSound
        ∧ crt357.entries[2]? = some ⟨7, 15⟩ := by
  refine ⟨by decide +kernel, ?_, ?_, ?_, withCrt_sound _ _ _ _, rfl⟩
  all_goals (try simp only [numberAt_fromBE]); unfold State.inRange; decide +kernel

theorem witness_TableReadResult :
    (withCrt 3 0 0 []).crt.entries.length ≤ (withCrt 3 0 0 []).larg0.toNat
      ∧ ((withCrt 2 0 0 []).crt.entries[(withCrt 2 0 0 []).larg0.toNat]? = some ⟨7, 15⟩
        ∧ fits Params.default ((15 : Nat) : Int) = true ∧ fits Params.default ((7 : Nat) : Int) = true)
      ∧ fits (withCrt 2 0 0 []).par ((withCrt 2 0 0 []).crt.base : Nat) = true := by decide +kernel

theorem witness_GeometryResult : (0 = 0 ∨ 0 % 2 = 1) ∧ (3 = 0 ∨ 3 % 2 = 1)
    ∧ (0 < 2 ∧ 2 % 2 = 0 ∧ 0 < 201 ∧ 100 * 2 < 201)
    ∧ (0 < 1026 ∧ 1026 % 2 = 0 ∧ 1026 ≤ 100 * 1026 ∧ Params.default.maxH < 1026 / 2)
    ∧ 0 < 200 ∧ 200 ≤ 100 * 2 ∧ 2 / 2 ≤ Params.default.maxH := by decide

theorem witness_EncoderInitResult :
    ((0 : Nat) < 2 ∧ 2 % 2 = 0 ∧ 0 < 202 ∧ 100 < (202 + 2 - 1) / 2)
      ∧ ((1026 + 1026 - 1) / 1026 ≤ 100 ∧ (mk [] 0 1026 1026).par.maxH < 1026 / 2)
      ∧ ((5 + 4 - 1) / 4 ≤ 100 ∧ 4 / 2 ≤ (mk [] 65532 5 4).par.maxH ∧ ¬ (mk [] 65532 5 4).inRange 65532 5)
      ∧ (200 + 2 - 1) / 2 ≤ 100 ∧ 2 / 2 ≤ (mk [] 65336 200 2).par.maxH ∧ (mk [] 65336 200 2).inRange 65336 200
        ∧ 2 = (mk [] 65336 200 2).larg2.toNat ∧ 200 = (mk [] 65336 200 2).larg1.toNat := by
  unfold State.inRange; decide +kernel

/-- A state with V-ENC-1's encoder, and one with a decoder. -/
def withEnc (a0 a1 : Word) : State := { mk [] a0 a1 with enc := helloEnc }
def withDec (a0 a1 a2 : Word) (store : List (Nat × List Byte)) : State := { mk [] a0 a1 a2 with dec := helloDec store }

theorem withEnc_sound (a0 a1 : Word) : (withEnc a0 a1).EncSound := by
  refine ⟨?_, rfl, ?_⟩
  · show geometry Params.default 5 4 = .ok ⟨8, 2, 4, 2⟩; decide +kernel
  · show ∀ v ∈ [0x48656C6C, 0x6F000000], v < 256 ^ 4; decide +kernel

theorem withEnc_cacheSound (a0 a1 : Word) : (withEnc a0 a1).CacheSound := mk_cacheSound [] a0 a1 0 []

theorem withDec_cacheSound (a0 a1 a2 : Word) (store : List (Nat × List Byte)) : (withDec a0 a1 a2 store).CacheSound :=
  mk_cacheSound [] a0 a1 a2 []

theorem witness_EncoderGenerateResult : (mk []).enc.valid = false
    ∧ ((withEnc 0 65533).enc.valid = true ∧ ¬ (withEnc 0 65533).inRange 65533 4)
    ∧ (withEnc 3 65532).enc.valid = true ∧ (withEnc 3 65532).inRange 65532 4 ∧ (withEnc 3 65532).CacheSound
      ∧ IsModulus (withEnc 3 65532).larg0.toNat 65531 ∧ (withEnc 3 65532).larg0.toNat < (withEnc 3 65532).par.cpMax := by
  refine ⟨rfl, ⟨rfl, ?_⟩, rfl, ?_, withEnc_cacheSound _ _, isModulus_3, by decide +kernel⟩ <;> unfold State.inRange <;>
    decide +kernel

theorem witness_HunkReadResult : (mk []).enc.valid = false
    ∧ ((withEnc 2 0).enc.valid = true ∧ (withEnc 2 0).enc.nh ≤ (withEnc 2 0).larg0.toNat)
    ∧ (withEnc 1 0).enc.valid = true ∧ (withEnc 1 0).larg0.toNat < (withEnc 1 0).enc.nh ∧ (withEnc 1 0).EncSound
      ∧ (withEnc 1 0).par.wf = true := ⟨rfl, by decide +kernel, rfl, by decide +kernel, withEnc_sound _ _, rfl⟩

theorem witness_DecoderInitResult :
    ((0 : Nat) < 2 ∧ 2 % 2 = 0 ∧ 0 < 201 ∧ 100 < (201 + 2 - 1) / 2)
      ∧ ((1026 + 1026 - 1) / 1026 ≤ 100 ∧ (mk [] 1026 1026).par.maxH < 1026 / 2)
      ∧ (1024 + 1024 - 1) / 1024 ≤ 100 ∧ 1024 / 2 ≤ (mk [] 1024 1024).par.maxH := by decide +kernel

/-- The bundles 0, 1 and 2 of "Hello", and the first two of them. -/
def three : List (Nat × List Byte) := [(0, bundle0), (1, bundle1), (2, bundle2)]
def two : List (Nat × List Byte) := [(0, bundle0), (1, bundle1)]

theorem withDec_sound (a0 a1 a2 : Word) {store : List (Nat × List Byte)}
    (h : store.Pairwise (fun x y => x.1 < y.1) ∧ store.length ≤ 256 ∧ ∀ e ∈ store, e.1 < 2 ^ 32 ∧ e.2.length = 4) :
    (withDec a0 a1 a2 store).DecSound :=
  ⟨by show geometry Params.default 5 4 = .ok ⟨8, 2, 4, 2⟩; decide +kernel, h⟩

/-- A full store: three bundles on a machine with MAXB = 3. -/
def full (a0 : Word) : State := { withDec a0 65532 4 three with par := { Params.default with maxB := 3 } }

theorem full_sound (a0 : Word) : (full a0).DecSound :=
  ⟨by show geometry Params.default 5 4 = .ok ⟨8, 2, 4, 2⟩; decide +kernel, by
    show three.Pairwise (fun x y => x.1 < y.1) ∧ three.length ≤ 3 ∧ ∀ e ∈ three, e.1 < 2 ^ 32 ∧ e.2.length = 4
    decide +kernel⟩

theorem witness_BundlePushResult : (mk []).dec.valid = false
    ∧ ((withDec 0 0 3 []).dec.valid = true ∧ (withDec 0 0 3 []).larg2.toNat ≠ (withDec 0 0 3 []).dec.bsize)
    ∧ ((withDec 0 65533 4 []).larg2.toNat = (withDec 0 65533 4 []).dec.bsize ∧ ¬ (withDec 0 65533 4 []).inRange 65533 4)
    ∧ ((full 3).inRange 65532 4 ∧ (full 3).DecSound ∧ 3 ∉ (full 3).dec.indices ∧ (full 3).dec.s.length = (full 3).par.maxB)
    ∧ ((full 2).DecSound ∧ 2 ∈ (full 2).dec.indices)
    ∧ (withDec 0 65532 4 []).dec.s.length < (withDec 0 65532 4 []).par.maxB ∧ (withDec 0 65532 4 []).DecSound := by
  refine ⟨rfl, by decide +kernel, ⟨rfl, ?_⟩, ⟨?_, full_sound _, by decide +kernel, by decide +kernel⟩,
    ⟨full_sound _, by decide +kernel⟩, by decide +kernel, withDec_sound _ _ _ (by decide +kernel)⟩ <;>
    unfold State.inRange <;> decide +kernel

theorem storeModuli_two (a0 a1 a2 : Word) : (withDec a0 a1 a2 two).storeModuli [65535, 65534] :=
  .cons ⟨isModulus_0, by show 0 < 6493; decide⟩ (.cons ⟨isModulus_1, by show 1 < 6493; decide⟩ .nil)

theorem storeModuli_three (a0 a1 a2 : Word) (x y z : List Byte) :
    (withDec a0 a1 a2 [(0, x), (1, y), (2, z)]).storeModuli [65535, 65534, 65533] :=
  .cons ⟨isModulus_0, by show 0 < 6493; decide⟩ (.cons ⟨isModulus_1, by show 1 < 6493; decide⟩
    (.cons ⟨isModulus_2, by show 2 < 6493; decide⟩ .nil))

theorem witness_CompletenessResult : (mk []).dec.valid = false
    ∧ ((withDec 0 0 0 []).dec.valid = true ∧ (withDec 0 0 0 []).CacheSound ∧ (withDec 0 0 0 []).storeModuli []
      ∧ [].prod ≤ 65536 ^ (withDec 0 0 0 []).dec.minb)
    ∧ ((withDec 0 0 0 two).CacheSound ∧ (withDec 0 0 0 two).storeModuli [65535, 65534]
      ∧ [65535, 65534].prod ≤ 65536 ^ (withDec 0 0 0 two).dec.minb)
    ∧ (withDec 0 0 0 three).CacheSound ∧ (withDec 0 0 0 three).storeModuli [65535, 65534, 65533]
      ∧ 65536 ^ (withDec 0 0 0 three).dec.minb < [65535, 65534, 65533].prod :=
  ⟨rfl, ⟨rfl, withDec_cacheSound _ _ _ _, .nil, by decide +kernel⟩,
    ⟨withDec_cacheSound _ _ _ _, storeModuli_two _ _ _, by decide +kernel⟩, withDec_cacheSound _ _ _ _,
    storeModuli_three _ _ _ _ _ _, by decide +kernel⟩

/-- A cache of 3 entries at most, and one with room for every index below 70000. -/
def smallCache (s : State) : State := { s with par := { s.par with cpMax := 3 } }
def largeCache (s : State) : State := { s with par := { s.par with cpMax := 70000 } }

theorem witness_ModulusLookupFailure :
    ((smallCache (mk [] 3)).CacheSound ∧ (smallCache (mk [] 3)).par.cpMax ≤ (smallCache (mk [] 3)).larg0.toNat)
      ∧ ((largeCache (mk [] 65535)).CacheSound ∧ ∀ m, ¬ IsModulus (largeCache (mk [] 65535)).larg0.toNat m)
      ∧ ((smallCache (withEnc 3 65532)).CacheSound ∧ (smallCache (withEnc 3 65532)).enc.valid = true
        ∧ (smallCache (withEnc 3 65532)).inRange 65532 (smallCache (withEnc 3 65532)).enc.bsize
        ∧ (smallCache (withEnc 3 65532)).par.cpMax ≤ (smallCache (withEnc 3 65532)).larg0.toNat)
      ∧ ((smallCache (withDec 65531 0 0 [(3, bundle0)])).CacheSound
        ∧ (smallCache (withDec 65531 0 0 [(3, bundle0)])).dec.valid = true
        ∧ (smallCache (withDec 65531 0 0 [(3, bundle0)])).inRange 65531 (smallCache (withDec 65531 0 0 [(3, bundle0)])).dec.len
        ∧ ∃ j ∈ (smallCache (withDec 65531 0 0 [(3, bundle0)])).dec.indices,
          (smallCache (withDec 65531 0 0 [(3, bundle0)])).par.cpMax ≤ j)
      ∧ (largeCache (withDec 0 0 0 [(65535, bundle0)])).CacheSound
        ∧ ∃ j ∈ (largeCache (withDec 0 0 0 [(65535, bundle0)])).dec.indices, ∀ m, ¬ IsModulus j m := by
  have hs : ∀ s : State, s.cp = [65535] → (smallCache s).CacheSound := fun s h =>
    ⟨h ▸ cacheSound_seed, by show s.cp.length ≤ 3; rw [h]; decide⟩
  have hl : ∀ s : State, s.cp = [65535] → (largeCache s).CacheSound := fun s h =>
    ⟨h ▸ cacheSound_seed, by show s.cp.length ≤ 70000; rw [h]; decide⟩
  refine ⟨⟨hs _ rfl, by decide +kernel⟩, ⟨hl _ rfl, no_modulus_65535⟩, ⟨hs _ rfl, rfl, ?_, by decide +kernel⟩,
    ⟨hs _ rfl, rfl, ?_, 3, by decide +kernel, by decide +kernel⟩, hl _ rfl, 65535, by decide +kernel, no_modulus_65535⟩ <;>
    unfold State.inRange <;> decide +kernel

/-- The hunks of "Hello", and the values V-DEC-9's full combination and its retry give. -/
def helloHunk (h : Nat) : Nat := if h = 0 then 0x48656C6C else 0x6F000000
def badHunk (h : Nat) : Nat := if h = 0 then 0x23B295E7429E else 0
def badRetry (h : Nat) : Nat := if h = 0 then 0xFFFB38 else 0

/-- V-DEC-9's bundle 0, with slices of 0 for hunk 1 throughout, and V-DEC-8's bundle 2. -/
def damaged : List (Nat × List Byte) := [(0, [0xFC, 0x37, 0, 0]), (1, [0xFD, 0x36, 0, 0]), (2, [0x45, 0x9E, 0, 0])]

theorem combinesTo_of_all {bundles : List (List Byte)} {ms : List Nat} {nh : Nat} {x : Nat → Nat}
    (h : (List.range nh).all (fun h => decide (x h < ms.prod) && (List.range ms.length).all (fun k =>
      x h % ms.getD k 0 == sliceOf (bundles.getD k []) h % ms.getD k 0)) = true) : CombinesTo bundles ms nh x := by
  intro j hj
  have := List.all_eq_true.1 h j (List.mem_range.2 hj)
  simp only [Bool.and_eq_true, decide_eq_true_eq, List.all_eq_true, List.mem_range, beq_iff_eq] at this
  exact this

theorem witness_ReconstructionResult : (mk []).dec.valid = false
    ∧ ((withDec 65532 0 0 two).dec.valid = true ∧ ¬ (withDec 65532 0 0 two).inRange 65532 (withDec 65532 0 0 two).dec.len)
    ∧ ((withDec 65531 0 0 two).inRange 65531 (withDec 65531 0 0 two).dec.len ∧ (withDec 65531 0 0 two).CacheSound
      ∧ (withDec 65531 0 0 two).storeModuli [65535, 65534] ∧ [65535, 65534].prod ≤ 65536 ^ 2)
    ∧ ((withDec 32 0 0 three).inRange 32 5 ∧ (withDec 32 0 0 three).storeModuli [65535, 65534, 65533]
      ∧ 65536 ^ 2 < [65535, 65534, 65533].prod ∧ (withDec 32 0 0 three).DecSound
      ∧ CombinesTo (three.map Prod.snd) [65535, 65534, 65533] 2 helloHunk
      ∧ CombinesTo (three.map Prod.snd).dropLast [65535, 65534, 65533].dropLast 2 helloHunk
      ∧ ∀ h < 2, minlen (helloHunk h) ≤ 4 ∨ minlen (helloHunk h) = 4)
    ∧ (withDec 32 0 0 damaged).storeModuli [65535, 65534, 65533] ∧ (withDec 32 0 0 damaged).DecSound
      ∧ CombinesTo (damaged.map Prod.snd) [65535, 65534, 65533] 2 badHunk
      ∧ CombinesTo (damaged.map Prod.snd).dropLast [65535, 65534, 65533].dropLast 2 badRetry
      ∧ ∃ h < 2, 4 < minlen (badHunk h) ∧ minlen (badRetry h) ≠ 4 := by
  refine ⟨rfl, ⟨rfl, ?_⟩, ⟨?_, withDec_cacheSound _ _ _ _, storeModuli_two _ _ _, by decide +kernel⟩,
    ⟨?_, storeModuli_three _ _ _ _ _ _, by decide +kernel, withDec_sound _ _ _ (by decide +kernel),
      combinesTo_of_all (by decide +kernel), combinesTo_of_all (by decide +kernel), by decide +kernel⟩,
    storeModuli_three _ _ _ _ _ _, withDec_sound _ _ _ (by decide +kernel), combinesTo_of_all (by decide +kernel),
    combinesTo_of_all (by decide +kernel), 0, by decide +kernel⟩ <;> unfold State.inRange <;> decide +kernel

/-- The source buffer's state, and a state whose store holds bundles of its encoder. -/
def source : State := mk [] 0 5 4 (bytesAt 0 hello)
def sink : State := { withDec 32 0 0 three with enc := (run .encinit source).enc }

theorem witness_ReconstructionRoundTrip : exec .encinit source = .next (run .encinit source)
    ∧ (run .encinit source).status.err = false ∧ sink.enc = (run .encinit source).enc ∧ sink.dec.valid = true
    ∧ sink.dec.len = source.larg1.toNat ∧ sink.dec.bsize = source.larg2.toNat ∧ sink.DecSound ∧ sink.CacheSound
    ∧ sink.par.wf = true ∧ sink.BundlesConsistent ∧ sink.storeModuli [65535, 65534, 65533]
    ∧ 65536 ^ sink.dec.minb < [65535, 65534, 65533].prod ∧ sink.inRange sink.larg0.toNat sink.dec.len := by
  refine ⟨exec_encinit_run _, by decide +kernel, rfl, rfl, by decide +kernel, by decide +kernel,
    withDec_sound 32 0 0 (by decide +kernel), withDec_cacheSound 32 0 0 three, by decide +kernel, ?_,
    storeModuli_three 32 0 0 _ _ _, by decide +kernel, by unfold State.inRange; decide +kernel⟩
  intro e he
  have he : e ∈ three := he
  simp only [three, List.mem_cons, List.not_mem_nil, or_false] at he
  rcases he with rfl | rfl | rfl
  · exact ⟨65535, isModulus_0, by decide +kernel, by decide +kernel⟩
  · exact ⟨65534, isModulus_1, by decide +kernel, by decide +kernel⟩
  · exact ⟨65533, isModulus_2, by decide +kernel, by decide +kernel⟩

theorem witness_CompletenessIsMonotone : (withDec 3 65532 4 three).storeModuli [65535, 65534, 65533]
    ∧ 65536 ^ (withDec 3 65532 4 three).dec.minb < [65535, 65534, 65533].prod
    ∧ (∃ m, IsModulus (withDec 3 65532 4 three).larg0.toNat m)
    ∧ (withDec 3 65532 4 three).larg0.toNat < (withDec 3 65532 4 three).par.cpMax
    ∧ exec .decpush (withDec 3 65532 4 three) = .next (run .decpush (withDec 3 65532 4 three)) :=
  ⟨storeModuli_three _ _ _ _ _ _, by decide +kernel, ⟨_, isModulus_3⟩, by decide +kernel, exec_decpush_run _⟩

theorem witness_RegisterAndMemoryFrame :
    (exec (.add 3 1 2) (mk [1, 2]) = .next (run (.add 3 1 2) (mk [1, 2])) ∧ destination (.add 3 1 2) ≠ some 4
        ∧ storeRange (mk [1, 2]) (.add 3 1 2) = none)
      ∧ exec (.stbew 1) (mk [0x4D] 65534 2) = .next (run (.stbew 1) (mk [0x4D] 65534 2))
        ∧ storeRange (mk [0x4D] 65534 2) (.stbew 1) = some (65534, 2) :=
  ⟨⟨exec_eq_run (by unfold exec execAdd; rfl), by decide, by decide +kernel⟩,
    exec_eq_run (by unfold exec execStbew; rfl), by decide +kernel⟩

theorem witness_SpecialStateFrame :
    (exec (.add 3 1 2) (mk [1, 2]) = .next (run (.add 3 1 2) (mk [1, 2])) ∧ writesRes0 (.add 3 1 2) = false)
      ∧ (exec (.cmp 1 2) (mk [1, 2]) = .next (run (.cmp 1 2) (mk [1, 2])) ∧ destination (.cmp 1 2) = none)
      ∧ exec .decpush (withDec 3 65532 4 three) = .next (run .decpush (withDec 3 65532 4 three)) :=
  ⟨⟨exec_eq_run (by unfold exec execAdd; rfl), rfl⟩, ⟨exec_eq_run (by unfold exec execCmp; rfl), rfl⟩, exec_decpush_run _⟩

theorem witness_ErrorIsAllOrNothing :
    (exec .nop State.reset = .next (run .nop State.reset) ∧ (run .nop State.reset).status.err = false)
      ∧ exec (.mod 3 1 2) (mk [7, 0]) = .next (run (.mod 3 1 2) (mk [7, 0]))
        ∧ (run (.mod 3 1 2) (mk [7, 0])).status.err = true := ⟨⟨rfl, rfl⟩, exec_eq_run (by unfold exec execMod; rfl), by decide +kernel⟩

/-- Reset with registers is sound. -/
theorem mk_sound (vs : List Int) (a0 a1 a2 : Word) (h : (List.finRange 16).all (fun i => fits Params.default ((mk vs).reg i)) = true) :
    (mk vs a0 a1 a2).CapacitySound ∧ (mk vs a0 a1 a2).CrtSound ∧ (mk vs a0 a1 a2).EncSound ∧ (mk vs a0 a1 a2).DecSound := by
  refine ⟨⟨fun i => List.all_eq_true.1 h i (List.mem_finRange i), ?_, rfl, ?_⟩, ⟨by show 0 ≤ 256; decide, rfl⟩, ?_, ?_⟩
  · intro e he; cases he
  · intro e he; cases he
  · unfold State.EncSound; rfl
  · unfold State.DecSound; rfl

theorem witness_RaisableErrors : (mk [2, 4]).par.wf = true ∧ (mk [2, 4]).CapacitySound ∧ (mk [2, 4]).CacheSound
    ∧ (mk [2, 4]).CrtSound ∧ (mk [2, 4]).EncSound ∧ (mk [2, 4]).DecSound
    ∧ exec (.minv 3 1 2) (mk [2, 4]) = .next (run (.minv 3 1 2) (mk [2, 4]))
    ∧ (run (.minv 3 1 2) (mk [2, 4])).status.err = true := by
  obtain ⟨h1, h2, h3, h4⟩ := mk_sound [2, 4] 0 0 0 (by decide +kernel)
  exact ⟨by decide +kernel, h1, mk_cacheSound _ _ _ _ _, h2, h3, h4, exec_eq_run (by unfold exec execMinv; rfl), by decide +kernel⟩

theorem witness_RunningCommandIgnoresHostRegisters :
    exec (.ldi 1) (mk [] 5) = .next (run (.ldi 1) (mk [] 5)) := exec_eq_run (by unfold exec execLdi; rfl)

theorem bitlen_two_pow (n : Nat) : bitlen ((2 ^ n : Nat) : Int) = n + 1 := by
  have h : (2 : Nat) ^ n ≠ 0 := by positivity
  unfold bitlen
  rw [if_neg (by exact_mod_cast h), Int.natAbs_natCast, Nat.log2_two_pow]

theorem witness_MaxBitsTakesMaximum : ∀ v ∈ [0, -5, ((2 ^ 8191 : Nat) : Int)], bitlen v < 2 ^ 32 := by
  intro v hv
  simp only [List.mem_cons, List.not_mem_nil, or_false] at hv
  rcases hv with rfl | rfl | rfl
  · decide
  · decide +kernel
  · rw [bitlen_two_pow]; decide

/-- A script of one host access, idle and BUSY. -/
def idleHost (e : Event) : State := { State.reset with script := [e] }
def busyHost (e : Event) : State := busyWith 0x10312000 [e]

theorem witness_CommandAcceptance :
    ((idleHost (.regWrite 0x10 4 0x00000000)).script = .regWrite 0x10 4 0x00000000 :: []
        ∧ (idleHost (.regWrite 0x10 4 0x00000000)).status.busy = false)
      ∧ (busyHost (.regWrite 0x10 4 0x00000000)).script = .regWrite 0x10 4 0x00000000 :: []
        ∧ (busyHost (.regWrite 0x10 4 0x00000000)).status.busy = true := by decide +kernel

theorem witness_HostRegisterWrites :
    ((idleHost (.regWrite 0x04 4 0xFFFFFFFF)).script = .regWrite 0x04 4 0xFFFFFFFF :: [] ∧ (0xFFFFFFFF#32).getLsbD 0 = true)
      ∧ ((busyHost (.regWrite 0x04 4 2)).script = .regWrite 0x04 4 2 :: [] ∧ (2#32).getLsbD 0 = false ∧ (2#32).getLsbD 1 = true)
      ∧ ((idleHost (.regWrite 0x04 4 4)).script = .regWrite 0x04 4 4 :: [] ∧ (4#32).getLsbD 0 = false ∧ (4#32).getLsbD 1 = false)
      ∧ ((idleHost (.regWrite 0x08 4 8)).script = .regWrite 0x08 4 8 :: [] ∧ (8#32).getLsbD 3 = true)
      ∧ ((idleHost (.regWrite 0x08 4 7)).script = .regWrite 0x08 4 7 :: [] ∧ (7#32).getLsbD 3 = false)
      ∧ (busyHost (.regWrite 0x14 4 1)).script = .regWrite 0x14 4 1 :: []
      ∧ (idleHost (.regWrite 0x18 4 1)).script = .regWrite 0x18 4 1 :: []
      ∧ (idleHost (.regWrite 0x1C 4 1)).script = .regWrite 0x1C 4 1 :: [] := by decide +kernel

theorem witness_RegisterAccessesWithoutEffect :
    (idleHost (.regWrite 0x04 2 1)).script = .regWrite 0x04 2 1 :: []
      ∧ ((idleHost (.regWrite 0x12 4 1)).script = .regWrite 0x12 4 1 :: [] ∧ (0x12 : BitVec 31).toNat % 4 ≠ 0)
      ∧ (idleHost (.regWrite 0x0C 4 1)).script = .regWrite 0x0C 4 1 :: []
      ∧ ((busyHost (.regRead 0x94 4)).script = .regRead 0x94 4 :: [] ∧ 0x90 < (0x94 : BitVec 31).toNat)
      ∧ (idleHost (.regRead 0x00 1)).script = .regRead 0x00 1 :: []
      ∧ (idleHost (.regRead 0x4C 4)).script = .regRead 0x4C 4 :: []
        ∧ (0x4C : BitVec 31) ∈ [0x04, 0x10, 0x48, 0x4C, 0x6C].map (BitVec.ofNat 31) := by decide +kernel

theorem witness_HostMemoryAccess :
    ((idleHost (.memWrite 65535 [1, 2])).status.busy = false
        ∧ (idleHost (.memWrite 65535 [1, 2])).script = .memWrite 65535 [1, 2] :: [])
      ∧ ((idleHost (.memRead 65535 2)).status.busy = false ∧ (idleHost (.memRead 65535 2)).script = .memRead 65535 2 :: [])
      ∧ ((busyHost (.memWrite 65535 [1])).status.busy = true
        ∧ (65535 : BitVec 31).toNat < (busyHost (.memWrite 65535 [1])).par.dmemSize
        ∧ (busyHost (.memWrite 65535 [1])).script = .memWrite 65535 [1] :: [])
      ∧ (busyHost (.memRead 65535 1)).status.busy = true ∧ (busyHost (.memRead 65535 1)).script = .memRead 65535 1 :: [] := by
  decide +kernel

theorem witness_ResetLeavesResetValues : (busyHost .powerOn).script = .powerOn :: [] := rfl

/-- A command in flight, on a sound state that is not reset. -/
def busySound : State := { busyWith 0x59000000 [] with
  regs := (mk [7, -5]).regs, larg0 := 3, larg1 := 0, larg2 := 4, mem := bytesAt 0 bundle0, crt := crt357, enc := helloEnc
  dec := helloDec three, flags := ⟨true, false, false, true⟩, cp := [65535, 65534, 65533, 65531] }

theorem step_busySound : step busySound = .next (stepped busySound) := by
  have h : step busySound = .next (run .decpush busySound) := by
    rw [← exec_decpush_run]
    exact (moveOnce_nil rfl).trans (engineTurn_exec (by decide +kernel) (by decide +kernel))
  rw [h]; unfold stepped; rw [h]

theorem witness_StepKeepsStatusSound : busySound.status.Sound ∧ step busySound = .next (stepped busySound) :=
  ⟨by unfold Status.Sound; decide +kernel, step_busySound⟩

theorem witness_StepKeepsMemorySound : busySound.MemSound ∧ step busySound = .next (stepped busySound) :=
  ⟨by unfold State.MemSound; decide +kernel, step_busySound⟩

theorem busySound_cache : busySound.CacheSound := ⟨cacheSound_four, by decide +kernel⟩

theorem witness_StepKeepsCacheSound : 1 ≤ busySound.par.cpMax ∧ busySound.CacheSound
    ∧ step busySound = .next (stepped busySound) := ⟨by decide +kernel, busySound_cache, step_busySound⟩

theorem witness_StepKeepsDataSound : busySound.par.wf = true ∧ busySound.CapacitySound ∧ busySound.CrtSound
    ∧ busySound.EncSound ∧ busySound.DecSound ∧ step busySound = .next (stepped busySound) := by
  refine ⟨by decide +kernel, ⟨fun i => ?_, by decide +kernel, by decide +kernel, by decide +kernel⟩, withCrt_sound 0 0 0 [],
    withEnc_sound 0 0, withDec_sound 0 0 0 (by decide +kernel), step_busySound⟩
  exact List.all_eq_true.1 (show (List.finRange 16).all (fun i => fits Params.default (busySound.reg i)) = true by
    decide +kernel) i (List.mem_finRange i)

theorem witness_StepKeepsFlagsSound : busySound.CacheSound ∧ busySound.flags.Sound ∧ busySound.CompleteFlagSound
    ∧ busySound.flags.c = true ∧ step busySound = .next (stepped busySound) :=
  ⟨busySound_cache, by unfold Flags.Sound; decide +kernel, by unfold State.CompleteFlagSound; decide +kernel, rfl,
    step_busySound⟩

end Sys2Proof.Tests
end

section
/-! # What a command writes, and the invariants of the stored data

`exec_writes` says once, for every command, what it can do to the big registers, DMEM and the three tables. The frame of
the big registers and of DMEM, and the invariants of the stored data, are read off it. -/

namespace Sys2Proof.Machine

/-! ## What a command writes -/

/-- The CRT table as CRTCOEF leaves it (43_crt.md R161). -/
def Crt.Loaded (p : Params) (c : Crt) : Prop :=
  ∃ ms ws base, ms.length ≤ p.maxK ∧ (∀ m ∈ ms, fits p (m : Nat) = true) ∧ coefficients p ms = .ok (ws, base)
    ∧ c = .ofLists ms ws base

/-- The encoder as ENCINIT leaves it (44_codec.md R190). -/
def Enc.Loaded (p : Params) (e : Enc) : Prop :=
  ∃ l sz g data, geometry p l sz = .ok g ∧ e = ⟨true, l, sz, g.plen, g.minb, g.hsize, g.nh, hunks data g⟩

/-- The decoder as DECINIT leaves it (44_codec.md R194). -/
def Dec.Opened (p : Params) (x : Dec) : Prop :=
  ∃ l sz g, geometry p l sz = .ok g ∧ x = ⟨true, l, sz, g.plen, g.minb, g.hsize, g.nh, []⟩

/-- The decoder `x'` as DECPUSH leaves the decoder `x` (44_codec.md R195). -/
def Dec.Pushed (p : Params) (x x' : Dec) : Prop :=
  ∃ idx bytes, x.valid = true ∧ idx < 2 ^ 32 ∧ bytes.length = x.bsize ∧ (idx ∈ x.indices ∨ x.s.length ≠ p.maxB)
    ∧ x' = { x with s := storePut idx bytes x.s }

/-- What the command `i` can have written on the way from `s` to `t`. A part that a command leaves alone needs no proof:
the default of its field is that nothing changed. -/
structure Writes (i : Instr) (s t : State) : Prop where
  par : t.par = s.par := by rfl
  epoch : t.epoch = s.epoch := by rfl
  regs : t.regs = s.regs
    ∨ ∃ d v, destination i = some d ∧ fits s.par v = true ∧ t.regs = s.regs.set d v := by exact .inl rfl
  mem : t.mem = s.mem
    ∨ ∃ a n l, storeRange s i = some (a, n) ∧ l.length ≤ n ∧ t.mem = s.mem.putAll a l := by exact .inl rfl
  crt : t.crt = s.crt ∨ t.crt.Loaded s.par := by exact .inl rfl
  enc : t.enc = s.enc ∨ t.enc.Loaded s.par := by exact .inl rfl
  dec : t.dec = s.dec ∨ t.dec.Opened s.par ∨ s.dec.Pushed s.par t.dec := by exact .inl rfl

theorem Writes.of_raise (i : Instr) (s : State) (e : CoreErr) : Writes i s (s.raise e) := {}

theorem Writes.of_setCp_raise (i : Instr) (s : State) (cp : List Nat) (e : CoreErr) :
    Writes i s ((s.setCp cp).raise e) := {}

theorem exec_writes_of_destination {i : Instr} {d : Reg} {s t : State} (hd : destination i = some d)
    (hc : ∀ d', i ≠ .cpget d') (h : exec i s = .next t) : Writes i s t := by
  rcases exec_destination_cases hd hc h with ⟨v, hv, rfl⟩ | ⟨e, rfl⟩
  · exact { regs := .inr ⟨d, v, hd, hv, rfl⟩ }
  · exact .of_raise i s e

theorem exec_cpget_writes {d : Reg} {s t : State} (h : exec (.cpget d) s = .next t) : Writes (.cpget d) s t := by
  obtain ⟨cp', r, -, ⟨m, -, hm, rfl⟩ | ⟨m, -, -, rfl⟩ | ⟨e, -, rfl⟩⟩ := exec_cpget_cases h
  · exact { regs := .inr ⟨d, m, rfl, hm, rfl⟩ }
  · exact .of_setCp_raise _ s cp' _
  · exact .of_setCp_raise _ s cp' e

theorem exec_stbe_writes {a : Reg} {s t : State} (h : exec (.stbe a) s = .next t) : Writes (.stbe a) s t := by
  obtain ⟨l, hl, -, rfl⟩ | ⟨e, -, rfl⟩ := exec_stbe_cases h
  · exact { mem := .inr ⟨_, _, l, rfl, hl.le, rfl⟩ }
  · exact .of_raise _ s e

theorem exec_stbew_writes {a : Reg} {s t : State} (h : exec (.stbew a) s = .next t) : Writes (.stbew a) s t := by
  obtain ⟨l, hl, -, rfl⟩ | ⟨e, -, rfl⟩ := exec_stbew_cases h
  · exact { mem := .inr ⟨_, _, l, rfl, hl.le, rfl⟩ }
  · exact .of_raise _ s e

theorem exec_crtcoef_writes {s t : State} (h : exec .crtcoef s = .next t) : Writes .crtcoef s t := by
  obtain ⟨ms, ws, base, hk, hfit, hco, rfl⟩ | ⟨e, -, rfl⟩ := exec_crtcoef_cases h
  · exact { crt := .inr ⟨ms, ws, base, hk, hfit, hco, rfl⟩ }
  · exact .of_raise _ s e

theorem exec_encinit_writes {s t : State} (h : exec .encinit s = .next t) : Writes .encinit s t := by
  obtain ⟨g, data, hg, -, -, rfl⟩ | ⟨e, -, rfl⟩ := exec_encinit_cases h
  · exact { enc := .inr ⟨_, _, g, data, hg, rfl⟩ }
  · exact .of_raise _ s e

theorem exec_encgen_writes {s t : State} (h : exec .encgen s = .next t) : Writes .encgen s t := by
  obtain ⟨-, rfl⟩ | rfl | ⟨cp', r, -, hr⟩ := exec_encgen_cases h
  · exact .of_raise _ s _
  · exact .of_raise _ s _
  · obtain ⟨m, l, -, -, -, -, hl, rfl⟩ | ⟨m, -, -, rfl⟩ | ⟨e, -, rfl⟩ := hr
    · exact { mem := .inr ⟨_, _, l, rfl, by omega, rfl⟩ }
    · exact .of_setCp_raise _ s cp' _
    · exact .of_setCp_raise _ s cp' e

theorem exec_decinit_writes {s t : State} (h : exec .decinit s = .next t) : Writes .decinit s t := by
  obtain ⟨g, hg, rfl⟩ | ⟨e, -, rfl⟩ := exec_decinit_cases h
  · exact { dec := .inr (.inl ⟨_, _, g, hg, rfl⟩) }
  · exact .of_raise _ s e

theorem exec_decpush_writes {s t : State} (h : exec .decpush s = .next t) : Writes .decpush s t := by
  obtain ⟨bytes, hv, hlen, hroom, rfl⟩ | ⟨e, -, rfl⟩ := exec_decpush_cases h
  · exact { dec := .inr (.inr ⟨_, bytes, hv, s.larg0.isLt, hlen, hroom, rfl⟩) }
  · exact .of_raise _ s e

theorem exec_decdone_writes {s t : State} (h : exec .decdone s = .next t) : Writes .decdone s t := by
  obtain ⟨-, rfl⟩ | ⟨cp', r, -, ⟨ms, -, rfl⟩ | ⟨e, -, rfl⟩⟩ := exec_decdone_cases h
  · exact .of_raise _ s _
  · exact {}
  · exact .of_setCp_raise _ s cp' e

theorem exec_decrec_writes {s t : State} (h : exec .decrec s = .next t) : Writes .decrec s t := by
  obtain ⟨-, rfl⟩ | rfl | ⟨cp', r, -, hr⟩ := exec_decrec_cases h
  · exact .of_raise _ s _
  · exact .of_raise _ s _
  · obtain ⟨ms, l, n, -, -, -, -, hl, rfl⟩ | ⟨ms, -, rfl⟩ | ⟨ms, e, -, -, -, -, rfl⟩ | ⟨e, -, rfl⟩ := hr
    · exact { mem := .inr ⟨_, _, l, rfl, hl, rfl⟩ }
    · exact .of_setCp_raise _ s cp' _
    · exact .of_setCp_raise _ s cp' e
    · exact .of_setCp_raise _ s cp' e

/-- What every command can write (10_state.md R47). -/
theorem exec_writes {i : Instr} {s t : State} (h : exec i s = .next t) : Writes i s t := by
  cases i with
  | nop => rw [exec_nop_eq] at h; cases h; exact {}
  | cmp a b => rw [exec_cmp_eq] at h; cases h; exact {}
  | cpget d => exact exec_cpget_writes h
  | stbe a => exact exec_stbe_writes h
  | stbew a => exact exec_stbew_writes h
  | crtcoef => exact exec_crtcoef_writes h
  | encinit => exact exec_encinit_writes h
  | encgen => exact exec_encgen_writes h
  | decinit => exact exec_decinit_writes h
  | decpush => exact exec_decpush_writes h
  | decdone => exact exec_decdone_writes h
  | decrec => exact exec_decrec_writes h
  | ldi | mov | add | sub | mul | rem | mod | gcd | minv | pow | mpow | shl | shr | ldbe | crtcomb | crtw | crtm | crtbase
  | enchunk => exact exec_writes_of_destination rfl (by simp) h

/-! ## The frame of the big registers and of DMEM -/

theorem reg_of_regs_eq_set {s t : State} {d : Reg} {v : Int} (h : t.regs = s.regs.set d v) (j : Reg) :
    t.reg j = if j = d then v else s.reg j := by
  rw [State.reg_eq_of_regs_eq (t := s.setReg d v) (by rw [h, (State.setReg_fields s d v).2.1]) j, State.reg_setReg]

theorem Writes.reg_other {i : Instr} {s t : State} (w : Writes i s t) {j : Reg} (hj : destination i ≠ some j) :
    t.reg j = s.reg j := by
  rcases w.regs with h | ⟨d, v, hd, -, h⟩
  · exact State.reg_eq_of_regs_eq h j
  · rw [reg_of_regs_eq_set h, if_neg]
    rintro rfl; exact hj hd

theorem Writes.sameBytes {i : Instr} {s t : State} (w : Writes i s t) (hn : storeRange s i = none) : s.sameBytes t := by
  rcases w.mem with h | ⟨a, n, l, hr, -, -⟩
  · exact fun b => State.byteAt_congr h w.epoch b
  · rw [hn] at hr; cases hr

theorem Writes.sameBytesOutside {i : Instr} {s t : State} (w : Writes i s t) {a n : Nat}
    (hr : storeRange s i = some (a, n)) : s.sameBytesOutside a n t := by
  intro b hb
  rcases w.mem with h | ⟨a', n', l, hr', hl, h⟩
  · exact State.byteAt_congr h w.epoch b
  · rw [hr] at hr'
    obtain ⟨rfl, rfl⟩ := Prod.mk.inj (Option.some.inj hr')
    calc t.byteAt b = (s.memWrite a l).byteAt b := State.byteAt_congr (t := s.memWrite a l) h w.epoch b
      _ = s.byteAt b := State.byteAt_memWrite_outside s l (by omega)

/-- Settles O43: read off what a command can write. -/
theorem registerAndMemoryFrame : Obligations.RegisterAndMemoryFrame := by
  unfold Obligations.RegisterAndMemoryFrame
  intro i s t h
  have w := exec_writes h
  exact ⟨fun j hj => w.reg_other hj, w.sameBytes, fun a n hr => w.sameBytesOutside hr⟩

/-! ## The CRT table of a coefficient set -/

theorem Crt.moduli_ofLists {ms ws : List Nat} (base : Nat) (h : ws.length = ms.length) :
    (Crt.ofLists ms ws base).moduli = ms := by
  simp only [Crt.moduli, Crt.ofLists, List.map_map]
  exact List.map_fst_zip h.ge

theorem Crt.weights_ofLists {ms ws : List Nat} (base : Nat) (h : ws.length = ms.length) :
    (Crt.ofLists ms ws base).weights = ws := by
  simp only [Crt.weights, Crt.ofLists, List.map_map]
  exact List.map_snd_zip h.le

theorem coefficients_base_fits {p : Params} {ms ws : List Nat} {base : Nat} (h : coefficients p ms = .ok (ws, base)) :
    fits p (base : Nat) = true := by
  obtain ⟨-, hfit, rfl, -⟩ := (coefficients_ok_iff p ms ws base).1 h
  exact hfit

theorem coefficients_weight_lt {p : Params} {ms ws : List Nat} {base w : Nat} (h : coefficients p ms = .ok (ws, base))
    (hw : w ∈ ws) : w < base := by
  obtain ⟨k, hk, rfl⟩ := List.getElem_of_mem hw
  have hlt := (coefficients_weight_spec h (coefficients_length h ▸ hk)).1
  rwa [List.getD_eq_getElem _ _ hk] at hlt

/-- Every number CRTCOEF stores is within capacity: the weights because they are below the base (43_crt.md R160). -/
theorem Crt.Loaded.withinCapacity {p : Params} {c : Crt} (h : c.Loaded p) :
    (∀ e ∈ c.entries, fits p e.m = true ∧ fits p e.w = true) ∧ fits p c.base = true := by
  obtain ⟨ms, ws, base, -, hms, hco, rfl⟩ := h
  have hbase := coefficients_base_fits hco
  refine ⟨fun e he => ?_, hbase⟩
  obtain ⟨⟨m, w⟩, hmw, rfl⟩ := List.mem_map.1 he
  have hlt := coefficients_weight_lt hco (List.of_mem_zip hmw).2
  exact ⟨hms m (List.of_mem_zip hmw).1, fits_mono hbase (by simpa using hlt.le)⟩

theorem Crt.Loaded.isCoefficientSet {p : Params} {c : Crt} (h : c.Loaded p) :
    c.entries.length ≤ p.maxK ∧ coefficients p c.moduli = .ok (c.weights, c.base) := by
  obtain ⟨ms, ws, base, hk, -, hco, rfl⟩ := h
  have hlen := coefficients_length hco
  rw [Crt.moduli_ofLists base hlen, Crt.weights_ofLists base hlen]
  exact ⟨by simpa [Crt.ofLists, hlen] using hk, hco⟩

/-! ## The hunks of the encoder -/

/-- A hunk has at most 200 bytes, which 50 words hold (44_codec.md R191). -/
theorem fits_hunk {p : Params} (hwf : p.wf = true) {l sz : Nat} {g : Geometry} (hg : geometry p l sz = .ok g)
    {v : Nat} (hv : v < 256 ^ g.hsize) : fits p (v : Nat) = true := by
  obtain ⟨-, -, -, -, hminb, -, -, hhsize, -⟩ := geometry_ok hg
  have hbits : 256 ^ g.hsize = 2 ^ (8 * g.hsize) := by rw [pow_mul]; norm_num
  rw [hbits] at hv
  refine fits_of_wf hwf (n := (g.hsize + 3) / 4) (by omega) ?_
  rw [Int.natAbs_natCast]
  exact hv.trans_le (Nat.pow_le_pow_right (by norm_num) (by omega))

theorem Enc.Loaded.withinCapacity {p : Params} (hwf : p.wf = true) {e : Enc} (h : e.Loaded p) :
    ∀ v ∈ e.h, fits p (v : Nat) = true := by
  obtain ⟨l, sz, g, data, hg, rfl⟩ := h
  exact fun v hv => fits_hunk hwf hg (hunks_lt hv)

/-! ## Each invariant over what a command writes -/

section
variable {i : Instr} {s t : State}

theorem Writes.capacitySound (w : Writes i s t) (hwf : s.par.wf = true) (hs : s.CapacitySound) : t.CapacitySound := by
  obtain ⟨hregs, hentries, hbase, hhunks⟩ := hs
  unfold State.CapacitySound
  rw [w.par]
  have hregs' : ∀ j, fits s.par (t.reg j) = true := by
    intro j
    rcases w.regs with h | ⟨d, v, -, hv, h⟩
    · rw [State.reg_eq_of_regs_eq h j]; exact hregs j
    · rw [reg_of_regs_eq_set h]
      split
      · exact hv
      · exact hregs j
  have hcrt : (∀ e ∈ t.crt.entries, fits s.par e.m = true ∧ fits s.par e.w = true) ∧ fits s.par t.crt.base = true := by
    rcases w.crt with h | h
    · rw [h]; exact ⟨hentries, hbase⟩
    · exact h.withinCapacity
  have henc : ∀ v ∈ t.enc.h, fits s.par (v : Nat) = true := by
    rcases w.enc with h | h
    · rw [h]; exact hhunks
    · exact h.withinCapacity hwf
  exact ⟨hregs', hcrt.1, hcrt.2, henc⟩

theorem Writes.crtSound (w : Writes i s t) (hs : s.CrtSound) : t.CrtSound := by
  unfold State.CrtSound at *
  rw [w.par]
  rcases w.crt with h | h
  · rwa [h]
  · exact h.isCoefficientSet

theorem Writes.encSound (w : Writes i s t) (hs : s.EncSound) : t.EncSound := by
  unfold State.EncSound at *
  rw [w.par]
  rcases w.enc with h | ⟨l, sz, g, data, hg, h⟩
  · rwa [h]
  · rw [h, if_pos rfl]
    exact ⟨hg, hunks_length data g, fun v hv => hunks_lt hv⟩

theorem Writes.decSound (w : Writes i s t) (hs : s.DecSound) : t.DecSound := by
  unfold State.DecSound at *
  rw [w.par]
  rcases w.dec with h | ⟨l, sz, g, hg, h⟩ | ⟨idx, bytes, hv, hidx, hlen, hroom, h⟩
  · rwa [h]
  · rw [h, if_pos rfl]
    exact ⟨hg, List.Pairwise.nil, Nat.zero_le _, by simp⟩
  · rw [if_pos hv] at hs
    obtain ⟨hg, hrise, hcount, hentries⟩ := hs
    rw [h, if_pos hv]
    refine ⟨hg, pairwise_storePut idx bytes hrise, ?_, fun e he => ?_⟩
    · rw [storePut_length hrise]
      split
      · exact hcount
      · next hnew => have := hroom.resolve_left hnew; omega
    · rcases mem_storePut he with rfl | he
      · exact ⟨hidx, hlen⟩
      · exact hentries e he

end

/-! ## The invariant of the stored data -/

/-- The four invariants of the registers, the CRT table, the encoder and the decoder together. -/
structure State.DataSound (s : State) : Prop where
  capacity : s.CapacitySound
  crt : s.CrtSound
  enc : s.EncSound
  dec : s.DecSound

/-- `t` holds the parameters, the big registers and the three tables of `s`. -/
structure SameData (s t : State) : Prop where
  par : t.par = s.par := by rfl
  regs : t.regs = s.regs := by rfl
  crt : t.crt = s.crt := by rfl
  enc : t.enc = s.enc := by rfl
  dec : t.dec = s.dec := by rfl

theorem SameData.dataSound {s t : State} (h : SameData s t) (hs : s.DataSound) : t.DataSound := by
  obtain ⟨hcap, hcrt, henc, hdec⟩ := hs
  have hreg := State.reg_eq_of_regs_eq h.regs
  constructor
  · unfold State.CapacitySound at *
    simpa only [h.par, h.crt, h.enc, hreg] using hcap
  · unfold State.CrtSound at *
    rwa [h.par, h.crt]
  · unfold State.EncSound at *
    rwa [h.par, h.enc]
  · unfold State.DecSound at *
    rwa [h.par, h.dec]

theorem exec_keeps_dataSound {i : Instr} {s t : State} (hwf : s.par.wf = true) (hs : s.DataSound)
    (h : exec i s = .next t) : t.DataSound :=
  have w := exec_writes h
  ⟨w.capacitySound hwf hs.capacity, w.crtSound hs.crt, w.encSound hs.enc, w.decSound hs.dec⟩

/-- The reset values are sound under any parameters of 00_scope.md R8, whose capacity holds the base 1. -/
theorem resetWith_dataSound {p : Params} (hwf : p.wf = true) (mem : Memory) (epoch : Nat) (script : List Event)
    (answers : List Answer) : (State.resetWith p mem epoch script answers).DataSound := by
  have hone : fits p 1 = true := fits_of_wf hwf (n := 1) (by norm_num) (by norm_num)
  constructor
  · refine ⟨fun j => ?_, by simp [State.resetWith], hone, by simp [State.resetWith]⟩
    have : (State.resetWith p mem epoch script answers).reg j = 0 := by simp [State.resetWith, State.reg]
    rw [this]; exact fits_zero p
  · exact ⟨Nat.zero_le _, (coefficients_ok_iff p [] [] 1).2 ⟨by simp, hone, rfl, .nil⟩⟩
  · rfl
  · rfl

/-! ## Events of the host -/

/-- A host write to a register keeps the stored data, but for the soft reset (70_reset_and_hazards.md R251). -/
theorem writeReg_data_cases (s : State) (o : Nat) (v : Word) :
    SameData s (s.writeReg o v) ∨ s.writeReg o v = s.softReset := by
  unfold State.writeReg
  split
  · unfold State.writeCtrl
    split
    · exact .inr rfl
    · split <;> exact .inl {}
  · unfold State.writeStatus
    split <;> exact .inl {}
  · unfold State.writeCmd
    split <;> exact .inl {}
  all_goals exact .inl {}

theorem noteDrop_sameData (s : State) (a n : Nat) : SameData s (s.noteDrop a n) := by
  unfold State.noteDrop
  split <;> exact {}

theorem writeDmem_sameData (s : State) (a : Nat) (bytes : List Byte) : SameData s (s.writeDmem a bytes) := by
  unfold State.writeDmem
  split
  · exact noteDrop_sameData s a bytes.length
  · exact {}

/-- An event keeps the stored data or is one of the two resets. -/
theorem event_data_cases (s : State) (e : Event) :
    SameData s (s.event e) ∨ s.event e = s.softReset ∨ s.event e = s.powerOn := by
  cases e with
  | engine => exact .inl {}
  | regRead o n => exact .inl {}
  | regWrite o n v =>
    simp only [State.event, State.writeWindow]
    split
    · exact (writeReg_data_cases s o.toNat v).imp_right .inl
    · exact .inl {}
  | memRead a n =>
    obtain ⟨hpar, hregs, hcrt, henc, hdec⟩ := noteDrop_sameData s a.toNat n
    exact .inl ⟨hpar, hregs, hcrt, henc, hdec⟩
  | memWrite a bytes => exact .inl (writeDmem_sameData s a.toNat bytes)
  | powerOn => exact .inr (.inr rfl)

theorem event_keeps_dataSound {s : State} (hwf : s.par.wf = true) (hs : s.DataSound) (e : Event) :
    (s.event e).DataSound := by
  rcases event_data_cases s e with h | h | h
  · exact h.dataSound hs
  · rw [h]; exact resetWith_dataSound hwf _ _ _ _
  · rw [h]; exact resetWith_dataSound hwf _ _ _ _

/-! ## Steps -/

theorem step_keeps_dataSound {s t : State} (hwf : s.par.wf = true) (hs : s.DataSound) (h : step s = .next t) :
    t.DataSound := by
  have hscript : ∀ rest, SameData s { s with script := rest } := fun _ => {}
  rcases step_cases h with ⟨u, hu, hturn⟩ | ⟨e, rest, -, -, he⟩
  · have hsu : SameData s u := by
      rcases hu with rfl | ⟨rest, rfl⟩
      · exact {}
      · exact hscript rest
    have hwfu : u.par.wf = true := by rw [hsu.par]; exact hwf
    have husound := hsu.dataSound hs
    rcases hturn with ⟨-, hidle⟩ | ⟨-, i, -, hrun⟩ | ⟨-, hillegal⟩
    · cases hidle; exact husound
    · exact exec_keeps_dataSound hwfu husound hrun.symm
    · cases hillegal; exact SameData.dataSound {} husound
  · cases he
    exact event_keeps_dataSound (s := { s with script := rest }) hwf ((hscript rest).dataSound hs) e

/-- Settles O59: what each command writes keeps the four invariants, and the host's events keep the data or reset it. -/
theorem stepKeepsDataSound : Obligations.StepKeepsDataSound := by
  unfold Obligations.StepKeepsDataSound
  intro s t hwf hcap hcrt henc hdec h
  obtain ⟨hcap', hcrt', henc', hdec'⟩ := step_keeps_dataSound hwf ⟨hcap, hcrt, henc, hdec⟩ h
  exact ⟨hcap', hcrt', henc', hdec'⟩

end Sys2Proof.Machine
end

section
/-! # The rest of the state: what a command, an event and a step can do to it

`exec_touches` says once, for every command, what it can do to FLAGS, the results, MAXBITS, the cache, the tables and STATUS,
and that it leaves the host's part alone; `event_touches` says the same of an event. The frame of the special state and the
invariants of STATUS, the cache and FLAGS are read off them. -/

namespace Sys2Proof.Machine

/-! ## The growth of the cache -/

/-- The cache `cp'` as lookups leave the cache `cp` under the bound `cpMax` (42_coprime.md R151). -/
structure CacheGrown (cpMax : Nat) (cp cp' : List Nat) : Prop where
  isPrefix : cp <+: cp'
  within : cp.length ≤ cpMax → cp'.length ≤ cpMax
  sound : CacheSound cp → CacheSound cp'

theorem CacheGrown.refl (cpMax : Nat) (cp : List Nat) : CacheGrown cpMax cp cp := ⟨List.prefix_rfl, id, id⟩

theorem CacheGrown.of_coprimeAt {cpMax i : Nat} {cp cp' : List Nat} {r : Except CoreErr Nat}
    (h : coprimeAt cpMax cp i = (cp', r)) : CacheGrown cpMax cp cp' := by
  obtain ⟨hprefix, hwithin, -, hsound, -⟩ := coprimeAt_spec h
  exact ⟨hprefix, hwithin, hsound⟩

theorem CacheGrown.of_coprimesAt {cpMax : Nat} {is cp cp' : List Nat} {r : Except CoreErr (List Nat)}
    (h : coprimesAt cpMax cp is = (cp', r)) : CacheGrown cpMax cp cp' := by
  obtain ⟨hprefix, hwithin, hsound, -⟩ := coprimesAt_spec cpMax is cp cp' r h
  exact ⟨hprefix, hwithin, hsound⟩

/-! ## What a command touches -/

/-- The commands that look moduli up, and so can extend the cache (10_state.md R25). -/
def LooksUp (i : Instr) : Prop := (∃ d, i = .cpget d) ∨ i = .encgen ∨ i = .decdone ∨ i = .decrec

/-- `t` holds the parameters, the latched command and what belongs to the host as `s` does. -/
structure SameHost (s t : State) : Prop where
  par : t.par = s.par := by rfl
  lcmd : t.lcmd = s.lcmd := by rfl
  larg0 : t.larg0 = s.larg0 := by rfl
  larg1 : t.larg1 = s.larg1 := by rfl
  larg2 : t.larg2 = s.larg2 := by rfl
  arg0 : t.arg0 = s.arg0 := by rfl
  arg1 : t.arg1 = s.arg1 := by rfl
  arg2 : t.arg2 = s.arg2 := by rfl
  epoch : t.epoch = s.epoch := by rfl
  script : t.script = s.script := by rfl
  answers : t.answers = s.answers := by rfl

/-- What the command `i` can have done on the way from `s` to `t`, the big registers and DMEM apart. A part that a command
leaves alone needs no proof: the default of its field is that nothing changed (for STATUS, that the command succeeded). -/
structure Touches (i : Instr) (s t : State) : Prop where
  host : SameHost s t := by exact {}
  status : t.status = s.status.succeeded ∨ ∃ e : CoreErr, t.status = s.status.failed e.code := by exact .inl rfl
  flags : t.flags = s.flags
    ∨ (∃ a b, i = .cmp a b ∧ t.flags = compareFlags (s.reg a) (s.reg b) s.flags)
    ∨ ((i = .decinit ∨ i = .decdone) ∧ t.CompleteFlagSound ∧ ∃ c, t.flags = s.flags.withC c) := by exact .inl rfl
  res0 : t.res0 = s.res0 ∨ writesRes0 i = true := by exact .inl rfl
  res1 : t.res1 = s.res1 ∨ i = .encinit ∨ i = .decrec := by exact .inl rfl
  maxBits : t.maxBits = s.maxBits ∨ destination i ≠ none ∨ i = .crtcoef ∨ i = .encinit := by exact .inl rfl
  cp : t.cp = s.cp ∨ LooksUp i := by exact .inl rfl
  grown : CacheGrown s.par.cpMax s.cp t.cp := by exact .refl _ _
  crt : t.crt = s.crt ∨ i = .crtcoef := by exact .inl rfl
  enc : t.enc = s.enc ∨ i = .encinit := by exact .inl rfl
  dec : t.dec = s.dec
    ∨ (i = .decinit ∧ t.CompleteFlagSound)
    ∨ (i = .decpush ∧ ∃ idx bytes, t.dec = { s.dec with s := storePut idx bytes s.dec.s }) := by exact .inl rfl

theorem Touches.of_raise (i : Instr) (s : State) (e : CoreErr) : Touches i s (s.raise e) := { status := .inr ⟨e, rfl⟩ }

theorem Touches.of_setCp_raise {i : Instr} {s : State} {cp : List Nat} (hi : LooksUp i)
    (hg : CacheGrown s.par.cpMax s.cp cp) (e : CoreErr) : Touches i s ((s.setCp cp).raise e) :=
  { status := .inr ⟨e, rfl⟩, cp := .inr hi, grown := hg }

/-- With C clear there is nothing to hold of the store. -/
theorem State.completeFlagSound_of_clear {t : State} (h : t.flags.c = false) : t.CompleteFlagSound := by
  intro hc; rw [h] at hc; cases hc

/-- With every index of the store cached, C may say what `complete()` says of the moduli (44_codec.md R196). -/
theorem State.completeFlagSound_of_cached {t : State} {ms : List Nat} (hcached : ∀ i ∈ t.dec.indices, i < t.cp.length)
    (hms : ms = t.dec.indices.map fun i => t.cp.getD i 0) (hc : t.flags.c = t.dec.completeWith ms) :
    t.CompleteFlagSound := by
  intro htc
  have hall : t.cachedModuli = ms := by
    rw [hms, State.cachedModuli, List.filter_eq_self.2 fun i hi => decide_eq_true (hcached i hi)]
  rw [hall]
  exact of_decide_eq_true (hc.symm.trans htc)

theorem exec_touches_of_destination {i : Instr} {d : Reg} {s t : State} (hd : destination i = some d)
    (hc : ∀ d', i ≠ .cpget d') (h : exec i s = .next t) : Touches i s t := by
  rcases exec_destination_cases hd hc h with ⟨v, -, rfl⟩ | ⟨e, rfl⟩
  · exact { maxBits := .inr (.inl (by simp [hd])) }
  · exact .of_raise i s e

theorem exec_cpget_touches {d : Reg} {s t : State} (h : exec (.cpget d) s = .next t) : Touches (.cpget d) s t := by
  have hi : LooksUp (.cpget d) := .inl ⟨d, rfl⟩
  obtain ⟨cp', r, hx, hr⟩ := exec_cpget_cases h
  have hg := CacheGrown.of_coprimeAt hx
  obtain ⟨m, -, -, rfl⟩ | ⟨m, -, -, rfl⟩ | ⟨e, -, rfl⟩ := hr
  · exact { res0 := .inr rfl, maxBits := .inr (.inl (by simp [destination])), cp := .inr hi, grown := hg }
  · exact .of_setCp_raise hi hg _
  · exact .of_setCp_raise hi hg e

theorem exec_stbe_touches {a : Reg} {s t : State} (h : exec (.stbe a) s = .next t) : Touches (.stbe a) s t := by
  obtain ⟨l, -, -, rfl⟩ | ⟨e, -, rfl⟩ := exec_stbe_cases h
  · exact { res0 := .inr rfl }
  · exact .of_raise _ s e

theorem exec_stbew_touches {a : Reg} {s t : State} (h : exec (.stbew a) s = .next t) : Touches (.stbew a) s t := by
  obtain ⟨l, -, -, rfl⟩ | ⟨e, -, rfl⟩ := exec_stbew_cases h
  · exact { res0 := .inr rfl }
  · exact .of_raise _ s e

theorem exec_crtcoef_touches {s t : State} (h : exec .crtcoef s = .next t) : Touches .crtcoef s t := by
  obtain ⟨ms, ws, base, -, -, -, rfl⟩ | ⟨e, -, rfl⟩ := exec_crtcoef_cases h
  · exact { res0 := .inr rfl, maxBits := .inr (.inr (.inl rfl)), crt := .inr rfl }
  · exact .of_raise _ s e

theorem exec_encinit_touches {s t : State} (h : exec .encinit s = .next t) : Touches .encinit s t := by
  obtain ⟨g, data, -, -, -, rfl⟩ | ⟨e, -, rfl⟩ := exec_encinit_cases h
  · exact { res0 := .inr rfl, res1 := .inr (.inl rfl), maxBits := .inr (.inr (.inr rfl)), enc := .inr rfl }
  · exact .of_raise _ s e

theorem exec_encgen_touches {s t : State} (h : exec .encgen s = .next t) : Touches .encgen s t := by
  have hi : LooksUp .encgen := .inr (.inl rfl)
  obtain ⟨-, rfl⟩ | rfl | ⟨cp', r, hx, hr⟩ := exec_encgen_cases h
  · exact .of_raise _ s _
  · exact .of_raise _ s _
  · have hg := CacheGrown.of_coprimeAt hx
    obtain ⟨m, l, -, -, -, -, -, rfl⟩ | ⟨m, -, -, rfl⟩ | ⟨e, -, rfl⟩ := hr
    · exact { cp := .inr hi, grown := hg }
    · exact .of_setCp_raise hi hg _
    · exact .of_setCp_raise hi hg e

theorem exec_decinit_touches {s t : State} (h : exec .decinit s = .next t) : Touches .decinit s t := by
  obtain ⟨g, -, rfl⟩ | ⟨e, -, rfl⟩ := exec_decinit_cases h
  · exact {
      flags := .inr (.inr ⟨.inl rfl, State.completeFlagSound_of_clear rfl, false, rfl⟩)
      dec := .inr (.inl ⟨rfl, State.completeFlagSound_of_clear rfl⟩) }
  · exact .of_raise _ s e

theorem exec_decpush_touches {s t : State} (h : exec .decpush s = .next t) : Touches .decpush s t := by
  obtain ⟨bytes, -, -, -, rfl⟩ | ⟨e, -, rfl⟩ := exec_decpush_cases h
  · exact { res0 := .inr rfl, dec := .inr (.inr ⟨rfl, _, bytes, rfl⟩) }
  · exact .of_raise _ s e

/-- DECDONE sets C by the moduli it has just brought into the cache, all those of the store. -/
theorem exec_decdone_touches {s t : State} (h : exec .decdone s = .next t) : Touches .decdone s t := by
  have hi : LooksUp .decdone := .inr (.inr (.inl rfl))
  obtain ⟨-, rfl⟩ | ⟨cp', r, hx, hr⟩ := exec_decdone_cases h
  · exact .of_raise _ s _
  · have hg := CacheGrown.of_coprimesAt hx
    obtain ⟨ms, rfl, rfl⟩ | ⟨e, -, rfl⟩ := hr
    · obtain ⟨-, -, -, ⟨hcached, hms⟩ | ⟨i, -, -, he⟩⟩ := coprimesAt_spec _ _ _ _ _ hx
      · refine { flags := .inr (.inr ⟨.inr rfl, ?_, _, rfl⟩), res0 := .inr rfl, cp := .inr hi, grown := hg }
        exact State.completeFlagSound_of_cached hcached (Except.ok.inj hms) rfl
      · simp at he
    · exact .of_setCp_raise hi hg e

theorem exec_decrec_touches {s t : State} (h : exec .decrec s = .next t) : Touches .decrec s t := by
  have hi : LooksUp .decrec := .inr (.inr (.inr rfl))
  obtain ⟨-, rfl⟩ | rfl | ⟨cp', r, hx, hr⟩ := exec_decrec_cases h
  · exact .of_raise _ s _
  · exact .of_raise _ s _
  · have hg := CacheGrown.of_coprimesAt hx
    obtain ⟨ms, l, n, -, -, -, -, -, rfl⟩ | ⟨ms, -, rfl⟩ | ⟨ms, e, -, -, -, -, rfl⟩ | ⟨e, -, rfl⟩ := hr
    · exact { res0 := .inr rfl, res1 := .inr (.inr rfl), cp := .inr hi, grown := hg }
    · exact .of_setCp_raise hi hg _
    · exact .of_setCp_raise hi hg e
    · exact .of_setCp_raise hi hg e

/-- What every command can touch (10_state.md R47). -/
theorem exec_touches {i : Instr} {s t : State} (h : exec i s = .next t) : Touches i s t := by
  cases i with
  | nop => rw [exec_nop_eq] at h; cases h; exact {}
  | cmp a b =>
    rw [exec_cmp_eq] at h; cases h
    exact { flags := .inr (.inl ⟨a, b, rfl, rfl⟩), res0 := .inr rfl }
  | cpget d => exact exec_cpget_touches h
  | stbe a => exact exec_stbe_touches h
  | stbew a => exact exec_stbew_touches h
  | crtcoef => exact exec_crtcoef_touches h
  | encinit => exact exec_encinit_touches h
  | encgen => exact exec_encgen_touches h
  | decinit => exact exec_decinit_touches h
  | decpush => exact exec_decpush_touches h
  | decdone => exact exec_decdone_touches h
  | decrec => exact exec_decrec_touches h
  | ldi | mov | add | sub | mul | rem | mod | gcd | minv | pow | mpow | shl | shr | ldbe | crtcomb | crtw | crtm | crtbase
  | enchunk => exact exec_touches_of_destination rfl (by simp) h

/-! ## The frame of the special state -/

section
variable {i : Instr} {s t : State}

theorem Touches.order_flags (w : Touches i s t) (hi : ∀ a b, i ≠ .cmp a b) :
    t.flags.lt = s.flags.lt ∧ t.flags.eq = s.flags.eq ∧ t.flags.gt = s.flags.gt := by
  rcases w.flags with h | ⟨a, b, h, -⟩ | ⟨-, -, c, h⟩
  · rw [h]; exact ⟨rfl, rfl, rfl⟩
  · exact absurd h (hi a b)
  · rw [h]; exact ⟨rfl, rfl, rfl⟩

theorem Touches.complete_flag (w : Touches i s t) (hinit : i ≠ .decinit) (hdone : i ≠ .decdone) :
    t.flags.c = s.flags.c := by
  rcases w.flags with h | ⟨a, b, -, h⟩ | ⟨h | h, -⟩
  · rw [h]
  · rw [h]; rfl
  · exact absurd h hinit
  · exact absurd h hdone

theorem Touches.dec_eq (w : Touches i s t) (hinit : i ≠ .decinit) (hpush : i ≠ .decpush) : t.dec = s.dec := by
  rcases w.dec with h | ⟨h, -⟩ | ⟨h, -⟩
  · exact h
  · exact absurd h hinit
  · exact absurd h hpush

theorem Touches.dec_eq_of_decpush (w : Touches .decpush s t) : t.dec = { s.dec with s := t.dec.s } := by
  rcases w.dec with h | ⟨h, -⟩ | ⟨-, idx, bytes, h⟩
  · rw [h]
  · cases h
  · rw [h]

end

/-- Settles O44: read off what a command can touch. -/
theorem specialStateFrame : Obligations.SpecialStateFrame := by
  unfold Obligations.SpecialStateFrame
  intro i s t h
  have w := exec_touches h
  obtain ⟨hpar, hlcmd, hl0, hl1, hl2, ha0, ha1, ha2, hepoch, hscript, hanswers⟩ := w.host
  refine ⟨w.order_flags, w.complete_flag, fun hi => w.res0.resolve_right (by simp [hi]), fun h1 h2 => ?_,
    fun h1 h2 h3 => ?_, fun h1 h2 h3 h4 => ?_, w.crt.resolve_right, w.enc.resolve_right, w.dec_eq, ?_, hpar, hlcmd, hl0,
    hl1, hl2, ha0, ha1, ha2, hepoch, hscript, hanswers⟩
  · exact w.res1.resolve_right (by simp [h1, h2])
  · exact w.maxBits.resolve_right (by simp [h1, h2, h3])
  · exact w.cp.resolve_right (by simp [LooksUp, h1, h2, h3, h4])
  · rintro rfl; exact w.dec_eq_of_decpush

/-! ## What an event touches -/

/-- What an event of the host's can have done on the way from `s` to `t`, the resets apart, to what the engine's invariants
are about: nothing, but for a write of DROP or the acceptance of a command word. -/
structure HostTouches (s t : State) : Prop where
  par : t.par = s.par := by rfl
  flags : t.flags = s.flags := by rfl
  cp : t.cp = s.cp := by rfl
  dec : t.dec = s.dec := by rfl
  status : (∃ drop, t.status = s.status.withDrop drop) ∨ t.status = ⟨true, false, false, s.status.drop, 0⟩ := by
    exact .inl ⟨_, rfl⟩

theorem writeReg_touches (s : State) (o : Nat) (v : Word) :
    HostTouches s (s.writeReg o v) ∨ s.writeReg o v = s.softReset := by
  unfold State.writeReg
  split
  · unfold State.writeCtrl
    split
    · exact .inr rfl
    · split <;> exact .inl {}
  · unfold State.writeStatus
    split <;> exact .inl {}
  · unfold State.writeCmd
    split
    · exact .inl {}
    · exact .inl { status := .inr rfl }
  all_goals exact .inl {}

theorem noteDrop_touches (s : State) (a n : Nat) : HostTouches s (s.noteDrop a n) := by
  unfold State.noteDrop
  split <;> exact {}

theorem writeDmem_touches (s : State) (a : Nat) (bytes : List Byte) : HostTouches s (s.writeDmem a bytes) := by
  unfold State.writeDmem
  split
  · exact noteDrop_touches s a bytes.length
  · exact {}

/-- Everything an event can do to what the engine's invariants are about. -/
theorem event_touches (s : State) (e : Event) :
    HostTouches s (s.event e) ∨ s.event e = s.softReset ∨ s.event e = s.powerOn := by
  cases e with
  | engine => exact .inl {}
  | regRead o n => exact .inl {}
  | regWrite o n v =>
    simp only [State.event, State.writeWindow]
    split
    · exact (writeReg_touches s o.toNat v).imp_right .inl
    · exact .inl {}
  | memRead a n =>
    obtain ⟨hpar, hflags, hcp, hdec, hstatus⟩ := noteDrop_touches s a.toNat n
    exact .inl ⟨hpar, hflags, hcp, hdec, hstatus⟩
  | memWrite a bytes => exact .inl (writeDmem_touches s a.toNat bytes)
  | powerOn => exact .inr (.inr rfl)

/-! ## Invariants of a step -/

/-- A predicate that does not look at the script, and that every command, an illegal word and every event keep, is an
invariant of the machine. -/
theorem step_keeps {P : State → Prop} (hscript : ∀ s rest, P s → P { s with script := rest })
    (hexec : ∀ i s t, P s → exec i s = .next t → P t) (hillegal : ∀ s, P s → P (s.raise .illegalCommand))
    (hevent : ∀ s e, P s → P (s.event e)) {s t : State} (hs : P s) (h : step s = .next t) : P t := by
  rcases step_cases h with ⟨u, hu, hturn⟩ | ⟨e, rest, -, -, he⟩
  · have hPu : P u := by
      rcases hu with rfl | ⟨rest, rfl⟩
      · exact hs
      · exact hscript s rest hs
    rcases hturn with ⟨-, hidle⟩ | ⟨-, i, -, hrun⟩ | ⟨-, hill⟩
    · cases hidle; exact hPu
    · exact hexec i u t hPu hrun.symm
    · cases hill; exact hillegal u hPu
  · cases he
    exact hevent _ e (hscript s rest hs)

/-! ## STATUS -/

theorem Status.succeeded_sound (t : Status) : t.succeeded.Sound := by simp [Status.Sound, Status.succeeded]

theorem Status.failed_sound (t : Status) (e : CoreErr) : (t.failed e.code).Sound := by
  simpa [Status.Sound, Status.failed] using e.code_range

theorem Status.withDrop_sound {t : Status} (h : t.Sound) (drop : Bool) : (t.withDrop drop).Sound := h

theorem exec_status_sound {i : Instr} {s t : State} (h : exec i s = .next t) : t.status.Sound := by
  rcases (exec_touches h).status with hok | ⟨e, herr⟩
  · rw [hok]; exact s.status.succeeded_sound
  · rw [herr]; exact s.status.failed_sound e

theorem event_keeps_statusSound {s : State} (hs : s.status.Sound) (e : Event) : (s.event e).status.Sound := by
  have hreset : (⟨false, false, false, false, 0⟩ : Status).Sound := by simp [Status.Sound]
  rcases event_touches s e with h | h | h
  · rcases h.status with ⟨drop, hd⟩ | ha
    · rw [hd]; exact Status.withDrop_sound hs drop
    · rw [ha]; simp [Status.Sound]
  · rw [h]; exact hreset
  · rw [h]; exact hreset

/-- Settles O56: a completion and an acceptance leave a consistent STATUS whatever it was, and the host's other events write
DROP alone or reset it. -/
theorem stepKeepsStatusSound : Obligations.StepKeepsStatusSound := by
  unfold Obligations.StepKeepsStatusSound
  intro s t hs h
  exact step_keeps (P := fun s => s.status.Sound) (fun _ _ h => h) (fun _ _ _ _ => exec_status_sound)
    (fun s _ => s.status.failed_sound .illegalCommand) (fun _ e h => event_keeps_statusSound h e) hs h

/-! ## The cache -/

/-- A sound cache holds the seed, so its bound is at least 1. -/
theorem State.CacheSound.one_le_cpMax {s : State} (h : s.CacheSound) : 1 ≤ s.par.cpMax := by
  obtain ⟨⟨hhead, -⟩, hlen⟩ := h
  have hne : s.cp ≠ [] := by rintro he; simp [he] at hhead
  exact le_trans (List.length_pos_iff.2 hne) hlen

theorem Touches.cacheSound {i : Instr} {s t : State} (w : Touches i s t) (hs : s.CacheSound) : t.CacheSound := by
  unfold State.CacheSound
  rw [w.host.par]
  exact ⟨w.grown.sound hs.1, w.grown.within hs.2⟩

/-- The cache of the reset values, under a bound of at least 1. -/
theorem cacheSound_of_seed {t : State} (hcp : t.cp = [65535]) (hmax : 1 ≤ t.par.cpMax) : t.CacheSound := by
  unfold State.CacheSound
  rw [hcp]
  exact ⟨cacheSound_seed, hmax⟩

theorem event_keeps_cacheSound {s : State} (hs : s.CacheSound) (e : Event) : (s.event e).CacheSound := by
  rcases event_touches s e with h | h | h
  · unfold State.CacheSound at *
    rwa [h.cp, h.par]
  · rw [h]; exact cacheSound_of_seed rfl hs.one_le_cpMax
  · rw [h]; exact cacheSound_of_seed rfl hs.one_le_cpMax

theorem step_keeps_cacheSound {s t : State} (hs : s.CacheSound) (h : step s = .next t) : t.CacheSound :=
  step_keeps (P := State.CacheSound) (fun _ _ h => h) (fun _ _ _ hs h => (exec_touches h).cacheSound hs) (fun _ h => h)
    (fun _ e h => event_keeps_cacheSound h e) hs h

/-- Settles O58: a command leaves the cache grown by lookups, and the host's events keep it or reset it to the seed. -/
theorem stepKeepsCacheSound : Obligations.StepKeepsCacheSound := by
  unfold Obligations.StepKeepsCacheSound
  intro s t _ hs h
  exact step_keeps_cacheSound hs h

/-! ## FLAGS -/

/-- The product that DECDONE compares, as far as it is cached: an index that is not cached counts as 1. -/
theorem State.product_cachedModuli (s : State) :
    product s.cachedModuli = (s.dec.indices.map fun i => s.cp.getD i 1).prod := by
  rw [product_eq_prod, State.cachedModuli]
  induction s.dec.indices with
  | nil => rfl
  | cons i is ih =>
    by_cases hi : i < s.cp.length
    · simp only [List.filter_cons, decide_eq_true hi, if_true, List.map_cons, List.prod_cons, ih,
        List.getD_eq_getElem _ _ hi]
    · simp only [List.filter_cons, decide_eq_false hi, Bool.false_eq_true, if_false, List.map_cons, List.prod_cons, ih,
        List.getD_eq_default _ _ (Nat.not_lt.1 hi), one_mul]

theorem CacheSound.one_le_getD {cp : List Nat} (h : CacheSound cp) (i : Nat) : 1 ≤ cp.getD i 1 := by
  by_cases hi : i < cp.length
  · rw [List.getD_eq_getElem _ _ hi]; exact (h.range (List.getElem_mem hi)).1
  · rw [List.getD_eq_default _ _ (Nat.not_lt.1 hi)]

theorem getD_one_le_of_prefix {cp cp' : List Nat} (h : cp <+: cp') (hs : CacheSound cp') (i : Nat) :
    cp.getD i 1 ≤ cp'.getD i 1 := by
  by_cases hi : i < cp.length
  · rw [List.getD_eq_getElem _ _ hi, List.getD_eq_getElem _ _ (lt_of_lt_of_le hi h.length_le), h.getElem hi]
  · rw [List.getD_eq_default _ _ (Nat.not_lt.1 hi)]; exact hs.one_le_getD i

/-- Growing the cache and adding an index to the store only lets the product of the cached moduli grow. -/
theorem product_cachedModuli_mono {s t : State} (hprefix : s.cp <+: t.cp) (hs : Machine.CacheSound t.cp)
    (hidx : t.dec.indices = s.dec.indices ∨ ∃ idx, t.dec.indices.Perm (idx :: s.dec.indices)) :
    product s.cachedModuli ≤ product t.cachedModuli := by
  rw [State.product_cachedModuli, State.product_cachedModuli]
  calc (s.dec.indices.map fun i => s.cp.getD i 1).prod
      ≤ (s.dec.indices.map fun i => t.cp.getD i 1).prod :=
        List.prod_map_le_prod_map₀ _ _ (fun i _ => Nat.zero_le _) fun i _ => getD_one_le_of_prefix hprefix hs i
    _ ≤ (t.dec.indices.map fun i => t.cp.getD i 1).prod := by
        rcases hidx with h | ⟨idx, h⟩
        · rw [h]
        · rw [(h.map _).prod_eq, List.map_cons, List.prod_cons]
          exact Nat.le_mul_of_pos_left _ (hs.one_le_getD idx)

/-- CMP sets exactly one of the three order flags (40_alu.md R113). -/
theorem compareFlags_sound (x y : Int) (f : Flags) : (compareFlags x y f).Sound := by
  simp only [Flags.Sound, compareFlags, decide_eq_true_eq]
  omega

section
variable {i : Instr} {s t : State}

theorem Touches.flagsSound (w : Touches i s t) (hs : s.flags.Sound) : t.flags.Sound := by
  rcases w.flags with h | ⟨a, b, -, h⟩ | ⟨-, -, c, h⟩
  · rwa [h]
  · rw [h]; exact compareFlags_sound _ _ _
  · rw [h]; exact hs

/-- A command that leaves C as it was leaves no store with fewer cached moduli than it found. -/
theorem Touches.completeFlagSound (w : Touches i s t) (hcache : s.CacheSound) (hs : s.CompleteFlagSound) :
    t.CompleteFlagSound := by
  have keeps (hc : t.flags.c = s.flags.c) (hminb : t.dec.minb = s.dec.minb)
      (hidx : t.dec.indices = s.dec.indices ∨ ∃ idx, t.dec.indices.Perm (idx :: s.dec.indices)) :
      t.CompleteFlagSound := by
    intro htc
    rw [hminb]
    exact lt_of_lt_of_le (hs (hc ▸ htc)) (product_cachedModuli_mono w.grown.isPrefix (w.grown.sound hcache.1) hidx)
  have dec (hc : t.flags.c = s.flags.c) : t.CompleteFlagSound := by
    rcases w.dec with h | ⟨-, h⟩ | ⟨-, idx, bytes, h⟩
    · exact keeps hc (by rw [h]) (.inl (by rw [h]))
    · exact h
    · refine keeps hc (by rw [h]) ?_
      rw [h]
      exact (perm_indices_storePut idx bytes s.dec.s).imp_right fun hp => ⟨idx, hp⟩
  rcases w.flags with h | ⟨a, b, -, h⟩ | ⟨-, h, -⟩
  · exact dec (by rw [h])
  · exact dec (by rw [h]; rfl)
  · exact h

end

/-- The invariants of FLAGS, with that of the cache, which C depends on. -/
structure State.FlagsSound (s : State) : Prop where
  cache : s.CacheSound
  order : s.flags.Sound
  complete : s.CompleteFlagSound

theorem Touches.stateFlagsSound {i : Instr} {s t : State} (w : Touches i s t) (hs : s.FlagsSound) : t.FlagsSound :=
  ⟨w.cacheSound hs.cache, w.flagsSound hs.order, w.completeFlagSound hs.cache hs.complete⟩

/-- Clear flags are sound. -/
theorem flagsSound_of_clear {t : State} (hcache : t.CacheSound) (h : t.flags = ⟨false, false, false, false⟩) :
    t.FlagsSound :=
  ⟨hcache, by simp [Flags.Sound, h], State.completeFlagSound_of_clear (by rw [h])⟩

theorem event_keeps_flagsSound {s : State} (hs : s.FlagsSound) (e : Event) : (s.event e).FlagsSound := by
  have hcache := event_keeps_cacheSound hs.cache e
  rcases event_touches s e with h | h | h
  · refine ⟨hcache, by rw [h.flags]; exact hs.order, ?_⟩
    have hcomplete := hs.complete
    unfold State.CompleteFlagSound State.cachedModuli at *
    rwa [h.flags, h.dec, h.cp]
  · exact flagsSound_of_clear hcache (by rw [h]; rfl)
  · exact flagsSound_of_clear hcache (by rw [h]; rfl)

/-- Settles O60: CMP sets one order flag, DECDONE sets C by a complete store, and until DECINIT clears C nothing takes a
cached modulus from the store. -/
theorem stepKeepsFlagsSound : Obligations.StepKeepsFlagsSound := by
  unfold Obligations.StepKeepsFlagsSound
  intro s t hcache horder hcomplete h
  have ht : t.FlagsSound :=
    step_keeps (P := State.FlagsSound) (fun _ _ ⟨h1, h2, h3⟩ => ⟨h1, h2, h3⟩)
      (fun _ _ _ hs h => (exec_touches h).stateFlagsSound hs) (fun _ ⟨h1, h2, h3⟩ => ⟨h1, h2, h3⟩)
      (fun _ e h => event_keeps_flagsSound h e) ⟨hcache, horder, hcomplete⟩ h
  exact ⟨ht.order, ht.complete⟩

end Sys2Proof.Machine
end

section
/-! # A running command and the host's registers

Every meaning reads the latched arguments, and STATUS keeps the DROP it had: `HostRegs.on` rewrites what the host owns, and
each meaning commutes with it. -/

namespace Sys2Proof.Machine

/-! ## Rewriting the host's registers -/

/-- Values for ARG0 to ARG2 and DROP (10_state.md R33, R36). -/
structure HostRegs where
  arg0 : Word
  arg1 : Word
  arg2 : Word
  drop : Bool

/-- `s` with the host's registers rewritten. -/
def HostRegs.on (h : HostRegs) (s : State) : State :=
  { s with arg0 := h.arg0, arg1 := h.arg1, arg2 := h.arg2, status := { s.status with drop := h.drop } }

/-- A command's success with the host's registers rewritten in its state. -/
def HostRegs.onResult (h : HostRegs) (r : Result) : Result := ⟨h.on r.st, r.big⟩

/-- An outcome with the host's registers rewritten in its next state. -/
def HostRegs.onNext (h : HostRegs) : Host.Outcome State Fault Refusal → Host.Outcome State Fault Refusal
  | .next t => .next (h.on t)
  | .fault r => .fault r
  | .refused r => .refused r

section
variable (h : HostRegs) (s : State)

/-- What a command reads is not what the host rewrites. -/
@[simp] theorem HostRegs.on_reads :
    (h.on s).par = s.par ∧ (h.on s).flags = s.flags ∧ (h.on s).cp = s.cp ∧ (h.on s).crt = s.crt ∧ (h.on s).enc = s.enc ∧
    (h.on s).dec = s.dec ∧ (h.on s).larg0 = s.larg0 ∧ (h.on s).larg1 = s.larg1 ∧ (h.on s).larg2 = s.larg2 ∧
    (h.on s).scalar0 = s.scalar0 ∧ (h.on s).scalar1 = s.scalar1 ∧ (h.on s).scalar2 = s.scalar2 ∧
    (∀ i, (h.on s).reg i = s.reg i) ∧ (h.on s).shiftCount = s.shiftCount ∧
    (∀ a n, (h.on s).outOfRange a n = s.outOfRange a n) ∧ (∀ a n, (h.on s).memRead a n = s.memRead a n) ∧
    ∀ a ew n, (h.on s).readEntries a ew n = s.readEntries a ew n :=
  ⟨rfl, rfl, rfl, rfl, rfl, rfl, rfl, rfl, rfl, rfl, rfl, rfl, fun _ => rfl, rfl, fun _ _ => rfl, fun _ _ => rfl,
    fun _ _ _ => rfl⟩

theorem HostRegs.on_setCp_setRes0 :
    (∀ cp, (h.on s).setCp cp = h.on (s.setCp cp)) ∧ ∀ v, (h.on s).setRes0 v = h.on (s.setRes0 v) :=
  ⟨fun _ => rfl, fun _ => rfl⟩

/-- A completion commutes with the rewriting: it keeps DROP, and writes no argument register. -/
theorem HostRegs.finish_on (r : Except CoreErr Result) :
    (h.on s).finish (r.map h.onResult) = h.onNext (s.finish r) := by
  cases r <;> rfl

theorem HostRegs.writeBig_on (d : Reg) (v : Int) : (h.on s).writeBig d v = (s.writeBig d v).map h.onResult := by
  unfold State.writeBig
  rw [(h.on_reads s).1]
  split <;> rfl

theorem HostRegs.shiftBody_on (d a : Reg) (n : Int) : shiftBody d a n (h.on s) = (shiftBody d a n s).map h.onResult := by
  simp only [shiftBody, HostRegs.on_reads, HostRegs.writeBig_on]
  split
  · split <;> rfl
  · rfl

/-- Every command commutes with the rewriting of the host's registers (10_state.md R29, R36): both sides make the same checks
and lookups, and each branch is a completion. -/
theorem HostRegs.exec_on (i : Instr) : exec i (h.on s) = h.onNext (exec i s) := by
  cases i with
  | nop | cmp => rfl
  | ldi | mov | add | sub | mul | gcd | shl | shr | crtbase =>
    simp only [exec, execLdi, execMov, execAdd, execSub, execMul, execGcd, execShl, execShr, execCrtbase,
      HostRegs.on_reads, HostRegs.writeBig_on, HostRegs.shiftBody_on, HostRegs.finish_on]
  | rem | mod | minv | pow | mpow | ldbe | stbe | stbew | crtcoef | crtcomb | crtw | crtm | encinit | enchunk | decinit
  | decpush =>
    simp only [exec, execRem, execMod, execMinv, execPow, execMpow, execLdbe, execStbe, execStbew, execCrtcoef, execCrtcomb,
      execCrtw, execCrtm, execEncinit, execEnchunk, execDecinit, execDecpush, HostRegs.on_reads, HostRegs.writeBig_on,
      ← HostRegs.finish_on]
    repeat' split
    all_goals rfl
  | cpget =>
    simp only [exec, execCpget, HostRegs.on_reads]
    split
    · rfl
    · simp only [HostRegs.on_setCp_setRes0, HostRegs.writeBig_on, HostRegs.finish_on]
  | encgen | decdone | decrec =>
    simp only [exec, execEncgen, execDecdone, execDecrec, HostRegs.on_reads]
    repeat' split
    all_goals rfl

end

/-- Settles O47: a command run on rewritten host registers is the command run, then the rewriting. -/
theorem runningCommandIgnoresHostRegisters : Obligations.RunningCommandIgnoresHostRegisters := by
  unfold Obligations.RunningCommandIgnoresHostRegisters
  intro i s t v₀ v₁ v₂ drop h
  have hon := HostRegs.exec_on ⟨v₀, v₁, v₂, drop⟩ s i
  rw [h] at hon
  exact hon

end Sys2Proof.Machine
end

section
/-! # MAXBITS -/

namespace Sys2Proof.Machine

/-- Noting one value below `2^32` bits takes the maximum (10_state.md R24). -/
theorem toNat_countWord_max (m : Word) {n : Nat} (h : n < 2 ^ 32) : (countWord (max m.toNat n)).toNat = max m.toNat n :=
  countWord_toNat (max_lt m.isLt h)

/-- Settles O48, by induction on the values written. -/
theorem maxBitsTakesMaximum : Obligations.MaxBitsTakesMaximum := by
  unfold Obligations.MaxBitsTakesMaximum
  intro m vs
  induction vs generalizing m with
  | nil => intro _; exact ⟨le_rfl, by simp, .inl rfl⟩
  | cons v vs ih =>
    intro hwide
    obtain ⟨hv, hvs⟩ := List.forall_mem_cons.1 hwide
    obtain ⟨hle, hall, hmax⟩ := ih (countWord (max m.toNat (bitlen v))) hvs
    rw [toNat_countWord_max m hv] at hle hmax
    change m.toNat ≤ (noteBits (countWord (max m.toNat (bitlen v))) vs).toNat ∧ _
    refine ⟨le_trans (le_max_left _ _) hle, List.forall_mem_cons.2 ⟨le_trans (le_max_right _ _) hle, hall⟩, ?_⟩
    rcases hmax with h | ⟨w, hw, h⟩
    · rcases max_choice m.toNat (bitlen v) with hm | hm
      · exact .inl (h.trans hm)
      · exact .inr ⟨v, List.mem_cons_self, h.trans hm⟩
    · exact .inr ⟨w, List.mem_cons_of_mem v hw, h⟩

end Sys2Proof.Machine
end

section
/-! # Steps of the engine -/

namespace Sys2Proof.Machine

/-- Settles O6: an empty script and an `engine` event both give the engine its turn. -/
theorem stepRunsDecodedCommand : Obligations.StepRunsDecodedCommand := by
  unfold Obligations.StepRunsDecodedCommand
  intro s i hbusy hdec
  refine ⟨fun hs => ?_, fun rest hs => ?_⟩
  · exact (moveOnce_nil hs).trans (engineTurn_exec hbusy hdec)
  · exact (moveOnce_engine hs).trans (engineTurn_exec hbusy hdec)

/-- No meaning of a command stops the machine. -/
theorem exec_next (i : Instr) (s : State) : ∃ t, exec i s = .next t := by
  cases i with
  | nop | cmp => exact ⟨_, rfl⟩
  | cpget | encgen | decdone | decrec =>
    simp only [exec, execCpget, execEncgen, execDecdone, execDecrec]
    repeat' split
    all_goals exact State.finish_next _ _
  | _ => exact State.finish_next _ _

theorem engineTurn_next (s : State) : ∃ t, engineTurn s = .next t := by
  cases hb : s.status.busy with
  | false => exact ⟨s, engineTurn_idle hb⟩
  | true =>
    cases hd : decode s.lcmd with
    | ok i =>
      obtain ⟨t, ht⟩ := exec_next i s
      exact ⟨t, (engineTurn_exec hb hd).trans ht⟩
    | error e => exact ⟨_, engineTurn_illegal hb hd⟩

theorem step_next (s : State) : ∃ t, step s = .next t := by
  unfold step
  cases hs : s.script with
  | nil => rw [moveOnce_nil hs]; exact engineTurn_next s
  | cons e rest =>
    by_cases he : e = .engine
    · subst he; rw [moveOnce_engine hs]; exact engineTurn_next _
    · exact ⟨_, moveOnce_event hs he⟩

/-- The engine's turn ends the command in flight, legal or not (10_state.md R47, 30_encoding.md R87). -/
theorem engineTurn_completes {s t : State} (hb : s.status.busy = true) (h : engineTurn s = .next t) :
    t.status.busy = false ∧ t.status.done = true := by
  cases hd : decode s.lcmd with
  | ok i =>
    rw [engineTurn_exec hb hd] at h
    rcases (exec_touches h).status with hok | ⟨e, herr⟩
    · rw [hok]; exact ⟨rfl, rfl⟩
    · rw [herr]; exact ⟨rfl, rfl⟩
  | error e =>
    rw [engineTurn_illegal hb hd] at h
    cases h; exact ⟨rfl, rfl⟩

/-- Settles O9: no meaning stops, and every completion writes STATUS. -/
theorem everyCommandCompletes : Obligations.EveryCommandCompletes := by
  unfold Obligations.EveryCommandCompletes
  refine ⟨step_next, fun s t hs hb h => ?_⟩
  exact engineTurn_completes hb ((moveOnce_nil hs).symm.trans h)

end Sys2Proof.Machine
end

section
/-! # The host's register window -/

namespace Sys2Proof.Machine

/-! ## Steps that are an access to the window -/

theorem step_regWrite {s : State} {o : BitVec 31} {n : Nat} {v : Word} {rest : List Event}
    (h : s.script = .regWrite o n v :: rest) : step s = .next ({ s with script := rest }.writeWindow o.toNat n v) :=
  moveOnce_event h (by simp)

theorem step_regRead {s : State} {o : BitVec 31} {n : Nat} {rest : List Event} (h : s.script = .regRead o n :: rest) :
    step s = .next ({ s with script := rest }.answer (.word (s.readWindow o.toNat n))) :=
  moveOnce_event h (by simp)

theorem alignedWord_iff (o n : Nat) : alignedWord o n = true ↔ n = 4 ∧ o % 4 = 0 := by simp [alignedWord]

theorem writeWindow_aligned (s : State) {o : Nat} (h : o % 4 = 0) (v : Word) : s.writeWindow o 4 v = s.writeReg o v :=
  if_pos ((alignedWord_iff o 4).2 ⟨rfl, h⟩)

theorem step_regWrite_aligned {s : State} {o : BitVec 31} {v : Word} {rest : List Event} {a : Nat}
    (h : s.script = .regWrite o 4 v :: rest) (ho : o.toNat = a) (ha : a % 4 = 0) :
    step s = .next ({ s with script := rest }.writeReg a v) := by
  rw [step_regWrite h, ho, writeWindow_aligned _ ha]

theorem writeWindow_unaligned (s : State) {o n : Nat} (h : n ≠ 4 ∨ o % 4 ≠ 0) (v : Word) : s.writeWindow o n v = s := by
  refine if_neg fun ha => ?_
  obtain ⟨hn, ho⟩ := (alignedWord_iff o n).1 ha
  exact h.elim (· hn) (· ho)

theorem readWindow_unaligned (s : State) {o n : Nat} (h : n ≠ 4 ∨ o % 4 ≠ 0) : s.readWindow o n = 0 := by
  refine if_neg fun ha => ?_
  obtain ⟨hn, ho⟩ := (alignedWord_iff o n).1 ha
  exact h.elim (· hn) (· ho)

theorem readWindow_aligned (s : State) {o : Nat} (h : o % 4 = 0) : s.readWindow o 4 = s.windowReg o :=
  if_pos ((alignedWord_iff o 4).2 ⟨rfl, h⟩)

/-- A register that no write reaches (10_state.md R44). -/
theorem writeReg_unwritable (s : State) {o : Nat} (h : o ∉ [0x04, 0x08, 0x10, 0x14, 0x18, 0x1C]) (v : Word) :
    s.writeReg o v = s := by
  unfold State.writeReg
  split
  case h_7 => rfl
  all_goals simp at h

/-- Offsets past the last register read 0 (10_state.md R44). -/
theorem windowReg_unmapped (s : State) {o : Nat} (h : 0x90 < o) : s.windowReg o = 0 := by
  unfold State.windowReg
  split
  case h_33 => rfl
  all_goals omega

/-! ## Writes -/

theorem writeCtrl_reset (s : State) {v : Word} (h : v.getLsbD 0 = true) : s.writeCtrl v = s.softReset := if_pos h

theorem writeCtrl_clear (s : State) {v : Word} (h0 : v.getLsbD 0 = false) (h1 : v.getLsbD 1 = true) :
    s.writeCtrl v = s.setMaxBits 0 := by
  rw [State.writeCtrl, h0, h1]; rfl

theorem writeCtrl_nothing (s : State) {v : Word} (h0 : v.getLsbD 0 = false) (h1 : v.getLsbD 1 = false) :
    s.writeCtrl v = s := by
  rw [State.writeCtrl, h0, h1]; rfl

theorem writeStatus_clear (s : State) {v : Word} (h : v.getLsbD 3 = true) :
    s.writeStatus v = s.setStatus (s.status.withDrop false) := if_pos h

theorem writeStatus_nothing (s : State) {v : Word} (h : v.getLsbD 3 = false) : s.writeStatus v = s := by
  rw [State.writeStatus, h]; rfl

theorem writeCmd_idle (s : State) (w : Word) (h : s.status.busy = false) : s.writeCmd w = s.accept w := by
  rw [State.writeCmd, h]; rfl

theorem writeCmd_busy (s : State) (w : Word) (h : s.status.busy = true) :
    s.writeCmd w = s.setStatus (s.status.withDrop true) := if_pos h

/-- Settles O49: the step is a write to CMD, by BUSY. -/
theorem commandAcceptance : Obligations.CommandAcceptance := by
  unfold Obligations.CommandAcceptance
  intro s w rest hs
  have hstep : step s = .next ({ s with script := rest }.writeCmd w) := step_regWrite_aligned hs rfl (by decide)
  exact ⟨fun hb => hstep.trans (congrArg _ (writeCmd_idle _ w hb)),
    fun hb => hstep.trans (congrArg _ (writeCmd_busy _ w hb))⟩

theorem softReset_resetValues (s : State) : s.softReset.ResetValues := by
  simp [State.ResetValues, State.reg]

/-- Settles O50: each step is a write to the register at its offset, by the bits of the value. -/
theorem hostRegisterWrites : Obligations.HostRegisterWrites := by
  unfold Obligations.HostRegisterWrites
  intro s o v rest hs
  have ctrl : o = 0x04 → step s = .next ({ s with script := rest }.writeCtrl v) := by
    rintro rfl; exact step_regWrite_aligned hs rfl (by decide)
  have status : o = 0x08 → step s = .next ({ s with script := rest }.writeStatus v) := by
    rintro rfl; exact step_regWrite_aligned hs rfl (by decide)
  refine ⟨fun ho h0 => ?_, fun ho h0 h1 => ?_, fun ho h0 h1 => ?_, fun ho h3 => ?_, fun ho h3 => ?_, ?_, ?_, ?_⟩
  · have hreset := (ctrl ho).trans (congrArg _ (writeCtrl_reset _ h0))
    exact ⟨_, hreset, softReset_resetValues _, rfl, rfl, rfl, rfl, rfl⟩
  · exact (ctrl ho).trans (congrArg _ (writeCtrl_clear _ h0 h1))
  · exact (ctrl ho).trans (congrArg _ (writeCtrl_nothing _ h0 h1))
  · exact (status ho).trans (congrArg _ (writeStatus_clear _ h3))
  · exact (status ho).trans (congrArg _ (writeStatus_nothing _ h3))
  · rintro rfl; exact step_regWrite_aligned hs rfl (by decide)
  · rintro rfl; exact step_regWrite_aligned hs rfl (by decide)
  · rintro rfl; exact step_regWrite_aligned hs rfl (by decide)

/-! ## Accesses without effect -/

theorem regWrite_without_effect {s : State} {o : BitVec 31} {n : Nat} {v : Word} {rest : List Event}
    (hs : s.script = .regWrite o n v :: rest)
    (h : n ≠ 4 ∨ o.toNat % 4 ≠ 0 ∨ (o ≠ 0x04 ∧ o ≠ 0x08 ∧ o ≠ 0x10 ∧ o ≠ 0x14 ∧ o ≠ 0x18 ∧ o ≠ 0x1C)) :
    step s = .next { s with script := rest } := by
  by_cases hu : n ≠ 4 ∨ o.toNat % 4 ≠ 0
  · rw [step_regWrite hs, writeWindow_unaligned _ hu v]
  · push Not at hu
    obtain ⟨rfl, ho⟩ := hu
    rw [step_regWrite_aligned hs rfl ho, writeReg_unwritable]
    intro hm
    have hmem : o ∈ [0x04, 0x08, 0x10, 0x14, 0x18, 0x1C].map (BitVec.ofNat 31) := List.mem_map.2 ⟨_, hm, by simp⟩
    obtain ⟨h1, h2, h3, h4, h5, h6⟩ := (h.resolve_left (by simp)).resolve_left (by simp [ho])
    fin_cases hmem
    exacts [h1 rfl, h2 rfl, h3 rfl, h4 rfl, h5 rfl, h6 rfl]

theorem readWindow_reserved (s : State) {o : BitVec 31} {n : Nat} (h : n ≠ 4 ∨ o.toNat % 4 ≠ 0 ∨ 0x90 < o.toNat
    ∨ o ∈ [0x04, 0x10, 0x48, 0x4C, 0x6C].map (BitVec.ofNat 31)) : s.readWindow o.toNat n = 0 := by
  by_cases hu : n ≠ 4 ∨ o.toNat % 4 ≠ 0
  · exact readWindow_unaligned s hu
  · push Not at hu
    obtain ⟨rfl, ho⟩ := hu
    rw [readWindow_aligned s ho]
    rcases (h.resolve_left (by simp)).resolve_left (by simp [ho]) with hpast | hmem
    · exact windowReg_unmapped s hpast
    · fin_cases hmem <;> rfl

/-- Settles O52: what an access does is decided by its width, its alignment and its offset. -/
theorem registerAccessesWithoutEffect : Obligations.RegisterAccessesWithoutEffect := by
  unfold Obligations.RegisterAccessesWithoutEffect
  intro s o n rest
  refine ⟨fun v => regWrite_without_effect, fun hs => ?_⟩
  refine ⟨s.readWindow o.toNat n, step_regRead hs, ?_, readWindow_reserved s⟩
  rintro rfl; rfl

/-! ## The register map -/

/-- The bits of a number given as its lowest bit and the rest. -/
theorem testBit_bool_add (b : Bool) (n : Nat) :
    (b.toNat + 2 * n).testBit 0 = b ∧ ∀ k, (b.toNat + 2 * n).testBit (k + 1) = n.testBit k := by
  have hb := b.toNat_le
  refine ⟨?_, fun k => ?_⟩
  · rw [Nat.testBit_zero, Nat.add_mul_mod_self_left]; cases b <;> rfl
  · rw [Nat.testBit_add_one, show (b.toNat + 2 * n) / 2 = n by omega]

/-- The bits of a number given as its four lowest bits and the rest. -/
theorem testBit_four_bools (b₀ b₁ b₂ b₃ : Bool) (n : Nat) {m : Nat}
    (hm : m = b₀.toNat + 2 * b₁.toNat + 4 * b₂.toNat + 8 * b₃.toNat + 16 * n) :
    m.testBit 0 = b₀ ∧ m.testBit 1 = b₁ ∧ m.testBit 2 = b₂ ∧ m.testBit 3 = b₃ ∧ ∀ k, m.testBit (k + 4) = n.testBit k := by
  obtain ⟨h0, hrest0⟩ := testBit_bool_add b₀ (b₁.toNat + 2 * (b₂.toNat + 2 * (b₃.toNat + 2 * n)))
  obtain ⟨h1, hrest1⟩ := testBit_bool_add b₁ (b₂.toNat + 2 * (b₃.toNat + 2 * n))
  obtain ⟨h2, hrest2⟩ := testBit_bool_add b₂ (b₃.toNat + 2 * n)
  obtain ⟨h3, hrest3⟩ := testBit_bool_add b₃ n
  rw [show m = b₀.toNat + 2 * (b₁.toNat + 2 * (b₂.toNat + 2 * (b₃.toNat + 2 * n))) by omega]
  refine ⟨h0, (hrest0 0).trans h1, (hrest0 1).trans ((hrest1 0).trans h2),
    (hrest0 2).trans ((hrest1 1).trans ((hrest2 0).trans h3)), fun k => ?_⟩
  exact (hrest0 (k + 3)).trans ((hrest1 (k + 2)).trans ((hrest2 (k + 1)).trans (hrest3 k)))

theorem getLsbD_ofNat_of_lt {m k : Nat} (hm : m < 2 ^ 32) : (BitVec.ofNat 32 m).getLsbD k = m.testBit k := by
  rw [← BitVec.testBit_toNat, BitVec.toNat_ofNat, Nat.mod_eq_of_lt hm]

/-- FLAGS bit by bit (10_state.md R22, R34). -/
theorem Flags.getLsbD_word (f : Flags) :
    f.word.getLsbD 0 = f.lt ∧ f.word.getLsbD 1 = f.eq ∧ f.word.getLsbD 2 = f.gt ∧ f.word.getLsbD 3 = f.c
      ∧ ∀ k, f.word.getLsbD (k + 4) = false := by
  have h1 := f.lt.toNat_le
  have h2 := f.eq.toNat_le
  have h3 := f.gt.toNat_le
  have h4 := f.c.toNat_le
  unfold Flags.word
  simp only [getLsbD_ofNat_of_lt (show f.lt.toNat + 2 * f.eq.toNat + 4 * f.gt.toNat + 8 * f.c.toNat < 2 ^ 32 by omega)]
  simpa only [Nat.zero_testBit] using testBit_four_bools f.lt f.eq f.gt f.c 0 (by simp)

/-- STATUS bit by bit (10_state.md R33): ECODE in bits 8 to 11. -/
theorem Status.getLsbD_word (t : Status) :
    (t.word.getLsbD 0 = t.busy ∧ t.word.getLsbD 1 = t.done ∧ t.word.getLsbD 2 = t.err ∧ t.word.getLsbD 3 = t.drop)
      ∧ (∀ k < 4, t.word.getLsbD (k + 4) = false) ∧ ∀ k, t.word.getLsbD (k + 8) = t.ecode.getLsbD k := by
  have h1 := t.busy.toNat_le
  have h2 := t.done.toNat_le
  have h3 := t.err.toNat_le
  have h4 := t.drop.toNat_le
  have h5 := t.ecode.isLt
  unfold Status.word
  simp only [getLsbD_ofNat_of_lt (show t.busy.toNat + 2 * t.done.toNat + 4 * t.err.toNat + 8 * t.drop.toNat
    + 256 * t.ecode.toNat < 2 ^ 32 by omega)]
  obtain ⟨hbusy, hdone, herr, hdrop, hrest⟩ :=
    testBit_four_bools t.busy t.done t.err t.drop (2 ^ 4 * t.ecode.toNat) (m := t.busy.toNat + 2 * t.done.toNat
      + 4 * t.err.toNat + 8 * t.drop.toNat + 256 * t.ecode.toNat) (by omega)
  refine ⟨⟨hbusy, hdone, herr, hdrop⟩, fun k hk => ?_, fun k => ?_⟩
  · rw [hrest, Nat.testBit_two_pow_mul, decide_eq_false (by omega), Bool.false_and]
  · rw [hrest (k + 4), Nat.testBit_two_pow_mul, decide_eq_true (by omega), Bool.true_and, Nat.add_sub_cancel,
      BitVec.testBit_toNat]

/-- A capability register saturates (10_state.md R39). -/
theorem capWord_toNat (n : Nat) : (capWord n).toNat = min (2 ^ 32 - 1) n := by
  rw [capWord, BitVec.toNat_ofNat, Nat.mod_eq_of_lt (by omega), min_comm]

theorem ofNat_bool_toNat (b : Bool) : (BitVec.ofNat 32 b.toNat).toNat = b.toNat := by cases b <;> rfl

/-- Settles O51: STATUS and FLAGS bit by bit, the other registers as the window's map gives them. -/
theorem registerMap : Obligations.RegisterMap := by
  unfold Obligations.RegisterMap
  intro s
  obtain ⟨⟨hbusy, hdone, herr, hdrop⟩, hgap, hecode⟩ := s.status.getLsbD_word
  obtain ⟨hlt, heq, hgt, hc, hhigh⟩ := s.flags.getLsbD_word
  refine ⟨⟨rfl, rfl, rfl⟩, fun k => ?_, fun k => ?_, rfl, ?_, ?_, ofNat_bool_toNat _, ofNat_bool_toNat _, rfl⟩
  · match k with
    | 0 => exact hbusy
    | 1 => exact hdone
    | 2 => exact herr
    | 3 => exact hdrop
    | 4 => exact hgap 0 (by decide)
    | 5 => exact hgap 1 (by decide)
    | 6 => exact hgap 2 (by decide)
    | 7 => exact hgap 3 (by decide)
    | 8 => exact hecode 0
    | 9 => exact hecode 1
    | 10 => exact hecode 2
    | 11 => exact hecode 3
    | k + 12 => exact (hecode (k + 4)).trans (BitVec.getLsbD_of_ge _ _ (by omega))
  · match k with
    | 0 => exact hlt
    | 1 => exact heq
    | 2 => exact hgt
    | 3 => exact hc
    | k + 4 => exact hhigh k
  · simp only [List.map_cons, List.map_nil, ← capWord_toNat]; rfl
  · show (capMaxW s.par).toNat = _
    cases h : s.par.maxW with
    | none => simp [capMaxW, h]
    | some w => simp [capMaxW, h, capWord_toNat]

end Sys2Proof.Machine
end

section
/-! # The state after reset -/

namespace Sys2Proof.Machine

/-- Settles O55: the default parameters meet R8, and the reset values meet each invariant under any that do. -/
theorem resetIsSound : Obligations.ResetIsSound := by
  unfold Obligations.ResetIsSound
  have hwf : State.reset.par.wf = true := by decide
  have hcache : State.reset.CacheSound := cacheSound_of_seed rfl (by decide)
  obtain ⟨hcap, hcrt, henc, hdec⟩ := resetWith_dataSound (p := Params.default) hwf [] 0 [] []
  obtain ⟨-, horder, hcomplete⟩ := flagsSound_of_clear hcache rfl
  have hstatus : State.reset.status.Sound := by simp [Status.Sound, State.reset, State.resetWith]
  have hmem : State.reset.MemSound := ⟨List.Pairwise.nil, by simp [State.reset, State.resetWith]⟩
  exact ⟨hstatus, hmem, hcache, hwf, hcap, hcrt, henc, hdec, horder, hcomplete⟩

end Sys2Proof.Machine
end

section
/-! # Data memory

`exec_storesInRange` and `event_mem_cases` say what a command and an event can do to DMEM as a list of written bytes, from
which the invariant of DMEM is read off. The host's accesses to the DMEM window are the rules of `readDmem`, `writeDmem` and
`noteDrop`, by BUSY. -/

namespace Sys2Proof.Machine

/-! ## What a command and an event write to DMEM -/

/-- DMEM of `t` is that of `s`, or that of `s` with a run of bytes within DMEM_SIZE written (20_memory.md R64). -/
def State.StoresInRange (s t : State) : Prop :=
  t.mem = s.mem ∨ ∃ a l, s.inRange a l.length ∧ t.mem = s.mem.putAll a l

theorem State.inRange.mono {s : State} {a n m : Nat} (h : s.inRange a n) (hm : m ≤ n) : s.inRange a m :=
  le_trans (Nat.add_le_add_left hm a) h

theorem exec_storesInRange_of_storeRange {i : Instr} {s t : State} (hi : storeRange s i = none)
    (h : exec i s = .next t) : s.StoresInRange t := by
  rcases (exec_writes h).mem with hm | ⟨a, n, l, hr, -, -⟩
  · exact .inl hm
  · rw [hi] at hr; cases hr

/-- A command checks the range of all it stores before it stores a byte (20_memory.md R64). -/
theorem exec_storesInRange {i : Instr} {s t : State} (h : exec i s = .next t) : s.StoresInRange t := by
  cases i with
  | stbe a =>
    obtain ⟨l, -, hr, rfl⟩ | ⟨e, -, rfl⟩ := exec_stbe_cases h
    · exact .inr ⟨_, l, hr, rfl⟩
    · exact .inl rfl
  | stbew a =>
    obtain ⟨l, -, hr, rfl⟩ | ⟨e, -, rfl⟩ := exec_stbew_cases h
    · exact .inr ⟨_, l, hr, rfl⟩
    · exact .inl rfl
  | encgen =>
    obtain ⟨-, rfl⟩ | rfl | ⟨cp', r, -, ⟨m, l, -, -, hr, -, hl, rfl⟩ | ⟨m, -, -, rfl⟩ | ⟨e, -, rfl⟩⟩ := exec_encgen_cases h
    · exact .inl rfl
    · exact .inl rfl
    · exact .inr ⟨_, l, hr.mono (by omega), rfl⟩
    · exact .inl rfl
    · exact .inl rfl
  | decrec =>
    obtain ⟨-, rfl⟩ | rfl | ⟨cp', r, -, ⟨ms, l, n, -, -, hr, -, hl, rfl⟩ | ⟨ms, -, rfl⟩ | ⟨ms, e, -, -, -, -, rfl⟩
      | ⟨e, -, rfl⟩⟩ := exec_decrec_cases h
    · exact .inl rfl
    · exact .inl rfl
    · exact .inr ⟨_, l, hr.mono hl, rfl⟩
    · exact .inl rfl
    · exact .inl rfl
    · exact .inl rfl
  | _ => exact exec_storesInRange_of_storeRange rfl h

/-- No write to the register window reaches DMEM, the soft reset included (70_reset_and_hazards.md R251). -/
theorem writeReg_mem (s : State) (o : Nat) (v : Word) : (s.writeReg o v).mem = s.mem := by
  unfold State.writeReg State.writeCtrl State.writeStatus State.writeCmd
  repeat' split
  all_goals rfl

theorem noteDrop_mem (s : State) (a n : Nat) : (s.noteDrop a n).mem = s.mem := by
  unfold State.noteDrop
  split <;> rfl

/-- The bytes a host write has beyond the end are not stored (20_memory.md R61). -/
theorem writeDmem_storesInRange (s : State) (a : Nat) (bytes : List Byte) : s.StoresInRange (s.writeDmem a bytes) := by
  unfold State.writeDmem
  split
  · exact .inl (noteDrop_mem s a bytes.length)
  · by_cases ha : a ≤ s.par.dmemSize
    · refine .inr ⟨a, _, ?_, rfl⟩
      rw [State.inRange, List.length_take]; omega
    · rw [Nat.sub_eq_zero_of_le (by omega), List.take_zero]; exact .inl rfl

/-- An event stores bytes within DMEM_SIZE, or is power-on and forgets them all (20_memory.md R63). -/
theorem event_mem_cases (s : State) (e : Event) : s.StoresInRange (s.event e) ∨ (s.event e).mem = [] := by
  cases e with
  | engine => exact .inl (.inl rfl)
  | regRead o n => exact .inl (.inl rfl)
  | regWrite o n v =>
    refine .inl (.inl ?_)
    simp only [State.event, State.writeWindow]
    split
    · exact writeReg_mem s o.toNat v
    · rfl
  | memRead a n => exact .inl (.inl (noteDrop_mem s a.toNat n))
  | memWrite a bytes => exact .inl (writeDmem_storesInRange s a.toNat bytes)
  | powerOn => exact .inr rfl

theorem event_par (s : State) (e : Event) : (s.event e).par = s.par := by
  rcases event_touches s e with h | h | h
  · exact h.par
  · rw [h]; rfl
  · rw [h]; rfl

/-! ## The invariant of DMEM -/

/-- Bytes stored within DMEM_SIZE keep the canonical form and the bound. -/
theorem State.StoresInRange.memSound {s t : State} (h : s.StoresInRange t) (hpar : t.par = s.par) (hs : s.MemSound) :
    t.MemSound := by
  obtain ⟨hwf, hbound⟩ := hs
  unfold State.MemSound
  rw [hpar]
  rcases h with h | ⟨a, l, hr, h⟩
  · rw [h]; exact ⟨hwf, hbound⟩
  · rw [h]
    refine ⟨Memory.wf_putAll l hwf a, fun c hc => ?_⟩
    rcases Memory.mem_putAll l hc with hold | ⟨-, hlt⟩
    · exact hbound c hold
    · exact lt_of_lt_of_le hlt hr

theorem memSound_of_forgotten {t : State} (h : t.mem = []) : t.MemSound := by
  unfold State.MemSound
  rw [h]
  exact ⟨List.Pairwise.nil, by simp⟩

theorem event_keeps_memSound {s : State} (hs : s.MemSound) (e : Event) : (s.event e).MemSound := by
  rcases event_mem_cases s e with h | h
  · exact h.memSound (event_par s e) hs
  · exact memSound_of_forgotten h

/-- Settles O57: every store of a command or of the host lies within DMEM_SIZE, and nothing writes the parameters. -/
theorem stepKeepsMemorySound : Obligations.StepKeepsMemorySound := by
  unfold Obligations.StepKeepsMemorySound
  intro s t hs h
  refine step_keeps (P := fun u => u.MemSound ∧ u.par = s.par) (fun _ _ h => h) ?_ (fun _ h => h) ?_ ⟨hs, rfl⟩ h
  · intro i u t ⟨hu, hpar⟩ hrun
    have htu : t.par = u.par := (exec_writes hrun).par
    exact ⟨(exec_storesInRange hrun).memSound htu hu, htu.trans hpar⟩
  · intro u e ⟨hu, hpar⟩
    exact ⟨event_keeps_memSound hu e, (event_par u e).trans hpar⟩

/-! ## The host's accesses to DMEM -/

theorem step_memWrite {s : State} {a : BitVec 31} {bytes : List Byte} {rest : List Event}
    (h : s.script = .memWrite a bytes :: rest) : step s = .next ({ s with script := rest }.writeDmem a.toNat bytes) :=
  moveOnce_event h (by simp)

theorem step_memRead {s : State} {a : BitVec 31} {n : Nat} {rest : List Event} (h : s.script = .memRead a n :: rest) :
    step s = .next (({ s with script := rest }.noteDrop a.toNat n).answer (.bytes (s.readDmem a.toNat n))) :=
  moveOnce_event h (by simp)

theorem noteDrop_idle {s : State} (hb : s.status.busy = false) (a n : Nat) : s.noteDrop a n = s := by
  rw [State.noteDrop, hb]; rfl

/-- BUSY drops an access that reaches DMEM (20_memory.md R62). -/
theorem noteDrop_busy {s : State} (hb : s.status.busy = true) {a n : Nat} (hn : 0 < n) (ha : a < s.par.dmemSize) :
    s.noteDrop a n = s.setStatus (s.status.withDrop true) :=
  if_pos (by simp [hb, State.reachesDmem, hn, ha])

theorem writeDmem_idle {s : State} (hb : s.status.busy = false) (a : Nat) (bytes : List Byte) :
    s.writeDmem a bytes = s.memWrite a (bytes.take (s.par.dmemSize - a)) := by
  rw [State.writeDmem, hb]; rfl

theorem writeDmem_busy {s : State} (hb : s.status.busy = true) (a : Nat) (bytes : List Byte) :
    s.writeDmem a bytes = s.noteDrop a bytes.length := if_pos hb

theorem readDmem_busy {s : State} (hb : s.status.busy = true) (a n : Nat) : s.readDmem a n = List.replicate n 0 := if_pos hb

theorem readDmem_length (s : State) (a n : Nat) : (s.readDmem a n).length = n := by
  unfold State.readDmem
  split <;> simp

/-- An idle read, byte by byte (20_memory.md R61). -/
theorem readDmem_getD {s : State} (hb : s.status.busy = false) (a : Nat) {n k : Nat} (hk : k < n) :
    (s.readDmem a n).getD k 0 = if a + k < s.par.dmemSize then s.byteAt (a + k) else 0 := by
  rw [List.getD_eq_getElem _ _ (by rwa [readDmem_length])]
  simp [State.readDmem, hb, State.hostByte]

/-- An idle write, byte by byte: the bytes beyond the end are cut off before the write (20_memory.md R61). -/
theorem byteAt_writeDmem {s : State} (hb : s.status.busy = false) (a : Nat) (bytes : List Byte) (b : Nat) :
    (s.writeDmem a bytes).byteAt b
      = if a ≤ b ∧ b < a + bytes.length ∧ b < s.par.dmemSize then bytes.getD (b - a) 0 else s.byteAt b := by
  rw [writeDmem_idle hb, State.byteAt_memWrite, List.length_take]
  by_cases h : a ≤ b ∧ b < a + bytes.length ∧ b < s.par.dmemSize
  · obtain ⟨hab, hlen, hsize⟩ := h
    rw [if_pos (by omega), if_pos ⟨hab, hlen, hsize⟩, List.getD_eq_getElem _ _ (by rw [List.length_take]; omega),
      List.getD_eq_getElem _ _ (by omega), List.getElem_take]
  · rw [if_neg (by omega), if_neg h]

/-- Settles O53: the step is an access to the DMEM window, by BUSY. -/
theorem hostMemoryAccess : Obligations.HostMemoryAccess := by
  unfold Obligations.HostMemoryAccess
  intro s a rest
  refine ⟨fun hb => ?_, fun hb ha => ?_⟩
  · have hb' : ({ s with script := rest } : State).status.busy = false := hb
    refine ⟨fun bytes hs => ?_, fun n hs => ?_⟩
    · refine ⟨_, step_memWrite hs, ?_, byteAt_writeDmem hb' a.toNat bytes⟩
      rw [writeDmem_idle hb']; rfl
    · refine ⟨_, ?_, readDmem_length s a.toNat n, fun k hk => readDmem_getD hb a.toNat hk⟩
      rw [step_memRead hs, noteDrop_idle hb']; rfl
  · have hb' : ({ s with script := rest } : State).status.busy = true := hb
    refine ⟨fun bytes hne hs => ?_, fun n hn hs => ?_⟩
    · rw [step_memWrite hs, writeDmem_busy hb', noteDrop_busy hb' (List.length_pos_iff.2 hne) ha]; rfl
    · rw [step_memRead hs, readDmem_busy hb, noteDrop_busy hb' hn ha]; rfl

end Sys2Proof.Machine
end

section
/-! # The decoder and the encoder -/

namespace Sys2Proof

/-! ## Decoding an encoded command -/

/-- The decoder reads each field back from the packed word, and finds Z and the fields the command does not use 0
(30_encoding.md R85). -/
theorem decode_encode (i : Instr) : decode (encode i) = .ok i := by
  cases i
  all_goals
    simp (disch := decide) only [encode, decode, fieldOP_pack, fieldD_pack, fieldA_pack, fieldB_pack, fieldC_pack]
    refine ifUnusedZero_ok.2 ⟨fieldZ_pack (by decide) _ _ _ _, ?_, rfl⟩
    simp (disch := decide) only [List.all_cons, List.all_nil, fieldD_pack, fieldA_pack, fieldB_pack, fieldC_pack,
      beq_self_eq_true, Bool.and_true]

/-- The table's 32 bits of a word are the word (30_encoding.md R80). -/
theorem decodeTableWord_of_decode {w : Word} {i : Instr} (h : decode w = .ok i) :
    decodeTableWord 32 w.toNat = some i := by
  rw [decodeTableWord, Nat.mod_eq_of_lt w.isLt, BitVec.ofNat_toNat, BitVec.setWidth_eq, h]

/-- Settles O1, by cases on the command. -/
theorem decodeOfEncode : Obligations.DecodeOfEncode := by
  unfold Obligations.DecodeOfEncode
  exact fun i => ⟨decode_encode i, decodeTableWord_of_decode (decode_encode i)⟩

/-! ## The three outcomes of decoding a word -/

/-- A word that a row selects decodes, to a command whose encoding it is (30_encoding.md R85). -/
theorem decode_of_selects {r : OpRow} (hr : r ∈ opRows) {w : Word} (h : r.selects w = true) :
    ∃ i, encode i = w ∧ decode w = .ok i := by
  obtain ⟨hop, hz, hd, ha, hb, hc⟩ := (OpRow.selects_iff hr w).1 h
  obtain ⟨i, henc, hdec⟩ := decode_assigned hr hop
  have keep : ∀ {uses : Bool} {f : Reg}, (uses = false → f = 0) → (if uses then f else 0) = f := by
    intro uses f hf
    cases uses with
    | true => rfl
    | false => exact (hf rfl).symm
  refine ⟨i, ?_, hdec.trans (if_pos ⟨hz, hd, ha, hb, hc⟩)⟩
  rw [henc, keep hd, keep ha, keep hb, keep hc, hop]
  exact (eq_pack hz).symm

/-- The row of a word's OP does not select it exactly when Z or a field the row does not use is nonzero
(30_encoding.md R85, R86). -/
theorem OpRow.not_selects_iff {r : OpRow} (hr : r ∈ opRows) {w : Word} (hop : r.op = fieldOP w) :
    ¬ r.selects w = true ↔ fieldZ w ≠ 0 ∨ (r.usesD = false ∧ fieldD w ≠ 0) ∨ (r.usesA = false ∧ fieldA w ≠ 0)
      ∨ (r.usesB = false ∧ fieldB w ≠ 0) ∨ (r.usesC = false ∧ fieldC w ≠ 0) := by
  rw [OpRow.selects_iff hr]
  simp only [hop, true_and, not_and_or, Classical.not_imp, ne_eq]

/-- A word whose OP a row has, and which that row does not select, has a reserved bit set (30_encoding.md R86). -/
theorem decode_of_not_selects {r : OpRow} (hr : r ∈ opRows) {w : Word} (hop : r.op = fieldOP w)
    (h : ¬ r.selects w = true) : decode w = .error .nonzeroReserved := by
  obtain ⟨i, -, hdec⟩ := decode_assigned hr hop
  exact hdec.trans (if_neg fun hclear => h ((OpRow.selects_iff hr w).2 ⟨hop, hclear⟩))

/-- Everything decoding can answer: the command of the row that selects the word, a reserved bit that the row of its OP
refuses, or no row of its OP (30_encoding.md R85, R86). -/
theorem decode_cases (w : Word) :
    (∃ r ∈ opRows, r.selects w = true ∧ ∃ i, encode i = w ∧ decode w = .ok i)
      ∨ (∃ r ∈ opRows, r.op = fieldOP w ∧ ¬ r.selects w = true ∧ decode w = .error .nonzeroReserved)
      ∨ ((∀ r ∈ opRows, r.op ≠ fieldOP w) ∧ decode w = .error .unassignedOpcode) := by
  by_cases hrow : ∃ r ∈ opRows, r.op = fieldOP w
  · obtain ⟨r, hr, hop⟩ := hrow
    by_cases hsel : r.selects w = true
    · exact .inl ⟨r, hr, hsel, decode_of_selects hr hsel⟩
    · exact .inr (.inl ⟨r, hr, hop, hsel, decode_of_not_selects hr hop hsel⟩)
  · push Not at hrow
    exact .inr (.inr ⟨hrow, decode_unassigned hrow⟩)

/-- Of the three outcomes only a selected word decodes, and the encoding gives it back. -/
theorem selects_and_encode_of_decode {w : Word} {i : Instr} (h : decode w = .ok i) :
    (∃ r ∈ opRows, r.selects w = true) ∧ encode i = w := by
  rcases decode_cases w with ⟨r, hr, hsel, j, henc, hdec⟩ | ⟨r, -, -, -, hdec⟩ | ⟨-, hdec⟩
  · cases hdec.symm.trans h
    exact ⟨⟨r, hr, hsel⟩, henc⟩
  · cases hdec.symm.trans h
  · cases hdec.symm.trans h

/-- Settles O2: a word decodes by the row that selects it. -/
theorem encodeOfDecode : Obligations.EncodeOfDecode := by
  unfold Obligations.EncodeOfDecode
  exact fun w i h => (selects_and_encode_of_decode h).2

/-! ## Illegal words -/

theorem decode_unassigned_iff (w : Word) :
    decode w = .error .unassignedOpcode ↔ ∀ r ∈ opRows, r.op ≠ fieldOP w := by
  refine ⟨fun h => ?_, decode_unassigned⟩
  rcases decode_cases w with ⟨r, -, -, i, -, hdec⟩ | ⟨r, -, -, -, hdec⟩ | ⟨hrow, -⟩
  · cases hdec.symm.trans h
  · cases hdec.symm.trans h
  · exact hrow

theorem decode_nonzeroReserved_iff (w : Word) :
    decode w = .error .nonzeroReserved ↔ ∃ r ∈ opRows, r.op = fieldOP w ∧ ¬ r.selects w = true := by
  refine ⟨fun h => ?_, fun ⟨r, hr, hop, hsel⟩ => decode_of_not_selects hr hop hsel⟩
  rcases decode_cases w with ⟨r, -, -, i, -, hdec⟩ | ⟨r, hr, hop, hsel, -⟩ | ⟨-, hdec⟩
  · cases hdec.symm.trans h
  · exact ⟨r, hr, hop, hsel⟩
  · cases hdec.symm.trans h

/-- The OP values without a row (30_encoding.md R86). -/
theorem unassigned_op_iff {op : Nat} (h : op < 256) :
    (∀ r ∈ opRows, r.op ≠ op) ↔ (0x03 ≤ op ∧ op ≤ 0x0F) ∨ (0x1C ≤ op ∧ op ≤ 0x1F) ∨ (0x23 ≤ op ∧ op ≤ 0x2F)
      ∨ (0x31 ≤ op ∧ op ≤ 0x3F) ∨ (0x45 ≤ op ∧ op ≤ 0x4F) ∨ (0x53 ≤ op ∧ op ≤ 0x57) ∨ (0x5C ≤ op ∧ op ≤ 0xFF) := by
  simp only [opRows, List.forall_mem_cons, List.not_mem_nil, false_implies, implies_true, and_true]
  omega

/-- Settles O3: a word is illegal exactly when the row of its OP does not exist, or exists and does not select it. -/
theorem illegalWords : Obligations.IllegalWords := by
  unfold Obligations.IllegalWords
  refine ⟨fun w => ⟨decode_unassigned_iff w, (decode_nonzeroReserved_iff w).trans ?_⟩, fun _ => unassigned_op_iff⟩
  exact exists_congr fun r => and_congr_right fun hr => and_congr_right fun hop => OpRow.not_selects_iff hr hop

/-! ## Match and mask -/

theorem legalWord_iff (w : Word) : legalWord w = true ↔ ∃ r ∈ opRows, r.selects w = true := List.any_eq_true

theorem decode_ok_iff (w : Word) : (∃ i, decode w = .ok i) ↔ legalWord w = true := by
  rw [legalWord_iff]
  constructor
  · rintro ⟨i, h⟩
    exact (selects_and_encode_of_decode h).1
  · rintro ⟨r, hr, hsel⟩
    obtain ⟨i, -, hdec⟩ := decode_of_selects hr hsel
    exact ⟨i, hdec⟩

/-- No two rows of the opcode map have the same OP (30_encoding.md R84). -/
theorem opRows_op_distinct : opRows.Pairwise (fun r r' => r.op ≠ r'.op) := by decide

/-- Settles O4: a row selects only words of its own OP, and no two rows share one. -/
theorem matchAndMask : Obligations.MatchAndMask := by
  unfold Obligations.MatchAndMask
  refine ⟨decode_ok_iff, opRows_op_distinct.imp_of_mem ?_⟩
  intro r r' hr hr' hne w ⟨hsel, hsel'⟩
  obtain ⟨hop, -⟩ := (OpRow.selects_iff hr w).1 hsel
  obtain ⟨hop', -⟩ := (OpRow.selects_iff hr' w).1 hsel'
  exact hne (hop.trans hop'.symm)

/-- Settles O5: nine words are encodings, two are not selected by the row of their OP, and one has an OP without a row. -/
theorem exampleWords : Obligations.ExampleWords := by
  unfold Obligations.ExampleWords
  refine ⟨decode_encode .nop, decode_encode (.ldi 1), decode_encode (.mov 2 1), decode_encode (.add 3 1 2),
    decode_encode (.mpow 4 1 2 3), decode_encode (.cmp 5 6), decode_encode (.stbe 5), decode_encode (.crtcomb 7),
    decode_encode .decrec, ?_, ?_, ?_⟩
  · exact (decode_nonzeroReserved_iff _).2 (by decide)
  · exact (decode_nonzeroReserved_iff _).2 (by decide)
  · exact (decode_unassigned_iff _).2 (by decide)

end Sys2Proof

namespace Sys2Proof.Machine

/-- Settles O7: the acceptance is that of any word, and the engine's turn on an illegal one raises its error. -/
theorem illegalCommandCompletes : Obligations.IllegalCommandCompletes := by
  unfold Obligations.IllegalCommandCompletes
  refine ⟨fun s w rest hs hb => (commandAcceptance s w rest hs).1 hb, fun s e hs hb hdec => ?_⟩
  calc step s = engineTurn s := moveOnce_nil hs
    _ = .next (s.raise .illegalCommand) := engineTurn_illegal hb hdec
    _ = .next (s.failed 7) := rfl

end Sys2Proof.Machine
end

section
/-! # The big-integer commands

An equation per command says its meaning as one write to its big register, or as the error it raises. The statements
about results are these equations with the arithmetic of the value written. -/

namespace Sys2Proof.Machine

section
variable (s : State) (d a b c : Reg)

/-! ## Commands that are one write -/

theorem exec_ldi_eq : exec (.ldi d) s = s.finish (s.writeBig d s.larg0.toNat) := rfl

theorem exec_mov_eq : exec (.mov d a) s = s.finish (s.writeBig d (s.reg a)) := rfl

theorem exec_add_eq : exec (.add d a b) s = s.finish (s.writeBig d (s.reg a + s.reg b)) := rfl

theorem exec_sub_eq : exec (.sub d a b) s = s.finish (s.writeBig d (s.reg a - s.reg b)) := rfl

theorem exec_mul_eq : exec (.mul d a b) s = s.finish (s.writeBig d (s.reg a * s.reg b)) := rfl

theorem exec_gcd_eq : exec (.gcd d a b) s = s.finish (s.writeBig d (Int.gcd (s.reg a) (s.reg b))) := rfl

/-- POW's early capacity test refuses no power that fits, so the test of the write alone decides (40_alu.md R111). -/
theorem exec_pow_eq :
    exec (.pow d) s = s.finish (s.writeBig d ((s.larg0.toNat ^ s.larg1.toNat : Nat) : Int)) := by
  simp only [exec, execPow, powerBySquaring_eq _ _ _ le_rfl]
  split
  · next hwide =>
    rw [State.finish_writeBig_of_not_fits (powTooWide_not_fits hwide)]; rfl
  · rfl

/-! ## Shifts -/

/-- A left shift writes the exact product: its own capacity test is that of the write (40_alu.md R114). -/
theorem shiftBody_natCast (n : Nat) : shiftBody d a n s = s.writeBig d (s.reg a * 2 ^ n) := by
  simp only [shiftBody, Int.natCast_nonneg, if_true, Int.natAbs_natCast, shiftUp_eq]
  split
  · next hwide =>
    have hfit := (shiftTooWide_iff s.par (s.reg a) n).1 hwide
    simp only [State.writeBig, hfit, Bool.false_eq_true, if_false]
  · rfl

/-- A right shift rounds toward zero (40_alu.md R114); by 0 it is the left shift by 0. -/
theorem shiftBody_neg_natCast (n : Nat) : shiftBody d a (-n) s = s.writeBig d (Int.tdiv (s.reg a) (2 ^ n)) := by
  cases n with
  | zero => simpa using shiftBody_natCast s d a 0
  | succ n =>
    have hneg : ¬ (0 : Int) ≤ -((n + 1 : Nat) : Int) := by omega
    simp only [shiftBody, if_neg hneg, Int.natAbs_neg, Int.natAbs_natCast, shiftDown_eq]

theorem exec_shl_eq : exec (.shl d a) s = s.finish (shiftBody d a s.larg0.toInt s) := rfl

/-- SHR is SHL with the count negated (40_alu.md R115). -/
theorem exec_shr_eq : exec (.shr d a) s = s.finish (shiftBody d a (-s.larg0.toInt) s) := rfl

theorem fits_tdiv {p : Params} {x : Int} (hx : fits p x = true) (y : Int) : fits p (Int.tdiv x y) = true :=
  fits_mono hx (Int.natAbs_tdiv_le_natAbs x y)

/-! ## Commands with an error of their own -/

section
variable {s a b c}

theorem exec_rem_of_zero (h : s.reg b = 0) : exec (.rem d a b) s = .next (s.failed 1) := by
  simp only [exec, execRem, if_pos h]; rfl

theorem exec_rem_of_ne_zero (h : s.reg b ≠ 0) :
    exec (.rem d a b) s = s.finish (s.writeBig d (truncRem (s.reg a) (s.reg b))) := by
  simp only [exec, execRem, if_neg h]

theorem exec_mod_of_nonpos (h : s.reg b ≤ 0) : exec (.mod d a b) s = .next (s.failed 1) := by
  simp only [exec, execMod, if_pos h]; rfl

theorem exec_mod_of_pos (h : 0 < s.reg b) :
    exec (.mod d a b) s = s.finish (s.writeBig d (s.reg a % s.reg b)) := by
  simp only [exec, execMod, if_neg (not_le.2 h), floorMod_eq_emod (s.reg a) h]

theorem exec_minv_of_error {e : CoreErr} (h : modInverse (s.reg a) (s.reg b) = .error e) :
    exec (.minv d a b) s = .next (s.failed e.code) := by
  simp only [exec, execMinv, h]; rfl

theorem exec_minv_of_ok {v : Int} (h : modInverse (s.reg a) (s.reg b) = .ok v) :
    exec (.minv d a b) s = s.finish (s.writeBig d v) := by
  simp only [exec, execMinv, h]

/-- Both errors of MPOW report the same code (40_alu.md R112). -/
theorem exec_mpow_of_invalid (h : s.reg c ≤ 0 ∨ s.reg b < 0) : exec (.mpow d a b c) s = .next (s.failed 1) := by
  simp only [exec, execMpow]
  split
  · rfl
  · next hc => rw [if_pos (h.resolve_left hc)]; rfl

theorem exec_mpow_of_valid (hc : 0 < s.reg c) (hb : 0 ≤ s.reg b) :
    exec (.mpow d a b c) s = s.finish (s.writeBig d (s.reg a ^ (s.reg b).toNat % s.reg c)) := by
  simp only [exec, execMpow, if_neg (not_le.2 hc), if_neg (not_lt.2 hb), modPow_eq (s.reg a) hb hc]

end
end

/-! ## Values of the division family -/

theorem natAbs_truncRem_lt (x : Int) {y : Int} (hy : y ≠ 0) : (truncRem x y).natAbs < y.natAbs := by
  rw [truncRem_eq_tmod, Int.natAbs_tmod]
  exact Nat.mod_lt _ (Int.natAbs_pos.2 hy)

/-- The remainder of R107 has the sign of the dividend. -/
theorem truncRem_eq_zero_or_sign (x y : Int) : truncRem x y = 0 ∨ (truncRem x y).sign = x.sign := by
  rw [truncRem_eq_tmod]
  by_cases hdvd : y ∣ x
  · exact .inl (Int.tmod_eq_zero_of_dvd hdvd)
  · exact .inr (by rw [Int.sign_tmod, if_neg hdvd])

/-- A value in `[0, m)` fits where `m` does. -/
theorem fits_of_mem_range {p : Params} {v m : Int} (hm : fits p m = true) (h0 : 0 ≤ v) (hlt : v < m) :
    fits p v = true :=
  fits_mono hm (by omega)

theorem fits_emod {p : Params} (x : Int) {m : Int} (hpos : 0 < m) (hm : fits p m = true) : fits p (x % m) = true :=
  fits_of_mem_range hm (Int.emod_nonneg x hpos.ne') (Int.emod_lt_of_pos x hpos)

/-- Two inverses differ by a multiple of the modulus, so only one is in `[0, m)` (40_alu.md R110). -/
theorem inverse_unique {a m v w : Int} (hgcd : Int.gcd a m = 1) (hv0 : 0 ≤ v) (hv : v < m) (hw0 : 0 ≤ w) (hw : w < m)
    (hinv : m ∣ a * v - 1) (hinw : m ∣ a * w - 1) : w = v := by
  have hprod : m ∣ a * (w - v) := by
    have := dvd_sub hinw hinv
    rwa [sub_sub_sub_cancel_right, ← mul_sub] at this
  have hdiff : m ∣ w - v := Int.dvd_of_dvd_mul_right_of_gcd_one hprod (by rwa [Int.gcd_comm])
  have hzero : w - v = 0 := Int.eq_zero_of_abs_lt_dvd hdiff (abs_lt.2 ⟨by omega, by omega⟩)
  omega

/-! ## The statements -/

/-- Settles O12: REM writes the truncated remainder, which is no longer than the dividend, and MOD the Euclidean one. -/
theorem remainderAndModulusResult : Obligations.RemainderAndModulusResult := by
  unfold Obligations.RemainderAndModulusResult
  intro s d a b
  refine ⟨⟨decode_encode (.rem d a b), decode_encode (.mod d a b)⟩, exec_rem_of_zero d, fun hb hfit => ?_,
    exec_mod_of_nonpos d, fun hb hfit => ?_⟩
  · refine ⟨truncRem (s.reg a) (s.reg b), rfl, ?_, natAbs_truncRem_lt _ hb, truncRem_eq_zero_or_sign _ _⟩
    rw [exec_rem_of_ne_zero d hb, State.finish_writeBig_of_fits (fits_truncRem _ hfit)]
  · refine ⟨s.reg a % s.reg b, Int.emod_nonneg _ hb.ne', Int.emod_lt_of_pos _ hb, Int.dvd_self_sub_emod, ?_⟩
    rw [exec_mod_of_pos d hb, State.finish_writeBig_of_fits (fits_emod _ hb hfit)]

/-- Settles O13: the divisor is no greater than a nonzero operand, so it fits. -/
theorem gcdResult : Obligations.GcdResult := by
  unfold Obligations.GcdResult
  intro s d a b
  refine ⟨decode_encode (.gcd d a b), fun ha hb => ?_⟩
  refine ⟨Int.gcd (s.reg a) (s.reg b), ?_, Int.gcd_dvd_left _ _, Int.gcd_dvd_right _ _, fun _ => Int.dvd_coe_gcd⟩
  exact (exec_gcd_eq s d a b).trans (State.finish_writeBig_of_fits (fits_bigGcd ha hb))

/-- Settles O14: the loop's inverse and errors, and the uniqueness of an inverse below the modulus. -/
theorem inverseResult : Obligations.InverseResult := by
  unfold Obligations.InverseResult
  intro s d a b
  refine ⟨decode_encode (.minv d a b), fun hb => exec_minv_of_error d (modInverse_of_nonpos _ hb), fun hb hgcd => ?_,
    fun hb hgcd hfit => ?_⟩
  · exact exec_minv_of_error d ((modInverse_spec (s.reg a) hb).2 hgcd)
  · obtain ⟨v, hok, hv0, hv, hinv⟩ := (modInverse_spec (s.reg a) hb).1 hgcd
    refine ⟨v, ?_, hv0, hv, Int.emod_eq_zero_of_dvd hinv, fun w hw0 hw hinw => ?_⟩
    · rw [exec_minv_of_ok d hok, State.finish_writeBig_of_fits (fits_of_mem_range hfit hv0 hv)]
    · exact inverse_unique hgcd hv0 hv hw0 hw hinv (Int.dvd_of_emod_eq_zero hinw)

/-- Settles O15: POW is one write of the exact power. -/
theorem powerResult : Obligations.PowerResult := by
  unfold Obligations.PowerResult
  intro s d
  rw [exec_pow_eq]
  exact ⟨decode_encode (.pow d), State.finish_writeBig_of_fits, State.finish_writeBig_of_not_fits⟩

/-- Settles O16: the square-and-multiply loop gives the reduced power, which is below the modulus and so fits. -/
theorem modularPowerResult : Obligations.ModularPowerResult := by
  unfold Obligations.ModularPowerResult
  intro s d a b c
  refine ⟨decode_encode (.mpow d a b c), exec_mpow_of_invalid d, fun hc hb hfit => ?_⟩
  rw [exec_mpow_of_valid d hc hb, State.finish_writeBig_of_fits (fits_emod _ hc hfit)]

/-- Settles O18: the count of each shift, negated for SHR, is a number `n` for a left shift and `-n` for a right one. -/
theorem shiftResult : Obligations.ShiftResult := by
  unfold Obligations.ShiftResult
  intro s d a n
  have hright (hfit : fits s.par (s.reg a) = true) :
      s.finish (s.writeBig d (Int.tdiv (s.reg a) (2 ^ n))) = .next (s.wrote d (Int.tdiv (s.reg a) (2 ^ n))) :=
    State.finish_writeBig_of_fits (fits_tdiv hfit _)
  rw [exec_shl_eq, exec_shr_eq]
  refine ⟨⟨decode_encode (.shl d a), decode_encode (.shr d a)⟩, fun hn => ?_, fun hn => ?_⟩
  · rw [hn, shiftBody_natCast, shiftBody_neg_natCast]
    exact ⟨State.finish_writeBig_of_fits, State.finish_writeBig_of_not_fits, hright⟩
  · rw [hn, neg_neg, shiftBody_natCast, shiftBody_neg_natCast]
    exact ⟨State.finish_writeBig_of_fits, State.finish_writeBig_of_not_fits, hright⟩

/-- Settles O10: the 32 bits of ARG0 are within any capacity of 00_scope.md R8. -/
theorem dataMovementResult : Obligations.DataMovementResult := by
  unfold Obligations.DataMovementResult
  intro s d a
  refine ⟨⟨decode_encode .nop, decode_encode (.ldi d), decode_encode (.mov d a)⟩, exec_nop_eq s, fun hwf => ?_, fun hfit => ?_⟩
  · have hfit : fits s.par s.larg0.toNat = true := fits_of_wf hwf (n := 1) (by norm_num) s.larg0.isLt
    rw [exec_ldi_eq, State.finish_writeBig_of_fits hfit]
  · rw [exec_mov_eq, State.finish_writeBig_of_fits hfit]

/-- Settles O11: each command is one write of the exact result; 0 always fits. -/
theorem sumDifferenceProductResult : Obligations.SumDifferenceProductResult := by
  unfold Obligations.SumDifferenceProductResult
  intro s d a b
  rw [exec_add_eq, exec_sub_eq, exec_mul_eq]
  refine ⟨⟨decode_encode (.add d a b), decode_encode (.sub d a b), decode_encode (.mul d a b)⟩,
    State.finish_writeBig_of_fits, State.finish_writeBig_of_not_fits, State.finish_writeBig_of_fits,
    State.finish_writeBig_of_not_fits, State.finish_writeBig_of_fits, State.finish_writeBig_of_not_fits, fun hzero => ?_⟩
  rw [mul_eq_zero.2 hzero, State.finish_writeBig_of_fits (fits_zero s.par)]

/-- Settles O17, by the three cases of the numeric order. The plain name is the model's function for RES0. -/
theorem compareResult_holds : Obligations.CompareResult := by
  unfold Obligations.CompareResult
  intro s a b
  simp only [exec_cmp_eq, compareFlags, compareResult]
  refine ⟨decode_encode (.cmp a b), fun hlt => ?_, fun heq => ?_, fun hgt => ?_⟩
  · simp [hlt, hlt.ne, hlt.not_gt]
  · simp [heq]
  · simp [hgt, hgt.ne', hgt.not_gt]

end Sys2Proof.Machine
end

section
/-! # Numbers between the big registers and DMEM (41_bytes.md)

STBE and STBEW differ only in the width they store: both are `storeNumber`, whose errors and effect are said once.
The round trips read a stored number back, or store a number that was read. -/

namespace Sys2Proof.Machine

section
variable {s : State}

/-! ## LDBE -/

theorem exec_ldbe_of_not_inRange (d : Reg) (h : ¬ s.inRange s.larg0.toNat s.larg1.toNat) :
    exec (.ldbe d) s = .next (s.failed 11) := by
  simp only [exec, execLdbe, State.outOfRange_of_not_inRange h, if_true]; rfl

theorem exec_ldbe_of_inRange (d : Reg) (h : s.inRange s.larg0.toNat s.larg1.toNat) :
    exec (.ldbe d) s = s.finish (s.writeBig d (s.numberAt s.larg0.toNat s.larg1.toNat : Nat)) := by
  simp only [exec, execLdbe, State.outOfRange_of_inRange h, Bool.false_eq_true, if_false, State.numberAt_eq]

/-! ## Storing a number -/

/-- The body of STBE and STBEW: `v` in `n` bytes at ARG0 (41_bytes.md R141, R142). -/
def State.storeNumber (s : State) (v : Int) (n : Nat) : Except CoreErr Result :=
  if s.outOfRange s.larg0.toNat s.larg1.toNat then .error .addressError
  else if v < 0 then .error .invalidArgument
  else if s.larg1.toNat < minlen v then .error .overflow
  else .ok ⟨(s.memWrite s.larg0.toNat (toBE v.natAbs n)).setRes0 (countWord n), []⟩

theorem exec_stbe_eq (s : State) (a : Reg) :
    exec (.stbe a) s = s.finish (s.storeNumber (s.reg a) (minlen (s.reg a))) := rfl

theorem exec_stbew_eq (s : State) (a : Reg) :
    exec (.stbew a) s = s.finish (s.storeNumber (s.reg a) s.larg1.toNat) := rfl

/-- `s` after a command that stored `v` in `n` bytes at ARG0 and nothing else. -/
def State.numberStored (s : State) (v n : Nat) : State :=
  { s.completed with mem := (s.memWrite s.larg0.toNat (toBE v n)).mem, res0 := countWord n }

theorem finish_storeNumber_of_not_inRange (v : Int) (n : Nat) (h : ¬ s.inRange s.larg0.toNat s.larg1.toNat) :
    s.finish (s.storeNumber v n) = .next (s.failed 11) := by
  rw [State.storeNumber, if_pos (State.outOfRange_of_not_inRange h)]; rfl

theorem storeNumber_of_inRange (v : Int) (n : Nat) (h : s.inRange s.larg0.toNat s.larg1.toNat) :
    s.storeNumber v n =
      if v < 0 then .error .invalidArgument
      else if s.larg1.toNat < minlen v then .error .overflow
      else .ok ⟨(s.memWrite s.larg0.toNat (toBE v.natAbs n)).setRes0 (countWord n), []⟩ := by
  rw [State.storeNumber, State.outOfRange_of_inRange h, if_neg Bool.false_ne_true]

theorem finish_storeNumber_of_neg {v : Int} (n : Nat) (h : s.inRange s.larg0.toNat s.larg1.toNat) (hv : v < 0) :
    s.finish (s.storeNumber v n) = .next (s.failed 1) := by
  rw [storeNumber_of_inRange v n h, if_pos hv]; rfl

theorem finish_storeNumber_of_narrow {v : Int} (n : Nat) (h : s.inRange s.larg0.toNat s.larg1.toNat) (hv : 0 ≤ v)
    (hlen : s.larg1.toNat < minlen v) : s.finish (s.storeNumber v n) = .next (s.failed 4) := by
  rw [storeNumber_of_inRange v n h, if_neg (not_lt.2 hv), if_pos hlen]; rfl

theorem finish_storeNumber_of_wide {v : Int} (n : Nat) (h : s.inRange s.larg0.toNat s.larg1.toNat) (hv : 0 ≤ v)
    (hlen : minlen v ≤ s.larg1.toNat) : s.finish (s.storeNumber v n) = .next (s.numberStored v.toNat n) := by
  rw [storeNumber_of_inRange v n h, if_neg (not_lt.2 hv), if_neg (not_lt.2 hlen), ← Int.toNat_of_nonneg hv]; rfl

/-! ## What a stored number leaves -/

theorem numberStored_holdsNumber (s : State) (v n : Nat) : (s.numberStored v n).holdsNumber s.larg0.toNat n v :=
  State.holdsNumber_congr rfl rfl (s.holdsNumber_memWrite s.larg0.toNat n v)

theorem numberStored_byteAt (s : State) (v n b : Nat) :
    (s.numberStored v n).byteAt b = (s.memWrite s.larg0.toNat (toBE v n)).byteAt b := State.byteAt_congr rfl rfl b

theorem numberStored_sameBytesOutside (s : State) (v n : Nat) :
    s.sameBytesOutside s.larg0.toNat n (s.numberStored v n) := by
  intro b hb
  rw [numberStored_byteAt]
  exact State.byteAt_memWrite_outside s _ (by rwa [toBE_length])

theorem numberStored_memRead (s : State) (v n : Nat) : (s.numberStored v n).memRead s.larg0.toNat n = toBE v n := by
  calc (s.numberStored v n).memRead s.larg0.toNat n
      = (s.memWrite s.larg0.toNat (toBE v n)).memRead s.larg0.toNat n := State.memRead_congr_mem rfl rfl _ _
    _ = (s.memWrite s.larg0.toNat (toBE v n)).memRead s.larg0.toNat (toBE v n).length := by rw [toBE_length]
    _ = toBE v n := State.memRead_memWrite s _ _

theorem numberStored_numberAt (s : State) {v n : Nat} (h : v < 256 ^ n) :
    (s.numberStored v n).numberAt s.larg0.toNat n = v := by
  rw [State.numberAt_eq, numberStored_memRead, fromBE_toBE h]

/-- The minimal form of a positive value starts with a nonzero byte (41_bytes.md R141). -/
theorem numberStored_first_ne_zero (s : State) {v : Nat} (h : 0 < v) :
    (s.numberStored v (minlen v)).byteAt s.larg0.toNat ≠ 0 := by
  have hpos : 0 < minlen (v : Int) := by
    by_contra hc
    have := (minlen_le_iff (v : Int) 0).1 (not_lt.1 hc)
    rw [Int.natAbs_natCast, pow_zero] at this
    omega
  rw [numberStored_byteAt, State.byteAt_memWrite, toBE_length, if_pos (by omega), Nat.sub_self]
  exact toBE_minlen_head h

/-- LDBE of the bytes of a stored number returns it (41_bytes.md R143). -/
theorem exec_ldbe_numberStored (s : State) (d : Reg) {v : Nat} {w : Word} (hr : s.inRange s.larg0.toNat w.toNat)
    (hv : v < 256 ^ w.toNat) (hfit : fits s.par (v : Int) = true) :
    ∃ u, exec (.ldbe d) { s.numberStored v w.toNat with larg1 := w } = .next u ∧ u.reg d = v := by
  have hnum : ({ s.numberStored v w.toNat with larg1 := w } : State).numberAt s.larg0.toNat w.toNat = v :=
    numberStored_numberAt s hv
  refine ⟨_, (exec_ldbe_of_inRange d hr).trans (State.finish_writeBig_of_fits ?_), ?_⟩
  · exact (congrArg (fun k : Nat => fits s.par k) hnum).trans hfit
  · exact ((State.wrote_reg _ d d _).trans (if_pos rfl)).trans (congrArg Nat.cast hnum)

/-- RES0 of STBE and STBEW is exact, since no width exceeds the 32 bits of ARG1 (41_bytes.md R141). -/
theorem countWord_toNat_of_le {n : Nat} {w : Word} (h : n ≤ w.toNat) : (countWord n).toNat = n :=
  countWord_toNat (lt_of_le_of_lt h w.isLt)

end

/-! ## The statements -/

/-- Settles O19: LDBE is one write of the number in its range. -/
theorem importResult : Obligations.ImportResult := by
  unfold Obligations.ImportResult
  intro s d
  refine ⟨decode_encode (.ldbe d), exec_ldbe_of_not_inRange d, fun hr hfit => ?_, fun hr hfit => ?_⟩
  · rw [exec_ldbe_of_inRange d hr, State.finish_writeBig_of_fits hfit]
  · rw [exec_ldbe_of_inRange d hr, State.finish_writeBig_of_not_fits hfit]

/-- Settles O20: STBE stores the value in as many bytes as its minimal form has. -/
theorem minimalExportResult : Obligations.MinimalExportResult := by
  unfold Obligations.MinimalExportResult
  intro s a
  rw [exec_stbe_eq]
  refine ⟨decode_encode (.stbe a), finish_storeNumber_of_not_inRange _ _, finish_storeNumber_of_neg _,
    finish_storeNumber_of_narrow _, fun hr hv hlen => ?_⟩
  refine ⟨_, finish_storeNumber_of_wide _ hr hv hlen, ?_, numberStored_holdsNumber s _ _,
    numberStored_sameBytesOutside s _ _, fun hpos => ?_⟩
  · rw [← countWord_of_lt (lt_of_le_of_lt hlen s.larg1.isLt)]; rfl
  · have hfirst := numberStored_first_ne_zero s (v := (s.reg a).toNat) (by omega)
    rwa [Int.toNat_of_nonneg hv] at hfirst

/-- Settles O21: STBEW stores the value in ARG1 bytes. -/
theorem fixedWidthExportResult : Obligations.FixedWidthExportResult := by
  unfold Obligations.FixedWidthExportResult
  intro s a
  rw [exec_stbew_eq]
  refine ⟨decode_encode (.stbew a), finish_storeNumber_of_not_inRange _ _, finish_storeNumber_of_neg _,
    finish_storeNumber_of_narrow _, fun hr hv hlen => ?_⟩
  refine ⟨_, finish_storeNumber_of_wide _ hr hv hlen, ?_, numberStored_holdsNumber s _ _,
    numberStored_sameBytesOutside s _ _⟩
  have hres : countWord s.larg1.toNat = s.larg1 := BitVec.eq_of_toNat_eq (countWord_toNat_of_le le_rfl)
  rw [State.numberStored, hres]

/-- A number stored in a width that holds it is what LDBE of that width reads back (41_bytes.md R143). -/
theorem exec_ldbe_storeNumber {s : State} (a d : Reg) (h0 : 0 ≤ s.reg a) (hfit : fits s.par (s.reg a) = true)
    {w : Word} (hlen : minlen (s.reg a) ≤ w.toNat) (hw : w.toNat ≤ s.larg1.toNat)
    (hr : s.inRange s.larg0.toNat s.larg1.toNat) :
    s.finish (s.storeNumber (s.reg a) w.toNat) = .next (s.numberStored (s.reg a).toNat w.toNat)
      ∧ ∃ u, exec (.ldbe d) { s.numberStored (s.reg a).toNat w.toNat with larg1 := w } = .next u
        ∧ u.reg d = s.reg a := by
  obtain ⟨v, hv⟩ := Int.eq_ofNat_of_zero_le h0
  rw [hv] at hfit hlen ⊢
  refine ⟨finish_storeNumber_of_wide _ hr (Int.natCast_nonneg v) (hlen.trans hw),
    exec_ldbe_numberStored s d ?_ ?_ hfit⟩
  · exact (Nat.add_le_add_left hw _).trans hr
  · exact (minlen_le_iff v _).1 hlen

/-- STBE of an imported number stores the imported bytes without their leading zero bytes (41_bytes.md R143). -/
theorem exec_stbe_of_imported {s : State} {a : Reg} {l : List Byte} (hreg : s.reg a = (fromBE l : Nat))
    (hr : s.inRange s.larg0.toNat s.larg1.toNat) (hlen : l.length ≤ s.larg1.toNat) :
    ∃ u, exec (.stbe a) s = .next u ∧ u.memRead s.larg0.toNat u.res0.toNat = l.dropWhile (· == 0) := by
  have hmin : minlen (fromBE l : Nat) ≤ s.larg1.toNat := (minlen_fromBE_le l).trans hlen
  have hres : (s.numberStored (fromBE l) (minlen (fromBE l : Nat))).res0.toNat = minlen (fromBE l : Nat) :=
    countWord_toNat_of_le hmin
  rw [exec_stbe_eq, hreg]
  refine ⟨_, finish_storeNumber_of_wide _ hr (Int.natCast_nonneg _) hmin, ?_⟩
  rw [Int.toNat_natCast, hres, numberStored_memRead, toBE_minlen_fromBE]

/-- Settles O22: a stored number reads back whole, and a number that was read has the bytes read as its minimal form,
leading zeros apart. -/
theorem exportImportRoundTrip : Obligations.ExportImportRoundTrip := by
  unfold Obligations.ExportImportRoundTrip
  refine ⟨fun s a d h0 hfit hlen hr => ⟨?_, ?_⟩, fun s d p n hr hrp hn hfit => ?_⟩
  · have hw : (countWord (minlen (s.reg a))).toNat = minlen (s.reg a) := countWord_toNat_of_le hlen
    have hback := exec_ldbe_storeNumber a d h0 hfit hw.ge (hw.trans_le hlen) hr
    rw [hw] at hback
    obtain ⟨hstore, u, himport, hreg⟩ := hback
    exact ⟨_, u, (exec_stbe_eq s a).trans hstore, himport, hreg⟩
  · obtain ⟨hstore, u, himport, hreg⟩ := exec_ldbe_storeNumber a d h0 hfit hlen le_rfl hr
    exact ⟨_, u, (exec_stbew_eq s a).trans hstore, himport, hreg⟩
  · have hload := (exec_ldbe_of_inRange d hr).trans (State.finish_writeBig_of_fits hfit)
    rw [State.numberAt_eq] at hload
    obtain ⟨u, hstore, hread⟩ := exec_stbe_of_imported (a := d)
      (l := s.memRead s.larg0.toNat s.larg1.toNat) (s := { s.wrote d _ with larg0 := p, larg1 := n })
      ((State.wrote_reg s d d _).trans (if_pos rfl)) hrp ((State.memRead_length s _ _).trans_le hn)
    exact ⟨_, u, hload, hstore, hread⟩

end Sys2Proof.Machine
end

section
/-! # The coprime sequence (42_coprime.md)

Two sound caches agree wherever both have an entry, so an index has one modulus at most. A lookup on a sound cache then
finds the modulus of an index within reach, and on an index out of reach it fails with the error the cache calls for. -/

namespace Sys2Proof.Machine

/-! ## The entries of a sound cache -/

section
variable {cp cp' : List Nat}

theorem CacheSound.getElem_lt (h : CacheSound cp) {i j : Nat} (hij : i < j) (hj : j < cp.length) : cp[j] < cp[i] :=
  (List.pairwise_iff_getElem.1 h.2.1 i j (hij.trans hj) hj hij).1

theorem CacheSound.getElem_coprime (h : CacheSound cp) {i j : Nat} (hij : i < j) (hj : j < cp.length) :
    Nat.Coprime cp[i] cp[j] :=
  (List.pairwise_iff_getElem.1 h.2.1 i j (hij.trans hj) hj hij).2

theorem CacheSound.index_lt_of_getElem_lt (h : CacheSound cp) {i j : Nat} {hi : i < cp.length} {hj : j < cp.length}
    (hlt : cp[i] < cp[j]) : j < i := by
  by_contra hle
  rcases (not_lt.1 hle).eq_or_lt with rfl | hij
  · exact hlt.false
  · exact hlt.asymm (h.getElem_lt hij hj)

/-- A sound cache passes over no number that is coprime to its greater entries, so where two of them agree below an
index, the entry of the one is no greater than that of the other. -/
theorem CacheSound.getElem_le_of_agree (h : CacheSound cp) (h' : CacheSound cp') {i : Nat} (hi : i < cp.length)
    (hi' : i < cp'.length) (hagree : ∀ j (hj : j < i), cp[j] = cp'[j]) : cp'[i] ≤ cp[i] := by
  by_contra hlt
  rw [not_le] at hlt
  rcases h.2.2.2 cp'[i] (h'.range (List.getElem_mem hi')).2 ⟨cp[i], List.getElem_mem hi, hlt.le⟩ with
    hmem | ⟨m, hmem, hgreater, hshared⟩
  · obtain ⟨j, hj, heq⟩ := List.getElem_of_mem hmem
    have hji : j < i := h.index_lt_of_getElem_lt (hi := hi) (hj := hj) (by omega)
    have hfall := h'.getElem_lt hji hi'
    rw [← hagree j hji] at hfall
    omega
  · obtain ⟨j, hj, rfl⟩ := List.getElem_of_mem hmem
    have hji : j < i := h.index_lt_of_getElem_lt (hi := hi) (hj := hj) (by omega)
    have hcoprime := h'.getElem_coprime hji hi'
    rw [← hagree j hji] at hcoprime
    exact hshared hcoprime.symm

theorem CacheSound.getElem_eq (h : CacheSound cp) (h' : CacheSound cp') {i : Nat} (hi : i < cp.length)
    (hi' : i < cp'.length) : cp[i] = cp'[i] := by
  induction i using Nat.strong_induction_on with
  | _ i ih =>
    have hagree : ∀ j (hj : j < i), cp[j] = cp'[j] := fun j hj => ih j hj (hj.trans hi) (hj.trans hi')
    exact le_antisymm (h'.getElem_le_of_agree h hi' hi fun j hj => (hagree j hj).symm)
      (h.getElem_le_of_agree h' hi hi' hagree)

end

/-! ## The modulus of an index -/

theorem IsModulus.unique {i m m' : Nat} (h : IsModulus i m) (h' : IsModulus i m') : m = m' := by
  obtain ⟨cp, hs, hm⟩ := h
  obtain ⟨cp', hs', hm'⟩ := h'
  obtain ⟨hi, rfl⟩ := List.getElem?_eq_some_iff.1 hm
  obtain ⟨hi', rfl⟩ := List.getElem?_eq_some_iff.1 hm'
  exact hs.getElem_eq hs' hi hi'

theorem IsModulus.range {i m : Nat} (h : IsModulus i m) : 1 ≤ m ∧ m ≤ 65535 := by
  obtain ⟨cp, hs, hm⟩ := h
  exact hs.range (List.mem_of_getElem? hm)

/-- Any two moduli stand in one sound cache, that of the greater index. -/
theorem IsModulus.coprime_and_lt {i j m m' : Nat} (hij : i < j) (h : IsModulus i m) (h' : IsModulus j m') :
    Nat.Coprime m m' ∧ m' < m := by
  obtain ⟨cp, hs, hm'⟩ := h'
  obtain ⟨hj, rfl⟩ := List.getElem?_eq_some_iff.1 hm'
  have hi : IsModulus i cp[i] := ⟨cp, hs, List.getElem?_eq_getElem (hij.trans hj)⟩
  rw [h.unique hi]
  exact ⟨hs.getElem_coprime hij hj, hs.getElem_lt hij hj⟩

/-- The sequence ends with 1 (42_coprime.md R151). -/
theorem CacheSound.not_isModulus_of_one_mem {cp : List Nat} (hs : CacheSound cp) (hone : 1 ∈ cp) {i : Nat}
    (hi : cp.length ≤ i) (m : Nat) : ¬ IsModulus i m := by
  intro hm
  obtain ⟨j, hj, heq⟩ := List.getElem_of_mem hone
  have hmj : IsModulus j 1 := ⟨cp, hs, by rw [List.getElem?_eq_getElem hj, heq]⟩
  have hfall := (hmj.coprime_and_lt (hj.trans_le hi) hm).2
  have hpos := hm.range.1
  omega

/-- A residue modulo an entry fits in 2 bytes (42_coprime.md R155). -/
theorem IsModulus.minlen_mod_le {i m : Nat} (h : IsModulus i m) (v : Nat) : minlen ((v % m : Nat) : Int) ≤ 2 := by
  rw [minlen_le_iff, Int.natAbs_natCast]
  obtain ⟨hpos, hle⟩ := h.range
  have hmod := Nat.mod_lt v hpos
  norm_num
  omega

/-- Parameters of 00_scope.md R8 hold every modulus. -/
theorem IsModulus.fits {p : Params} (hp : p.wf = true) {i m : Nat} (h : IsModulus i m) : fits p m = true := by
  refine fits_of_wf hp (n := 1) (by norm_num) ?_
  have hle := h.range.2
  rw [Int.natAbs_natCast]
  omega

/-! ## Lookups -/

section
variable {cpMax i m : Nat} {cp : List Nat}

/-- A lookup within reach finds the modulus of its index, and grows the cache to that index. -/
theorem coprimeAt_of_isModulus (hs : CacheSound cp) (hlen : cp.length ≤ cpMax) (hm : IsModulus i m) (hi : i < cpMax) :
    ∃ cp', coprimeAt cpMax cp i = (cp', .ok m) ∧ cp <+: cp' ∧ CacheSound cp' ∧ cp'[i]? = some m
      ∧ cp'.length = max cp.length (i + 1) := by
  obtain ⟨cp', r, hx⟩ : ∃ cp' r, coprimeAt cpMax cp i = (cp', r) := ⟨_, _, rfl⟩
  obtain ⟨hprefix, -, -, hsound, hcases⟩ := coprimeAt_spec hx
  cases r with
  | ok m' =>
    obtain ⟨-, hget, hgrown⟩ := coprimeAt_ok hx
    obtain rfl : m' = m := IsModulus.unique ⟨cp', hsound hs, hget⟩ hm
    exact ⟨cp', hx, hprefix, hsound hs, hget, hgrown⟩
  | error e =>
    have hshort : cp'.length ≤ i := by
      rcases hcases with ⟨-, hok⟩ | ⟨hshort, -⟩
      · cases hok
      · exact hshort
    rcases coprimeAt_error hs hlen hx with ⟨-, hone⟩ | ⟨-, -, hfull⟩
    · exact absurd hm ((hsound hs).not_isModulus_of_one_mem hone hshort m)
    · omega

/-- An index is out of reach: beyond CPMAX, or beyond the end of the sequence. -/
def OutOfReach (cpMax i : Nat) : Prop := cpMax ≤ i ∨ ∀ m, ¬ IsModulus i m

/-- A cache within CPMAX does not hold an index out of reach. -/
theorem OutOfReach.length_le (h : OutOfReach cpMax i) (hs : CacheSound cp) (hlen : cp.length ≤ cpMax) :
    cp.length ≤ i := by
  rcases h with h | h
  · exact hlen.trans h
  · by_contra hi
    exact h _ ⟨cp, hs, List.getElem?_eq_getElem (not_le.1 hi)⟩

/-- What lookups on the sound cache `cp` leave when they fail with `e` (42_coprime.md R151): a sound cache, on which `e`
is Exhausted if it holds 1, and CapacityExceeded if it is full before that. -/
structure LookupFailed (cpMax : Nat) (cp cp' : List Nat) (e : CoreErr) : Prop where
  isPrefix : cp <+: cp'
  sound : CacheSound cp'
  cause : (e = .exhausted ∧ 1 ∈ cp') ∨ (e = .capacityExceeded ∧ 1 ∉ cp' ∧ cp'.length = cpMax)

theorem coprimeAt_of_outOfReach (hs : CacheSound cp) (hlen : cp.length ≤ cpMax) (hi : OutOfReach cpMax i) :
    ∃ cp' e, coprimeAt cpMax cp i = (cp', .error e) ∧ LookupFailed cpMax cp cp' e := by
  obtain ⟨cp', r, hx⟩ : ∃ cp' r, coprimeAt cpMax cp i = (cp', r) := ⟨_, _, rfl⟩
  have hg := CacheGrown.of_coprimeAt hx
  cases r with
  | ok m =>
    have hshort := hi.length_le (hg.sound hs) (hg.within hlen)
    exact absurd (coprimeAt_ok hx).1 (not_lt.2 hshort)
  | error e => exact ⟨cp', e, hx, hg.isPrefix, hg.sound hs, coprimeAt_error hs hlen hx⟩

theorem coprimesAt_of_outOfReach {is : List Nat} (hs : CacheSound cp) (hlen : cp.length ≤ cpMax)
    (his : ∃ i ∈ is, OutOfReach cpMax i) :
    ∃ cp' e, coprimesAt cpMax cp is = (cp', .error e) ∧ LookupFailed cpMax cp cp' e := by
  obtain ⟨cp', r, hx⟩ : ∃ cp' r, coprimesAt cpMax cp is = (cp', r) := ⟨_, _, rfl⟩
  have hg := CacheGrown.of_coprimesAt hx
  cases r with
  | ok ms =>
    obtain ⟨i, hmem, hi⟩ := his
    have hshort := hi.length_le (hg.sound hs) (hg.within hlen)
    have hdeep := lt_depth hmem
    have hgrown := coprimesAt_ok cpMax hx
    omega
  | error e => exact ⟨cp', e, hx, hg.isPrefix, hg.sound hs, coprimesAt_error cpMax hs hlen hx⟩

end

/-! ## The commands that look moduli up -/

section
variable {s : State} {cp' : List Nat} {e : CoreErr}

theorem exec_cpget_of_ok {m : Nat} (d : Reg) (h : coprimeAt s.par.cpMax s.cp s.larg0.toNat = (cp', .ok m))
    (hfit : fits s.par m = true) :
    exec (.cpget d) s = .next { s.wrote d m with cp := cp', res0 := countWord m } := by
  have hwrite : ((s.setCp cp').setRes0 (countWord m)).writeBig d m
      = .ok ⟨((s.setCp cp').setRes0 (countWord m)).setReg d m, [(m : Int)]⟩ := if_pos hfit
  simp only [exec, execCpget, State.scalar0_eq, h, hwrite]
  rfl

theorem exec_cpget_of_error (d : Reg) (h : coprimeAt s.par.cpMax s.cp s.larg0.toNat = (cp', .error e)) :
    exec (.cpget d) s = .next ((s.setCp cp').raise e) := by
  simp only [exec, execCpget, State.scalar0_eq, h, State.finish_error]

theorem exec_encgen_of_error (hv : s.enc.valid = true) (hr : s.inRange s.larg1.toNat s.enc.bsize)
    (h : coprimeAt s.par.cpMax s.cp s.larg0.toNat = (cp', .error e)) :
    exec .encgen s = .next ((s.setCp cp').raise e) := by
  simp only [exec, execEncgen, State.scalar0_eq, State.scalar1_eq, hv, State.outOfRange_of_inRange hr, h,
    State.finish_error, Bool.true_eq_false, Bool.false_eq_true, if_false]

theorem exec_decdone_of_error (hv : s.dec.valid = true)
    (h : coprimesAt s.par.cpMax s.cp s.dec.indices = (cp', .error e)) :
    exec .decdone s = .next ((s.setCp cp').raise e) := by
  simp only [exec, execDecdone, hv, h, State.finish_error, Bool.true_eq_false, if_false]

theorem exec_decrec_of_error (hv : s.dec.valid = true) (hr : s.inRange s.larg0.toNat s.dec.len)
    (h : coprimesAt s.par.cpMax s.cp s.dec.indices = (cp', .error e)) :
    exec .decrec s = .next ((s.setCp cp').raise e) := by
  simp only [exec, execDecrec, State.scalar0_eq, hv, State.outOfRange_of_inRange hr, h, State.finish_error,
    Bool.true_eq_false, Bool.false_eq_true, if_false]

/-- A command that reports a failed lookup has the code that goes with the cache the lookup left. -/
theorem LookupFailed.command_fails {i : Instr} (hf : LookupFailed s.par.cpMax s.cp cp' e)
    (hexec : exec i s = .next ((s.setCp cp').raise e)) :
    ∃ cp', s.cp <+: cp' ∧ CacheSound cp'
      ∧ ((1 ∈ cp' ∧ exec i s = .next (State.failed { s with cp := cp' } 3))
        ∨ (1 ∉ cp' ∧ cp'.length = s.par.cpMax ∧ exec i s = .next (State.failed { s with cp := cp' } 8))) := by
  refine ⟨cp', hf.isPrefix, hf.sound, ?_⟩
  rcases hf.cause with ⟨rfl, hone⟩ | ⟨rfl, hone, hfull⟩
  · exact .inl ⟨hone, hexec⟩
  · exact .inr ⟨hone, hfull, hexec⟩

end

/-! ## The first moduli -/

/-- The rows 0 to 19 of 42_coprime.md R154. -/
def firstTwentyModuli : List Nat :=
  [65535, 65534, 65533, 65531, 65521, 65519, 65509, 65497, 65491, 65489, 65483, 65479, 65477, 65473, 65459, 65453,
    65449, 65447, 65437, 65431]

/-- They are what a lookup of index 19 leaves in the cache after reset. -/
theorem coprimeAt_nineteen : coprimeAt 6493 [65535] 19 = (firstTwentyModuli, .ok 65431) := by decide +kernel

theorem cacheSound_firstTwentyModuli : CacheSound firstTwentyModuli :=
  (CacheGrown.of_coprimeAt coprimeAt_nineteen).sound cacheSound_seed

/-! ## The statements -/

/-- Settles O23: two sound caches agree wherever both have an entry. -/
theorem modulusIsFunctionOfIndex : Obligations.ModulusIsFunctionOfIndex := by
  unfold Obligations.ModulusIsFunctionOfIndex
  intro i m m' h h'
  exact h.unique h'

/-- Settles O25: both entries stand in one sound cache, whose entries are in `[1, 65535]`. -/
theorem moduliCoprimeAndSmall : Obligations.ModuliCoprimeAndSmall := by
  unfold Obligations.ModuliCoprimeAndSmall
  intro i j m m' hij h h'
  obtain ⟨hcoprime, hlt⟩ := h.coprime_and_lt hij h'
  exact ⟨hcoprime, hlt, Nat.lt_succ_of_le h.range.2, h'.range.1, fun v => ⟨h.minlen_mod_le v, h'.minlen_mod_le v⟩⟩

/-- Settles O26: the lookup finds the modulus, which fits its register. -/
theorem modulusLookupResult : Obligations.ModulusLookupResult := by
  unfold Obligations.ModulusLookupResult
  intro s d m hs hp hm hi
  obtain ⟨cp', hx, hprefix, hsound, hget, hlen⟩ := coprimeAt_of_isModulus hs.1 hs.2 hm hi
  have hword : countWord m = BitVec.ofNat 32 m := countWord_of_lt (by have := hm.range.2; omega)
  refine ⟨decode_encode (.cpget d), cp', ⟨hprefix, hsound, hlen⟩, hget, ?_⟩
  rw [exec_cpget_of_ok d hx (hm.fits hp), hword]

/-- Settles O39: CPGET and ENCGEN look one index up, DECDONE and DECREC those of the store; each reports the failure of
its lookup. -/
theorem modulusLookupFailure : Obligations.ModulusLookupFailure := by
  unfold Obligations.ModulusLookupFailure
  intro s i ⟨hs, hlen⟩ hcommand
  rcases hcommand with ⟨hi, hreach⟩ | ⟨hi, hv, hreach⟩
  · obtain ⟨cp', e, hx, hf⟩ := coprimeAt_of_outOfReach hs hlen hreach
    rcases hi with ⟨d, rfl⟩ | ⟨rfl, hv, hr⟩
    · exact hf.command_fails (exec_cpget_of_error d hx)
    · exact hf.command_fails (exec_encgen_of_error hv hr hx)
  · obtain ⟨cp', e, hx, hf⟩ := coprimesAt_of_outOfReach hs hlen hreach
    rcases hi with rfl | ⟨rfl, hr⟩
    · exact hf.command_fails (exec_decdone_of_error hv hx)
    · exact hf.command_fails (exec_decrec_of_error hv hr hx)

/-- Settles O24: the twenty values are a sound cache, so each is the modulus of its place there. -/
theorem firstModuli : Obligations.FirstModuli := by
  unfold Obligations.FirstModuli
  intro e he
  exact ⟨firstTwentyModuli, cacheSound_firstTwentyModuli, List.mem_zipIdx_iff_getElem?.1 he⟩

end Sys2Proof.Machine
end

section
/-! # The Chinese remainder engine (43_crt.md)

A coefficient set exists exactly for positive, pairwise coprime moduli whose product fits. Over one, the combination of a
list of parts is the unique solution below the base. CRTCOEF and CRTCOMB read their operands in the same way and report
what `coefficients` and `combine` answer; CRTW, CRTM and CRTBASE are one write each. -/

namespace Sys2Proof.Machine

/-! ## The coefficient set -/

section
variable {p : Params} {ms ws : List Nat} {base : Nat} {e : CoreErr}

/-- The checks of R160 in their order, over the product of the moduli. -/
theorem coefficients_eq (p : Params) (ms : List Nat) :
    coefficients p ms =
      if 0 ∈ ms then .error .invalidArgument
      else if fits p (ms.prod : Nat) = true then
        (crtWeights ms ms.prod (List.range ms.length)).map fun ws => (ws, ms.prod)
      else .error .capacityExceeded := by
  simp only [coefficients, product_eq_prod, List.any_beq', List.contains_iff_mem]
  cases crtWeights ms ms.prod (List.range ms.length) <;> rfl

theorem coefficients_of_zero_mem (h : 0 ∈ ms) : coefficients p ms = .error .invalidArgument := by
  rw [coefficients_eq, if_pos h]

theorem coefficients_of_not_fits (h0 : 0 ∉ ms) (hfit : fits p (ms.prod : Nat) = false) :
    coefficients p ms = .error .capacityExceeded := by
  rw [coefficients_eq, if_neg h0, if_neg (Bool.not_eq_true _ ▸ hfit)]

theorem crtWeight_error {i : Nat} (hpos : ∀ m ∈ ms, m ≠ 0) (hi : i < ms.length)
    (h : crtWeight ms ms.prod i = .error e) : e = .notInvertible := by
  obtain ⟨hcoprime, hshared⟩ := crtWeight_spec hi hpos
  by_cases hc : ∀ j (hj : j < ms.length), j ≠ i → Nat.Coprime ms[j] ms[i]
  · obtain ⟨w, hw, -⟩ := hcoprime hc
    rw [h] at hw; cases hw
  · exact Except.error.inj (h.symm.trans (hshared hc))

theorem crtWeights_error (hpos : ∀ m ∈ ms, m ≠ 0) : ∀ {is : List Nat}, (∀ i ∈ is, i < ms.length) →
    crtWeights ms ms.prod is = .error e → e = .notInvertible
  | [], _, h => by cases h
  | i :: is, hlt, h => by
    obtain ⟨hi, his⟩ := List.forall_mem_cons.1 hlt
    simp only [crtWeights] at h
    split at h
    · next hw => cases h; exact crtWeight_error hpos hi hw
    · split at h
      · next hws => cases h; exact crtWeights_error hpos his hws
      · cases h

theorem coefficients_pairwise_coprime (h : coefficients p ms = .ok (ws, base)) : ms.Pairwise Nat.Coprime :=
  List.pairwise_iff_getElem.2 fun _ _ hi hj hij => coefficients_coprime h hj hi hij.ne

/-- NotInvertible is the only error left past the first two checks, and coprime moduli alone pass it (R160). -/
theorem coefficients_of_not_coprime (h0 : 0 ∉ ms) (hfit : fits p (ms.prod : Nat) = true)
    (hn : ¬ ms.Pairwise Nat.Coprime) : coefficients p ms = .error .notInvertible := by
  have heq := coefficients_eq p ms
  rw [if_neg h0, if_pos hfit] at heq
  cases hw : crtWeights ms ms.prod (List.range ms.length) with
  | ok ws =>
    rw [hw] at heq
    exact absurd (coefficients_pairwise_coprime heq) hn
  | error e =>
    obtain rfl : e = .notInvertible :=
      crtWeights_error (fun m hm => ne_of_mem_of_not_mem hm h0) (fun i hi => List.mem_range.1 hi) hw
    rw [heq, hw]; rfl

/-! ## The combination -/

/-- Residues modulo coprime moduli determine a number below their product (R162). -/
theorem eq_of_modEq_moduli (h : coefficients p ms = .ok (ws, base)) {r r' : Nat} (hr : r < base) (hr' : r' < base)
    (hagree : ∀ k (hk : k < ms.length), r' ≡ r [MOD ms[k]]) : r' = r := by
  obtain ⟨-, -, rfl, -⟩ := (coefficients_ok_iff p ms ws base).1 h
  have hmod : r' ≡ r [MOD ms.prod] :=
    (Nat.modEq_list_prod_iff (coefficients_pairwise_coprime h)).2 fun k => hagree k k.isLt
  exact hmod.eq_of_lt_of_lt hr' hr

/-- The parts of R162, each reduced modulo its modulus. -/
def reducedParts (ps ms : List Nat) : List Nat := (ps.zip ms).map fun x => x.1 % x.2

theorem reducedParts_length {ps : List Nat} (h : ps.length = ms.length) : (reducedParts ps ms).length = ms.length := by
  simp [reducedParts, h]

theorem reducedParts_modEq {ps : List Nat} (h : ps.length = ms.length) {k : Nat} (hk : k < ms.length) :
    (reducedParts ps ms).getD k 0 ≡ ps.getD k 0 [MOD ms[k]] := by
  rw [List.getD_eq_getElem _ _ ((reducedParts_length h).symm ▸ hk), List.getD_eq_getElem _ _ (h.symm ▸ hk)]
  simp only [reducedParts, List.getElem_map, List.getElem_zip]
  exact Nat.mod_modEq _ _

end

/-! ## The operands of CRTCOEF and CRTCOMB -/

section
variable {s : State}

/-- What CRTCOEF and CRTCOMB read (43_crt.md R161, R163): ARG0 numbers of ARG2 bytes each, from ARG1 upward. -/
def State.crtOperands (s : State) : List Nat := s.readEntries s.larg1.toNat s.larg2.toNat s.larg0.toNat

theorem State.crtOperands_eq (s : State) :
    s.crtOperands =
      (List.range s.larg0.toNat).map fun k => s.numberAt (s.larg1.toNat + k * s.larg2.toNat) s.larg2.toNat :=
  s.readEntries_eq _ _ _

theorem State.crtOperands_length (s : State) : s.crtOperands.length = s.larg0.toNat := by
  rw [State.crtOperands_eq, List.length_map, List.length_range]

theorem State.crtOperands_getD {k : Nat} (hk : k < s.larg0.toNat) :
    s.crtOperands.getD k 0 = s.numberAt (s.larg1.toNat + k * s.larg2.toNat) s.larg2.toNat := by
  simp [State.crtOperands_eq, hk]

theorem State.forall_mem_crtOperands {q : Nat → Prop} :
    (∀ m ∈ s.crtOperands, q m) ↔
      ∀ k < s.larg0.toNat, q (s.numberAt (s.larg1.toNat + k * s.larg2.toNat) s.larg2.toNat) := by
  simp [State.crtOperands_eq]

theorem State.exists_mem_crtOperands {q : Nat → Prop} :
    (∃ m ∈ s.crtOperands, q m) ↔
      ∃ k < s.larg0.toNat, q (s.numberAt (s.larg1.toNat + k * s.larg2.toNat) s.larg2.toNat) := by
  simp [State.crtOperands_eq]

theorem all_fits_of_forall {p : Params} {l : List Nat} (h : ∀ m ∈ l, fits p (m : Nat) = true) :
    l.all (fun m => fits p (m : Nat)) = true :=
  List.all_eq_true.2 h

theorem all_fits_of_exists {p : Params} {l : List Nat} (h : ∃ m ∈ l, fits p (m : Nat) = false) :
    l.all (fun m => fits p (m : Nat)) = false :=
  List.all_eq_false.2 (by simpa using h)

/-! ## CRTCOEF -/

theorem Crt.ofLists_eq (ms ws : List Nat) (base : Nat) : Crt.ofLists ms ws base = ⟨List.zipWith CrtEntry.mk ms ws, base⟩ :=
  congrArg (Crt.mk · base) List.map_uncurry_zip_eq_zipWith

theorem exec_crtcoef_of_long (h : s.par.maxK < s.larg0.toNat) : exec .crtcoef s = .next (s.failed 8) := by
  simp only [exec, execCrtcoef, if_pos h]; rfl

theorem exec_crtcoef_of_not_inRange (hk : s.larg0.toNat ≤ s.par.maxK)
    (hr : ¬ s.inRange s.larg1.toNat (s.larg0.toNat * s.larg2.toNat)) : exec .crtcoef s = .next (s.failed 11) := by
  simp only [exec, execCrtcoef, if_neg (not_lt.2 hk), State.outOfRange_of_not_inRange hr, if_true]; rfl

section
variable (hk : s.larg0.toNat ≤ s.par.maxK) (hr : s.inRange s.larg1.toNat (s.larg0.toNat * s.larg2.toNat))
include hk hr

theorem exec_crtcoef_of_not_fits (h : ∃ m ∈ s.crtOperands, fits s.par (m : Nat) = false) :
    exec .crtcoef s = .next (s.failed 8) := by
  have hall := all_fits_of_exists h
  simp only [State.crtOperands] at hall
  simp only [exec, execCrtcoef, if_neg (not_lt.2 hk), State.outOfRange_of_inRange hr, hall, Bool.false_eq_true, if_false]
  rfl

theorem exec_crtcoef_of_error (h : ∀ m ∈ s.crtOperands, fits s.par (m : Nat) = true) {e : CoreErr}
    (hc : coefficients s.par s.crtOperands = .error e) : exec .crtcoef s = .next (s.failed e.code) := by
  have hall := all_fits_of_forall h
  simp only [State.crtOperands] at hall hc
  simp only [exec, execCrtcoef, if_neg (not_lt.2 hk), State.outOfRange_of_inRange hr, hall, hc, Bool.false_eq_true,
    if_false, if_true]
  rfl

theorem exec_crtcoef_of_ok (h : ∀ m ∈ s.crtOperands, fits s.par (m : Nat) = true) {ws : List Nat} {base : Nat}
    (hc : coefficients s.par s.crtOperands = .ok (ws, base)) :
    exec .crtcoef s = .next { s.completed with
      crt := ⟨List.zipWith CrtEntry.mk s.crtOperands ws, base⟩
      res0 := countWord (bitlen base)
      maxBits := noteBits s.maxBits ((s.crtOperands ++ ws ++ [base]).map Int.ofNat) } := by
  have hall := all_fits_of_forall h
  rw [← Crt.ofLists_eq, List.map_append, List.map_append]
  simp only [State.crtOperands] at hall hc ⊢
  simp only [exec, execCrtcoef, if_neg (not_lt.2 hk), State.outOfRange_of_inRange hr, hall, hc, Bool.false_eq_true,
    if_false, if_true]
  rfl

end

/-! ## CRTCOMB -/

theorem exec_crtcomb_of_length_ne (d : Reg) (h : s.larg0.toNat ≠ s.crt.entries.length) :
    exec (.crtcomb d) s = .next (s.failed 1) := by
  simp only [exec, execCrtcomb, if_pos h]; rfl

theorem exec_crtcomb_of_not_inRange (d : Reg) (hn : s.larg0.toNat = s.crt.entries.length)
    (hr : ¬ s.inRange s.larg1.toNat (s.larg0.toNat * s.larg2.toNat)) : exec (.crtcomb d) s = .next (s.failed 11) := by
  simp only [exec, execCrtcomb, if_neg (not_not.2 hn), State.outOfRange_of_not_inRange hr, if_true]; rfl

section
variable (d : Reg) (hn : s.larg0.toNat = s.crt.entries.length)
  (hr : s.inRange s.larg1.toNat (s.larg0.toNat * s.larg2.toNat))
include hn hr

theorem exec_crtcomb_of_not_fits (h : ∃ m ∈ s.crtOperands, fits s.par (m : Nat) = false) :
    exec (.crtcomb d) s = .next (s.failed 8) := by
  have hall := all_fits_of_exists h
  simp only [State.crtOperands] at hall
  simp only [exec, execCrtcomb, if_neg (not_not.2 hn), State.outOfRange_of_inRange hr, hall, Bool.false_eq_true, if_false]
  rfl

theorem exec_crtcomb_of_ok (h : ∀ m ∈ s.crtOperands, fits s.par (m : Nat) = true) {r : Nat}
    (hc : combine s.crtOperands s.crt.weights s.crt.base s.crt.entries.length = .ok r) :
    exec (.crtcomb d) s = s.finish (s.writeBig d r) := by
  have hall := all_fits_of_forall h
  simp only [State.crtOperands] at hall hc
  simp only [exec, execCrtcomb, if_neg (not_not.2 hn), State.outOfRange_of_inRange hr, hall, hc, Bool.false_eq_true,
    if_false, if_true]

end

/-! ## Reading the table -/

theorem Crt.moduli_length (c : Crt) : c.moduli.length = c.entries.length := List.length_map _

theorem Crt.moduli_getD {c : Crt} {k : Nat} {e : CrtEntry} (h : c.entries[k]? = some e) : c.moduli.getD k 0 = e.m := by
  simp [Crt.moduli, h]

theorem Crt.weights_getD {c : Crt} {k : Nat} {e : CrtEntry} (h : c.entries[k]? = some e) : c.weights.getD k 0 = e.w := by
  simp [Crt.weights, h]

theorem exec_crtw_of_length_le (d : Reg) (h : s.crt.entries.length ≤ s.larg0.toNat) :
    exec (.crtw d) s = .next (s.failed 1) := by
  simp only [exec, execCrtw, if_pos h]; rfl

theorem exec_crtm_of_length_le (d : Reg) (h : s.crt.entries.length ≤ s.larg0.toNat) :
    exec (.crtm d) s = .next (s.failed 1) := by
  simp only [exec, execCrtm, if_pos h]; rfl

theorem Crt.not_length_le_of_getElem? {c : Crt} {k : Nat} {e : CrtEntry} (h : c.entries[k]? = some e) :
    ¬ c.entries.length ≤ k :=
  not_le.2 (List.getElem?_eq_some_iff.1 h).1

theorem exec_crtw_of_entry (d : Reg) {e : CrtEntry} (h : s.crt.entries[s.larg0.toNat]? = some e) :
    exec (.crtw d) s = s.finish (s.writeBig d (e.w : Nat)) := by
  simp only [exec, execCrtw, if_neg (Crt.not_length_le_of_getElem? h), State.scalar0_eq, Crt.weights_getD h]

theorem exec_crtm_of_entry (d : Reg) {e : CrtEntry} (h : s.crt.entries[s.larg0.toNat]? = some e) :
    exec (.crtm d) s = s.finish (s.writeBig d (e.m : Nat)) := by
  simp only [exec, execCrtm, if_neg (Crt.not_length_le_of_getElem? h), State.scalar0_eq, Crt.moduli_getD h]

/-- On a sound table CRTCOMB has a value: below the base, which fits, and congruent to every part (R163). -/
theorem State.CrtSound.combine (h : s.CrtSound) (hn : s.larg0.toNat = s.crt.entries.length) :
    ∃ r, Machine.combine s.crtOperands s.crt.weights s.crt.base s.crt.entries.length = .ok r ∧ r < s.crt.base
      ∧ fits s.par (r : Nat) = true
      ∧ ∀ k e, s.crt.entries[k]? = some e →
        r ≡ s.numberAt (s.larg1.toNat + k * s.larg2.toNat) s.larg2.toNat [MOD e.m] := by
  have hset := h.2
  have hlen := s.crt.moduli_length
  obtain ⟨r, hc, hlt, hagree⟩ := combine_spec hset (s.crtOperands_length.trans (hn.trans hlen.symm))
  rw [hlen] at hc
  refine ⟨r, hc, hlt, fits_mono (coefficients_base_fits hset) (by simpa using hlt.le), fun k e he => ?_⟩
  have hk : k < s.crt.entries.length := (List.getElem?_eq_some_iff.1 he).1
  have hpart := hagree k (hlen.symm ▸ hk)
  rwa [← List.getD_eq_getElem _ 0, Crt.moduli_getD he, State.crtOperands_getD (hn.symm ▸ hk)] at hpart

end

/-! ## The statements -/

/-- Settles O27: each check of R160 excludes the ones after it, and the weights of a coefficient set are what R160 says. -/
theorem coefficientSetResult : Obligations.CoefficientSetResult := by
  unfold Obligations.CoefficientSetResult
  intro p ms
  refine ⟨coefficients_of_zero_mem, coefficients_of_not_fits, coefficients_of_not_coprime, fun h0 hfit hco => ?_⟩
  obtain ⟨ws, hc⟩ := coefficients_of_coprime (fun m hm => ne_of_mem_of_not_mem hm h0) hfit hco
  refine ⟨ws, hc, coefficients_length hc, fun i hi => ?_⟩
  obtain ⟨hlt, hone, hzero⟩ := coefficients_weight_spec hc hi
  rw [List.getD_eq_getElem ms 0 hi]
  refine ⟨hlt, hone, fun j hj hne => ?_⟩
  rw [List.getD_eq_getElem ms 0 hj]
  exact hzero j hj hne

/-- Settles O28: the combination of the parts is a solution below the base, of which there is one only, and the
combination of the reduced parts is another. -/
theorem combineIsUniqueSolution : Obligations.CombineIsUniqueSolution := by
  unfold Obligations.CombineIsUniqueSolution
  intro p ms ws ps base h hps
  have hgetD : ∀ k (hk : k < ms.length), ms.getD k 0 = ms[k] := fun k hk => List.getD_eq_getElem ms 0 hk
  obtain ⟨r, hr, hlt, hagree⟩ := combine_spec h hps
  obtain ⟨q, hq, hqlt, hqagree⟩ := combine_spec h (reducedParts_length hps)
  have hqr : q = r := eq_of_modEq_moduli h hlt hqlt fun k hk =>
    ((hqagree k hk).trans (reducedParts_modEq hps hk)).trans (hagree k hk).symm
  refine ⟨r, hr, hlt, fun k hk => ?_, fun r' hlt' hagree' => ?_, hqr ▸ hq⟩
  · exact (hgetD k hk).symm ▸ hagree k hk
  · exact eq_of_modEq_moduli h hlt hlt' fun k hk => (hgetD k hk ▸ hagree' k hk).trans (hagree k hk).symm

/-- Settles O29: CRTCOEF reports the error of `coefficients` on the moduli it reads, or stores their coefficient set. -/
theorem coefficientCommandResult : Obligations.CoefficientCommandResult := by
  unfold Obligations.CoefficientCommandResult
  intro s ms hms
  rw [← s.crtOperands_eq] at hms
  subst hms
  refine ⟨decode_encode .crtcoef, exec_crtcoef_of_long, exec_crtcoef_of_not_inRange, fun hk hr =>
    ⟨exec_crtcoef_of_not_fits hk hr, fun hall => ⟨fun h0 => ?_, fun h0 hfit => ?_, fun h0 hfit hn => ?_,
      fun h0 hfit hco => ?_⟩⟩⟩
  · exact exec_crtcoef_of_error hk hr hall (coefficients_of_zero_mem h0)
  · exact exec_crtcoef_of_error hk hr hall (coefficients_of_not_fits h0 hfit)
  · exact exec_crtcoef_of_error hk hr hall (coefficients_of_not_coprime h0 hfit hn)
  · obtain ⟨ws, hc⟩ := coefficients_of_coprime (fun m hm => ne_of_mem_of_not_mem hm h0) hfit hco
    exact ⟨ws, hc, exec_crtcoef_of_ok hk hr hall hc⟩

/-- Settles O30: on a sound table CRTCOMB is one write of the combination. -/
theorem combineCommandResult : Obligations.CombineCommandResult := by
  unfold Obligations.CombineCommandResult
  intro s d
  refine ⟨decode_encode (.crtcomb d), exec_crtcomb_of_length_ne d, exec_crtcomb_of_not_inRange d, fun hn hr =>
    ⟨fun hwide => ?_, fun hall hsound => ?_⟩⟩
  · exact exec_crtcomb_of_not_fits d hn hr (State.exists_mem_crtOperands.2 hwide)
  · obtain ⟨r, hc, hlt, hfit, hagree⟩ := hsound.combine hn
    have hexec := exec_crtcomb_of_ok d hn hr (State.forall_mem_crtOperands.2 hall) hc
    exact ⟨r, hexec.trans (State.finish_writeBig_of_fits hfit), hlt, hagree⟩

/-- Settles O31: an index past the table is an error, and each of the three commands is otherwise one write. -/
theorem tableReadResult : Obligations.TableReadResult := by
  unfold Obligations.TableReadResult
  intro s d
  refine ⟨⟨decode_encode (.crtw d), decode_encode (.crtm d), decode_encode (.crtbase d)⟩, fun h => ?_, fun e he => ?_,
    fun hfit => ?_⟩
  · exact ⟨exec_crtw_of_length_le d h, exec_crtm_of_length_le d h⟩
  · exact ⟨fun hfit => (exec_crtw_of_entry d he).trans (State.finish_writeBig_of_fits hfit),
      fun hfit => (exec_crtm_of_entry d he).trans (State.finish_writeBig_of_fits hfit)⟩
  · exact State.finish_writeBig_of_fits hfit

end Sys2Proof.Machine
end

section
/-! # The encoder and the decoder (44_codec.md)

`geometry` answers one of three errors or the one geometry that the length and the bundle size fix. The commands are first
given as equations, one per outcome. The reconstruction then rests on one fact: over a sound store the combination of slice
`h` of the bundles is the value that `CombinesTo` names, so `recover` is a choice between two values for each hunk. -/

namespace Sys2Proof.Machine

/-! ## Geometry -/

section
variable {p : Params} {l sz mb : Nat}

theorem geometry_of_invalid (h : sz = 0 ∨ sz % 2 = 1 ∨ l = 0) : geometry p l sz = .error .invalidArgument := by
  rw [geometry_eq, if_pos h]

theorem hundred_lt_minBundles_iff (hsz : 0 < sz) : 100 < (l + sz - 1) / sz ↔ 100 * sz < l := by
  have h : 101 ≤ (l + sz - 1) / sz ↔ 101 * sz ≤ l + sz - 1 := Nat.le_div_iff_mul_le hsz
  omega

theorem minBundles_le_hundred_iff (hsz : 0 < sz) : (l + sz - 1) / sz ≤ 100 ↔ l ≤ 100 * sz := by
  rw [← not_lt, hundred_lt_minBundles_iff hsz, not_lt]

theorem geometry_ok_eq {g : Geometry} (h : geometry p l sz = .ok g) :
    g = ⟨(l + sz - 1) / sz * sz, (l + sz - 1) / sz, 2 * ((l + sz - 1) / sz), sz / 2⟩ := by
  rw [geometry_eq] at h
  split_ifs at h
  exact (Except.ok.inj h).symm

/-- The sender and the receiver of the same length and bundle size agree on the geometry, whatever their parameters. -/
theorem geometry_ok_unique {p' : Params} {g g' : Geometry} (h : geometry p l sz = .ok g) (h' : geometry p' l sz = .ok g') :
    g = g' := (geometry_ok_eq h).trans (geometry_ok_eq h').symm

/-- The bound on a hunk is the threshold of R196 (44_codec.md R199). -/
theorem geometry_pow {g : Geometry} (h : geometry p l sz = .ok g) : 256 ^ g.hsize = 65536 ^ g.minb := by
  obtain ⟨-, -, -, -, -, -, -, hhsize, -⟩ := geometry_ok h
  rw [hhsize, pow_mul]; norm_num

section
variable (hsz : 0 < sz) (heven : sz % 2 = 0) (hl : 0 < l) (hmb : mb = (l + sz - 1) / sz)
include hsz heven hl hmb

theorem geometry_of_large (h : 100 < mb) : geometry p l sz = .error .dataTooLarge := by
  rw [geometry_eq, if_neg (by omega), if_pos (hmb ▸ h)]

theorem geometry_of_manyHunks (h : mb ≤ 100) (hH : p.maxH < sz / 2) : geometry p l sz = .error .capacityExceeded := by
  rw [geometry_eq, if_neg (by omega), if_neg (hmb ▸ not_lt.2 h), if_pos hH]

theorem geometry_of_accepted (h : mb ≤ 100) (hH : sz / 2 ≤ p.maxH) :
    geometry p l sz = .ok ⟨mb * sz, mb, 2 * mb, sz / 2⟩ := by
  rw [geometry_eq, if_neg (by omega), if_neg (hmb ▸ not_lt.2 h), if_neg (not_lt.2 hH), hmb]

end
end

/-! ## Bytes and hunks -/

/-- The sum of 00_scope.md R12, over the bytes of a sequence of known length. -/
theorem fromBE_eq_sum_range {l : List Byte} {n : Nat} (h : l.length = n) :
    fromBE l = ∑ k ∈ Finset.range n, (l.getD k 0).toNat * 256 ^ (n - 1 - k) := by
  subst h
  rw [fromBE_eq_sum, Finset.sum_range]
  refine Finset.sum_congr rfl fun k _ => ?_
  rw [List.getD_eq_getElem l 0 k.isLt]; rfl

theorem padded_getD (data : List Byte) (g : Geometry) (j : Nat) : (padded data g).getD j 0 = data.getD j 0 := by
  unfold padded
  by_cases hj : j < data.length
  · rw [List.getD_append _ _ _ _ hj]
  · rw [List.getD_append_right _ _ _ _ (not_lt.1 hj), List.getD_eq_default data 0 (not_lt.1 hj)]
    simp only [List.getD_eq_getElem?_getD, List.getElem?_replicate]
    split <;> rfl

theorem State.memRead_getD_toNat (s : State) (a n j : Nat) :
    ((s.memRead a n).getD j 0).toNat = if j < n then (s.byteAt (a + j)).toNat else 0 := by
  split
  · next hj => rw [List.getD_eq_getElem _ 0 (by simpa using hj), State.memRead_getElem]
  · next hj => rw [List.getD_eq_default _ 0 (by simpa using hj)]; rfl

/-- A hunk as the sum over its part of the buffer, which reads 0 past the buffer's end (44_codec.md R189). -/
theorem hunks_getD {data : List Byte} {g : Geometry} (hlen : data.length ≤ g.plen) (hp : g.plen = g.nh * g.hsize)
    {i : Nat} (hi : i < g.nh) :
    (hunks data g).getD i 0
      = ∑ k ∈ Finset.range g.hsize, (data.getD (i * g.hsize + k) 0).toNat * 256 ^ (g.hsize - 1 - k) := by
  have hend : (i + 1) * g.hsize ≤ g.nh * g.hsize := Nat.mul_le_mul_right _ hi
  have hrun : (((padded data g).drop (i * g.hsize)).take g.hsize).length = g.hsize := by
    rw [List.length_take, List.length_drop, padded_length hlen, hp]
    rw [add_mul, one_mul] at hend
    omega
  rw [List.getD_eq_getElem _ 0 (by simpa using hi), hunks_getElem, fromBE_eq_sum_range hrun]
  refine Finset.sum_congr rfl fun k hk => ?_
  rw [← padded_getD data g, List.getD_eq_getElem?_getD, List.getElem?_take_of_lt (Finset.mem_range.1 hk),
    List.getElem?_drop, ← List.getD_eq_getElem?_getD]

/-! ## ENCINIT and DECINIT -/

section
variable {s : State} {g : Geometry} {e : CoreErr}

theorem exec_encinit_of_error (h : geometry s.par s.larg1.toNat s.larg2.toNat = .error e) :
    exec .encinit s = .next (s.raise e) := by
  simp only [exec, execEncinit, h, State.finish_error]

theorem exec_encinit_of_not_inRange (h : geometry s.par s.larg1.toNat s.larg2.toNat = .ok g)
    (hr : ¬ s.inRange s.larg0.toNat s.larg1.toNat) : exec .encinit s = .next (s.failed 11) := by
  simp only [exec, execEncinit, h, State.outOfRange_of_not_inRange hr, if_true]; rfl

theorem exec_encinit_of_ok (h : geometry s.par s.larg1.toNat s.larg2.toNat = .ok g)
    (hr : s.inRange s.larg0.toNat s.larg1.toNat) :
    exec .encinit s = .next { s.completed with
      enc := ⟨true, s.larg1.toNat, s.larg2.toNat, g.plen, g.minb, g.hsize, g.nh,
        hunks (s.memRead s.larg0.toNat s.larg1.toNat) g⟩
      res0 := countWord g.nh
      res1 := countWord g.minb
      maxBits := noteBits s.maxBits ((hunks (s.memRead s.larg0.toNat s.larg1.toNat) g).map Int.ofNat) } := by
  simp only [exec, execEncinit, h, State.outOfRange_of_inRange hr, Bool.false_eq_true, if_false]; rfl

theorem exec_decinit_of_error (h : geometry s.par s.larg0.toNat s.larg1.toNat = .error e) :
    exec .decinit s = .next (s.raise e) := by
  simp only [exec, execDecinit, h, State.finish_error]

theorem exec_decinit_of_ok (h : geometry s.par s.larg0.toNat s.larg1.toNat = .ok g) :
    exec .decinit s = .next { s.completed with
      dec := ⟨true, s.larg0.toNat, s.larg1.toNat, g.plen, g.minb, g.hsize, g.nh, []⟩
      flags := ⟨s.flags.lt, s.flags.eq, s.flags.gt, false⟩ } := by
  simp only [exec, execDecinit, h]; rfl

/-- An ENCINIT that ends without error built the encoder from its buffer (44_codec.md R190). -/
theorem exec_encinit_enc {t : State} (h : exec .encinit s = .next t) (herr : t.status.err = false) :
    ∃ g, geometry s.par s.larg1.toNat s.larg2.toNat = .ok g
      ∧ t.enc = ⟨true, s.larg1.toNat, s.larg2.toNat, g.plen, g.minb, g.hsize, g.nh,
          hunks (s.memRead s.larg0.toNat s.larg1.toNat) g⟩ := by
  obtain ⟨g, data, hg, -, rfl, rfl⟩ | ⟨e, -, rfl⟩ := exec_encinit_cases h
  · exact ⟨g, hg, rfl⟩
  · cases herr

end

/-! ## ENCGEN and ENCHUNK -/

theorem Enc.bundle_length (e : Enc) (m : Nat) : (e.bundle m).length = e.bsize / 2 * 2 := by
  unfold Enc.bundle
  rw [flatMap_toBE_length, Enc.slices_length]

/-- The two bytes of a bundle that stand for one slice (44_codec.md R192). -/
theorem Enc.bundle_run (e : Enc) (m : Nat) {i : Nat} (hi : i < e.bsize / 2) :
    ((e.bundle m).drop (2 * i)).take 2 = toBE (e.h.getD i 0 % m) 2 := by
  unfold Enc.bundle
  rw [flatMap_toBE_run 2 (e.slices m) i (by simpa using hi)]
  simp only [Enc.slices, List.getElem_map, List.getElem_range]

/-- A slice is below its modulus, so its two bytes hold it (42_coprime.md R155). -/
theorem Enc.fromBE_bundle_run (e : Enc) {i m : Nat} (hi : i < e.bsize / 2) (hm : 1 ≤ m ∧ m ≤ 65535) :
    fromBE (((e.bundle m).drop (2 * i)).take 2) = e.h.getD i 0 % m := by
  have hlt := Nat.mod_lt (e.h.getD i 0) hm.1
  rw [e.bundle_run m hi, fromBE_toBE (by omega)]

section
variable {s : State}

theorem exec_encgen_of_invalid (hv : s.enc.valid = false) : exec .encgen s = .next (s.failed 10) := by
  simp only [exec, execEncgen, hv, if_true]; rfl

theorem exec_encgen_of_not_inRange (hv : s.enc.valid = true) (hr : ¬ s.inRange s.larg1.toNat s.enc.bsize) :
    exec .encgen s = .next (s.failed 11) := by
  simp only [exec, execEncgen, hv, State.outOfRange_of_not_inRange hr, Bool.true_eq_false, if_false, if_true]; rfl

/-- `s` after an ENCGEN that found the cache `cp'` and the modulus `m` (44_codec.md R192). -/
def State.generated (s : State) (cp' : List Nat) (m : Nat) : State :=
  { s.completed with cp := cp', mem := (s.memWrite s.larg1.toNat (s.enc.bundle m)).mem }

theorem State.generated_numberAt (cp' : List Nat) {m i : Nat} (hi : i < s.enc.bsize / 2) (hm : 1 ≤ m ∧ m ≤ 65535) :
    (s.generated cp' m).numberAt (s.larg1.toNat + 2 * i) 2 = s.enc.h.getD i 0 % m := by
  have hpart : 2 * i + 2 ≤ (s.enc.bundle m).length := by rw [s.enc.bundle_length]; omega
  rw [State.numberAt_eq,
    State.memRead_congr_mem (s := s.generated cp' m) (t := s.memWrite s.larg1.toNat (s.enc.bundle m)) rfl rfl,
    State.memRead_memWrite_part _ _ _ hpart, s.enc.fromBE_bundle_run hi hm]

/-- No slice of a cached modulus overflows its two bytes, so the lookup is the last check of R192. -/
theorem exec_encgen_of_ok {cp' : List Nat} {m : Nat} (hv : s.enc.valid = true) (hr : s.inRange s.larg1.toNat s.enc.bsize)
    (h : coprimeAt s.par.cpMax s.cp s.larg0.toNat = (cp', .ok m)) (hm : 1 ≤ m ∧ m ≤ 65535) :
    exec .encgen s = .next (s.generated cp' m) := by
  simp only [exec, execEncgen, hv, State.outOfRange_of_inRange hr, h, Enc.slices_minlen hm, Bool.true_eq_false,
    Bool.false_eq_true, if_false]
  rfl

theorem exec_enchunk_of_invalid (d : Reg) (hv : s.enc.valid = false) : exec (.enchunk d) s = .next (s.failed 10) := by
  simp only [exec, execEnchunk, hv, if_true]; rfl

theorem exec_enchunk_of_le (d : Reg) (hv : s.enc.valid = true) (h : s.enc.nh ≤ s.larg0.toNat) :
    exec (.enchunk d) s = .next (s.failed 1) := by
  simp only [exec, execEnchunk, hv, if_pos h, Bool.true_eq_false, if_false]; rfl

theorem exec_enchunk_of_lt (d : Reg) (hv : s.enc.valid = true) (h : s.larg0.toNat < s.enc.nh) :
    exec (.enchunk d) s = s.finish (s.writeBig d (s.enc.h.getD s.larg0.toNat 0 : Nat)) := by
  simp only [exec, execEnchunk, hv, if_neg (not_le.2 h), Bool.true_eq_false, if_false]

theorem State.EncSound.hunk_lt (h : s.EncSound) (hv : s.enc.valid = true) {i : Nat} (hi : i < s.enc.nh) :
    s.enc.h.getD i 0 < 256 ^ s.enc.hsize := by
  unfold State.EncSound at h
  rw [if_pos hv] at h
  obtain ⟨-, hlen, hlt⟩ := h
  rw [List.getD_eq_getElem _ 0 (hlen.symm ▸ hi)]
  exact hlt _ (List.getElem_mem _)

theorem State.EncSound.geometry (h : s.EncSound) (hv : s.enc.valid = true) :
    geometry s.par s.enc.len s.enc.bsize = .ok ⟨s.enc.plen, s.enc.minb, s.enc.hsize, s.enc.nh⟩ := by
  unfold State.EncSound at h
  rw [if_pos hv] at h
  exact h.1

end

/-! ## A sound decoder -/

/-- The geometry a decoder holds (44_codec.md R194). -/
abbrev Dec.geom (x : Dec) : Geometry := ⟨x.plen, x.minb, x.hsize, x.nh⟩

/-- The decoder of a sound state that holds one (10_state.md R28). -/
structure Dec.Sound (p : Params) (x : Dec) : Prop where
  geometry : geometry p x.len x.bsize = .ok x.geom
  rising : x.s.Pairwise (fun e f => e.1 < f.1)
  count : x.s.length ≤ p.maxB
  size : ∀ e ∈ x.s, e.2.length = x.bsize

theorem State.DecSound.dec {s : State} (h : s.DecSound) (hv : s.dec.valid = true) : s.dec.Sound s.par := by
  unfold State.DecSound at h
  rw [if_pos hv] at h
  obtain ⟨hg, hrise, hcount, hentries⟩ := h
  exact ⟨hg, hrise, hcount, fun e he => (hentries e he).2⟩

theorem Dec.Sound.nh_lt {p : Params} {x : Dec} (hx : x.Sound p) (hp : p.wf = true) : x.nh < 2 ^ 32 := by
  obtain ⟨-, -, -, -, -, -, hmaxH, -⟩ := geometry_ok hx.geometry
  simp only at hmaxH
  simp only [Params.wf, Bool.and_eq_true, decide_eq_true_eq] at hp
  omega

/-! ## DECPUSH -/

section
variable {s : State}

theorem exec_decpush_of_invalid (hv : s.dec.valid = false) : exec .decpush s = .next (s.failed 10) := by
  simp only [exec, execDecpush, hv, if_true]; rfl

section
variable (hv : s.dec.valid = true)
include hv

theorem exec_decpush_of_length_ne (hn : s.larg2.toNat ≠ s.dec.bsize) : exec .decpush s = .next (s.failed 1) := by
  simp only [exec, execDecpush, hv, if_pos hn, Bool.true_eq_false, if_false]; rfl

variable (hn : s.larg2.toNat = s.dec.bsize)
include hn

theorem exec_decpush_of_not_inRange (hr : ¬ s.inRange s.larg1.toNat s.larg2.toNat) :
    exec .decpush s = .next (s.failed 11) := by
  simp only [exec, execDecpush, hv, if_neg (not_not.2 hn), State.outOfRange_of_not_inRange hr, Bool.true_eq_false,
    if_false, if_true]
  rfl

variable (hr : s.inRange s.larg1.toNat s.larg2.toNat)
include hr

theorem exec_decpush_of_full (h : s.larg0.toNat ∉ s.dec.indices ∧ s.dec.s.length = s.par.maxB) :
    exec .decpush s = .next (s.failed 8) := by
  simp only [exec, execDecpush, hv, if_neg (not_not.2 hn), State.outOfRange_of_inRange hr, if_pos h, Bool.true_eq_false,
    Bool.false_eq_true, if_false]
  rfl

theorem exec_decpush_of_room (h : ¬ (s.larg0.toNat ∉ s.dec.indices ∧ s.dec.s.length = s.par.maxB)) :
    exec .decpush s = .next { s.completed with
      dec := { s.dec with s := storePut s.larg0.toNat (s.memRead s.larg1.toNat s.larg2.toNat) s.dec.s }
      res0 := countWord (storePut s.larg0.toNat (s.memRead s.larg1.toNat s.larg2.toNat) s.dec.s).length } := by
  simp only [exec, execDecpush, hv, if_neg (not_not.2 hn), State.outOfRange_of_inRange hr, if_neg h, Bool.true_eq_false,
    Bool.false_eq_true, if_false]
  rfl

end
end

/-! ## The moduli of a store -/

/-- Lookups within reach find the moduli of their indices. -/
theorem coprimesAt_of_isModulus {cpMax : Nat} {is ms : List Nat}
    (h : List.Forall₂ (fun i m => IsModulus i m ∧ i < cpMax) is ms) :
    ∀ {cp : List Nat}, CacheSound cp → cp.length ≤ cpMax → ∃ cp', coprimesAt cpMax cp is = (cp', .ok ms) := by
  induction h with
  | nil => intro cp _ _; exact ⟨cp, rfl⟩
  | cons hm _ ih =>
    intro cp hs hlen
    obtain ⟨cp₁, hx, -⟩ := coprimeAt_of_isModulus hs hlen hm.1 hm.2
    have hg := CacheGrown.of_coprimeAt hx
    obtain ⟨cp₂, hx'⟩ := ih (hg.sound hs) (hg.within hlen)
    exact ⟨cp₂, by simp only [coprimesAt, hx, hx']⟩

section
variable {s : State} {ms : List Nat}

/-- What DECDONE and DECREC find on a sound cache: the moduli of the store, and the cache grown to its greatest index. -/
theorem State.storeModuli.lookup (h : s.storeModuli ms) (hs : s.CacheSound) :
    ∃ cp', coprimesAt s.par.cpMax s.cp s.dec.indices = (cp', .ok ms) ∧ s.cacheGrownTo (depth s.dec.indices) cp' := by
  obtain ⟨cp', hx⟩ := coprimesAt_of_isModulus h hs.1 hs.2
  have hg := CacheGrown.of_coprimesAt hx
  exact ⟨cp', hx, hg.isPrefix, hg.sound hs.1, coprimesAt_ok s.par.cpMax hx⟩

theorem State.storeModuli.length_eq (h : s.storeModuli ms) : ms.length = s.dec.s.length := by
  rw [← List.Forall₂.length_eq h, Dec.indices, List.length_map]

theorem State.storeModuli.isModulus (h : s.storeModuli ms) {k : Nat} (hk : k < s.dec.s.length) :
    IsModulus s.dec.s[k].1 (ms[k]'(h.length_eq ▸ hk)) := by
  have hget := (List.Forall₂.get h (i := k) (by simpa [Dec.indices] using hk) (h.length_eq ▸ hk)).1
  simpa [Dec.indices] using hget

theorem State.storeModuli.range (h : s.storeModuli ms) : ∀ m ∈ ms, 1 ≤ m ∧ m ≤ 65535 := by
  intro m hm
  obtain ⟨k, hk, rfl⟩ := List.getElem_of_mem hm
  exact (h.isModulus (h.length_eq ▸ hk)).range

theorem State.storeModuli.pairwise_coprime (h : s.storeModuli ms) (hrise : s.dec.s.Pairwise (fun e f => e.1 < f.1)) :
    ms.Pairwise Nat.Coprime := by
  rw [List.pairwise_iff_getElem] at hrise ⊢
  intro i j hi hj hij
  rw [h.length_eq] at hi hj
  exact ((h.isModulus hi).coprime_and_lt (hrise i j hi hj hij) (h.isModulus hj)).1

end

/-- The product of moduli is below that many factors 65536 (44_codec.md R203, R204). -/
theorem prod_moduli_le {ms : List Nat} (h : ∀ m ∈ ms, 1 ≤ m ∧ m ≤ 65535) : ms.prod ≤ 65536 ^ ms.length :=
  List.prod_le_pow_card ms 65536 fun m hm => (h m hm).2.trans (by norm_num)

/-- The base of a store's moduli is within capacity, by the constraint `32*MAXW >= 16*MAXB` (44_codec.md R204). -/
theorem fits_prod_moduli {p : Params} (hp : p.wf = true) {ms : List Nat} (h : ∀ m ∈ ms, 1 ≤ m ∧ m ≤ 65535)
    (hlen : ms.length ≤ p.maxB) : fits p (ms.prod : Nat) = true := by
  rw [fits_iff]
  intro w hw
  simp only [Params.wf, hw, Bool.and_eq_true, decide_eq_true_eq] at hp
  obtain ⟨⟨⟨⟨⟨⟨-, hcap⟩, -⟩, hmaxB⟩, -⟩, -⟩, -⟩ := hp
  rw [Int.natAbs_natCast]
  calc ms.prod ≤ 65535 ^ ms.length := List.prod_le_pow_card ms 65535 fun m hm => (h m hm).2
    _ ≤ 65535 ^ p.maxB := Nat.pow_le_pow_right (by norm_num) hlen
    _ < 65536 ^ p.maxB := Nat.pow_lt_pow_left (by norm_num) (by omega)
    _ = 2 ^ (16 * p.maxB) := by rw [pow_mul]; norm_num
    _ ≤ 2 ^ (32 * w) := Nat.pow_le_pow_right (by norm_num) hcap

/-! ## DECDONE and the outcomes of DECREC -/

theorem Dec.completeWith_eq (x : Dec) (ms : List Nat) : x.completeWith ms = decide (65536 ^ x.minb < ms.prod) := by
  rw [Dec.completeWith, product_eq_prod]

/-- `s` after a DECREC that found the cache `cp'`, the bytes `out` and `retries` retries (44_codec.md R198). -/
def State.reconstructed (s : State) (cp' : List Nat) (out : List Byte) (retries : Nat) : State :=
  { s.completed with
    cp := cp'
    mem := (s.memWrite s.larg0.toNat out).mem
    res0 := countWord s.dec.len
    res1 := countWord retries }

theorem State.inRange.length_lt {s : State} {a n : Nat} (hr : s.inRange a n) (hp : s.par.wf = true) : n < 2 ^ 32 := by
  simp only [Params.wf, Bool.and_eq_true, decide_eq_true_eq] at hp
  unfold State.inRange at hr
  omega

/-- The counts of an accepted geometry are exact in their 32-bit registers (00_scope.md R8). -/
theorem State.reconstructed_eq {s : State} (hlen : s.dec.len < 2 ^ 32) (cp' : List Nat) (out : List Byte) {retries : Nat}
    (hretries : retries < 2 ^ 32) :
    s.reconstructed cp' out retries = { s.completed with
      cp := cp'
      mem := (s.reconstructed cp' out retries).mem
      res0 := BitVec.ofNat 32 s.dec.len
      res1 := BitVec.ofNat 32 retries } := by
  rw [State.reconstructed, countWord_of_lt hlen, countWord_of_lt hretries]

theorem State.reconstructed_byteAt (s : State) (cp' : List Nat) (out : List Byte) (retries : Nat) {j : Nat}
    (hj : j < out.length) : (s.reconstructed cp' out retries).byteAt (s.larg0.toNat + j) = out.getD j 0 := by
  rw [State.byteAt_congr (s := s.reconstructed cp' out retries) (t := s.memWrite s.larg0.toNat out) rfl rfl,
    State.byteAt_memWrite, if_pos (by omega), Nat.add_sub_cancel_left]

theorem State.reconstructed_memRead (s : State) (cp' : List Nat) (out : List Byte) (retries : Nat) :
    (s.reconstructed cp' out retries).memRead s.larg0.toNat out.length = out :=
  (State.memRead_congr_mem (s := s.reconstructed cp' out retries) rfl rfl _ _).trans (State.memRead_memWrite s _ out)

section
variable {s : State} {cp' ms : List Nat}

theorem exec_decdone_of_invalid (hv : s.dec.valid = false) : exec .decdone s = .next (s.failed 10) := by
  simp only [exec, execDecdone, hv, if_true]; rfl

theorem exec_decdone_of_ok (hv : s.dec.valid = true) (h : coprimesAt s.par.cpMax s.cp s.dec.indices = (cp', .ok ms)) :
    exec .decdone s = .next { s.completed with
      cp := cp'
      flags := ⟨s.flags.lt, s.flags.eq, s.flags.gt, s.dec.completeWith ms⟩
      res0 := if s.dec.completeWith ms then 1 else 0 } := by
  simp only [exec, execDecdone, hv, h, Bool.true_eq_false, if_false]; rfl

theorem exec_decrec_of_invalid (hv : s.dec.valid = false) : exec .decrec s = .next (s.failed 10) := by
  simp only [exec, execDecrec, hv, if_true]; rfl

section
variable (hv : s.dec.valid = true)
include hv

theorem exec_decrec_of_not_inRange (hr : ¬ s.inRange s.larg0.toNat s.dec.len) : exec .decrec s = .next (s.failed 11) := by
  simp only [exec, execDecrec, hv, State.outOfRange_of_not_inRange hr, Bool.true_eq_false, if_false, if_true]; rfl

variable (hr : s.inRange s.larg0.toNat s.dec.len) (h : coprimesAt s.par.cpMax s.cp s.dec.indices = (cp', .ok ms))
include hr h

theorem exec_decrec_of_incomplete (hprod : ms.prod ≤ 65536 ^ s.dec.minb) :
    exec .decrec s = .next (State.failed { s with cp := cp' } 9) := by
  have hc : s.dec.completeWith ms = false := (s.dec.completeWith_eq ms).trans (decide_eq_false (not_lt.2 hprod))
  simp only [exec, execDecrec, hv, State.outOfRange_of_inRange hr, h, hc, Bool.true_eq_false, Bool.false_eq_true, if_false,
    if_true]
  rfl

variable (hprod : 65536 ^ s.dec.minb < ms.prod)
include hprod

theorem exec_decrec_of_recover_error {e : CoreErr} (hx : recover s.par s.dec ms = .error e) :
    exec .decrec s = .next (State.failed { s with cp := cp' } e.code) := by
  have hc : s.dec.completeWith ms = true := (s.dec.completeWith_eq ms).trans (decide_eq_true hprod)
  simp only [exec, execDecrec, hv, State.outOfRange_of_inRange hr, h, hc, hx, Bool.true_eq_false, Bool.false_eq_true,
    if_false]
  rfl

theorem exec_decrec_of_recover_ok {out : List Byte} {retries : Nat} (hx : recover s.par s.dec ms = .ok (out, retries)) :
    exec .decrec s = .next (s.reconstructed cp' out retries) := by
  have hc : s.dec.completeWith ms = true := (s.dec.completeWith_eq ms).trans (decide_eq_true hprod)
  simp only [exec, execDecrec, hv, State.outOfRange_of_inRange hr, h, hc, hx, Bool.true_eq_false, Bool.false_eq_true,
    if_false]
  rfl

end
end

/-! ## Slices and their combination -/

theorem sliceOf_eq {bytes : List Byte} {h : Nat} (hlen : 2 * h + 1 < bytes.length) :
    sliceOf bytes h = fromBE ((bytes.drop (2 * h)).take 2) := by
  have htwo : (bytes.drop (2 * h)).take 2 = [bytes[2 * h], bytes[2 * h + 1]] := by
    rw [List.drop_eq_getElem_cons (by omega), List.drop_eq_getElem_cons hlen]; rfl
  rw [htwo, sliceOf, List.getD_eq_getElem _ 0 (by omega), List.getD_eq_getElem _ 0 hlen]
  simp [fromBE]

theorem Dec.slicesAt_eq {x : Dec} {h : Nat} (hlen : ∀ e ∈ x.s, 2 * h + 1 < e.2.length) :
    x.slicesAt h = (x.s.map Prod.snd).map (sliceOf · h) := by
  rw [Dec.slicesAt, List.map_map]
  exact List.map_congr_left fun e he => (sliceOf_eq (hlen e he)).symm

theorem Enc.sliceOf_bundle (e : Enc) {h m : Nat} (hh : h < e.bsize / 2) (hm : 1 ≤ m ∧ m ≤ 65535) :
    sliceOf (e.bundle m) h = e.h.getD h 0 % m := by
  rw [sliceOf_eq (by rw [e.bundle_length]; omega), e.fromBE_bundle_run hh hm]

section
variable {bundles : List (List Byte)} {ms : List Nat} {nh : Nat} {x : Nat → Nat}

/-- The values of `CombinesTo` are what `combine` answers: it has one solution below the base (43_crt.md R162). -/
theorem CombinesTo.combine_eq {p : Params} {ws : List Nat} {base : Nat} (hx : CombinesTo bundles ms nh x)
    (hc : coefficients p ms = .ok (ws, base)) (hlen : bundles.length = ms.length) {h : Nat} (hh : h < nh) :
    combine (bundles.map (sliceOf · h)) ws base ms.length = .ok (x h) := by
  obtain ⟨-, -, rfl, -⟩ := (coefficients_ok_iff p ms ws base).1 hc
  obtain ⟨r, hr, hlt, hagree⟩ := combine_spec hc (ps := bundles.map (sliceOf · h)) (by simpa using hlen)
  obtain ⟨hxlt, hxagree⟩ := hx h hh
  rw [hr, eq_of_modEq_moduli hc hxlt hlt fun k hk => ?_]
  have hslice : (bundles.map (sliceOf · h)).getD k 0 = sliceOf (bundles.getD k []) h := by
    simp only [List.getD_eq_getElem?_getD, List.getElem?_map, List.getElem?_eq_getElem (hlen.symm ▸ hk), Option.map_some,
      Option.getD_some]
  have hxk := hxagree k hk
  rw [List.getD_eq_getElem ms 0 hk] at hxk
  exact (hagree k hk).trans (hslice ▸ hxk.symm)

/-- Values that agree with every bundle agree, reduced, with all bundles but the last. -/
theorem CombinesTo.dropLast (hx : CombinesTo bundles ms nh x) (hlen : bundles.length = ms.length)
    (hpos : 0 < ms.dropLast.prod) :
    CombinesTo bundles.dropLast ms.dropLast nh (fun h => x h % ms.dropLast.prod) := by
  intro h hh
  refine ⟨Nat.mod_lt _ hpos, fun k hk => ?_⟩
  have hk' : k < ms.length - 1 := by simpa using hk
  have hms : ms.dropLast.getD k 0 = ms.getD k 0 := by
    simp only [List.getD_eq_getElem?_getD, List.getElem?_dropLast, if_pos hk']
  have hbundle : bundles.dropLast.getD k [] = bundles.getD k [] := by
    simp only [List.getD_eq_getElem?_getD, List.getElem?_dropLast, hlen, if_pos hk']
  have hdvd : ms.dropLast.getD k 0 ∣ ms.dropLast.prod := by
    rw [List.getD_eq_getElem _ 0 hk]; exact List.dvd_prod (List.getElem_mem hk)
  have hagree := (hx h hh).2 k (by omega)
  rw [← hms, ← hbundle] at hagree
  exact ((Nat.mod_modEq _ _).of_dvd hdvd).trans hagree

end

/-! ## Recovery -/

/-- The value exported for hunk `h`: the combination of all bundles where it fits, else that of all but the last
(44_codec.md R197). -/
def hunkValue (hsize : Nat) (x x2 : Nat → Nat) (h : Nat) : Nat := if minlen (x h) ≤ hsize then x h else x2 h

theorem hunkValue_of_le {hsize h : Nat} {x : Nat → Nat} (x2 : Nat → Nat) (hfit : minlen (x h) ≤ hsize) :
    hunkValue hsize x x2 h = x h := if_pos hfit

section
variable {x : Dec} {full sub : List Nat × Nat}

section
variable {v v2 : Nat → Nat} {h : Nat} (hv : combine (x.slicesAt h) full.1 full.2 x.s.length = .ok (v h))
  (hv2 : combine (x.slicesAt h).dropLast sub.1 sub.2 (x.s.length - 1) = .ok (v2 h))
include hv hv2

/-- A hunk whose value fits the hunk size, or whose retry needs exactly the hunk size, is exported. -/
theorem recoverHunk_of_fits (hfit : minlen (v h) ≤ x.hsize ∨ minlen (v2 h) = x.hsize) :
    recoverHunk x full sub h = .ok (toBE (hunkValue x.hsize v v2 h) x.hsize, decide (x.hsize < minlen (v h))) := by
  simp only [recoverHunk, Dec.slicesAt_length, hv, hv2, hunkValue]
  by_cases hshort : minlen (v h) ≤ x.hsize
  · simp only [if_pos hshort, decide_eq_false (not_lt.2 hshort)]
  · simp only [if_neg hshort, if_neg (not_not.2 (hfit.resolve_left hshort)), decide_eq_true (not_le.1 hshort)]

theorem recoverHunk_of_not_fits (hlong : x.hsize < minlen (v h)) (hretry : minlen (v2 h) ≠ x.hsize) :
    recoverHunk x full sub h = .error .reconstructionFailed := by
  simp only [recoverHunk, Dec.slicesAt_length, hv, hv2, if_neg (not_le.2 hlong), if_pos hretry]

end

/-- The loop joins the hunks' bytes and counts those that took the retry. -/
theorem recoverHunks_of_ok {b : Nat → List Byte} {retried : Nat → Bool} : ∀ {hs : List Nat},
    (∀ h ∈ hs, recoverHunk x full sub h = .ok (b h, retried h)) →
    recoverHunks x full sub hs = .ok (hs.flatMap b, (hs.filter retried).length)
  | [], _ => rfl
  | h :: hs, hok => by
    obtain ⟨hh, hhs⟩ := List.forall_mem_cons.1 hok
    simp only [recoverHunks, hh, recoverHunks_of_ok hhs, List.flatMap_cons, List.filter_cons]
    cases retried h
    · simp
    · simp [Nat.add_comm]

/-- One hunk that fails fails the loop: the hunks before it can only fail in the same way. -/
theorem recoverHunks_of_failed : ∀ {hs : List Nat},
    (∃ h ∈ hs, recoverHunk x full sub h = .error .reconstructionFailed) →
    recoverHunks x full sub hs = .error .reconstructionFailed
  | [], hf => by simp at hf
  | k :: hs, hf => by
    rcases recoverHunk_cases (x := x) (full := full) (sub := sub) (h := k) rfl with ⟨bytes, retried, hk, -⟩ | hk
    · have htail : ∃ h ∈ hs, recoverHunk x full sub h = .error .reconstructionFailed := by
        simpa [hk] using hf
      simp only [recoverHunks, hk, recoverHunks_of_failed htail]
    · simp only [recoverHunks, hk]

end

/-- A byte of numbers joined at one width is a digit of the entry it belongs to. -/
theorem flatMap_toBE_getD {l : List Nat} {n j : Nat} (hj : j < l.length * n) :
    ((l.flatMap (toBE · n)).getD j 0).toNat = l.getD (j / n) 0 / 256 ^ (n - 1 - j % n) % 256 := by
  have hn : 0 < n := Nat.pos_of_mul_pos_left (Nat.zero_lt_of_lt hj)
  have hdiv : j / n < l.length := (Nat.div_lt_iff_lt_mul hn).2 hj
  have hmod : j % n < n := Nat.mod_lt j hn
  have hrun : (l.flatMap (toBE · n)).getD j 0 = (toBE l[j / n] n).getD (j % n) 0 := by
    rw [← flatMap_toBE_run n l (j / n) hdiv]
    simp only [List.getD_eq_getElem?_getD, List.getElem?_take_of_lt hmod, List.getElem?_drop, Nat.div_add_mod]
  rw [hrun, List.getD_eq_getElem _ 0 (by simpa using hmod), toBE_getElem, List.getD_eq_getElem _ 0 hdiv]

/-- What `recover` gives back of the values `v` of the hunks: their bytes joined and cut to the declared length. -/
def Dec.exported (x : Dec) (v : Nat → Nat) : List Byte :=
  (((List.range x.nh).map v).flatMap (toBE · x.hsize)).take x.len

section
variable {p : Params} {x : Dec} {ms : List Nat} {v v2 : Nat → Nat}

theorem Dec.Sound.exported_length (hx : x.Sound p) (v : Nat → Nat) : (x.exported v).length = x.len := by
  obtain ⟨-, -, -, -, -, -, -, -, -, hplen, hfit, -⟩ := geometry_ok hx.geometry
  simp only at hplen hfit
  rw [Dec.exported, List.length_take, flatMap_toBE_length, List.length_map, List.length_range, ← hplen, min_eq_left hfit]

/-- Byte `j` of the recovered data is a digit of the hunk it lies in. -/
theorem Dec.Sound.exported_getD (hx : x.Sound p) (v : Nat → Nat) {j : Nat} (hj : j < x.len) :
    ((x.exported v).getD j 0).toNat = v (j / x.hsize) / 256 ^ (x.hsize - 1 - j % x.hsize) % 256 := by
  obtain ⟨-, -, -, hminb, -, -, -, hhsize, -, hplen, hfit, -⟩ := geometry_ok hx.geometry
  simp only at hplen hfit hhsize hminb
  have hj' : j < x.nh * x.hsize := by omega
  have hdiv : j / x.hsize < x.nh := (Nat.div_lt_iff_lt_mul (by omega)).2 hj'
  have hhunk : ((List.range x.nh).map v).getD (j / x.hsize) 0 = v (j / x.hsize) := by
    rw [List.getD_eq_getElem _ 0 (by simpa using hdiv)]; simp
  rw [Dec.exported, List.getD_eq_getElem?_getD, List.getElem?_take_of_lt hj, ← List.getD_eq_getElem?_getD,
    flatMap_toBE_getD (by simpa using hj'), hhunk]

theorem Dec.exported_congr {w : Nat → Nat} (h : ∀ k < x.nh, v k = w k) : x.exported v = x.exported w := by
  rw [Dec.exported, Dec.exported, List.map_congr_left fun k hk => h k (List.mem_range.1 hk)]

/-- The hunks of a buffer of the declared length join to the buffer (44_codec.md R189, R199). -/
theorem Dec.Sound.exported_hunks (hx : x.Sound p) {data : List Byte} (hdata : data.length = x.len) :
    x.exported (fun h => (hunks data x.geom).getD h 0) = data := by
  obtain ⟨-, -, -, -, -, -, -, -, -, hplen, hfit, -⟩ := geometry_ok hx.geometry
  have hvalues : (List.range x.nh).map (fun h => (hunks data x.geom).getD h 0) = hunks data x.geom := by
    refine List.ext_getElem (by simp) fun k _ hk => ?_
    rw [List.getElem_map, List.getElem_range, List.getD_eq_getElem _ 0 hk]
  rw [Dec.exported, hvalues, flatMap_toBE_hunks (hdata.trans_le hfit) hplen, ← hdata, padded_take]

theorem Dec.Sound.slicesAt_eq (hx : x.Sound p) {h : Nat} (hh : h < x.nh) :
    x.slicesAt h = (x.s.map Prod.snd).map (sliceOf · h) := by
  obtain ⟨-, -, -, -, -, hnh, -⟩ := geometry_ok hx.geometry
  refine Dec.slicesAt_eq fun e he => ?_
  rw [hx.size e he]
  simp only at hnh
  omega

section
variable (hx : x.Sound p) (hp : p.wf = true) (hlen : ms.length = x.s.length)
  (hrange : ∀ m ∈ ms, 1 ≤ m ∧ m ≤ 65535) (hco : ms.Pairwise Nat.Coprime)
include hx hp hlen hrange hco

/-- Both coefficient sets of R197 exist: NotInvertible and CapacityExceeded cannot arise (44_codec.md R204). -/
theorem exists_coefficients :
    (∃ ws, coefficients p ms = .ok (ws, ms.prod)) ∧ ∃ ws, coefficients p ms.dropLast = .ok (ws, ms.dropLast.prod) := by
  have hset : ∀ l : List Nat, l.Sublist ms → ∃ ws, coefficients p l = .ok (ws, l.prod) := by
    intro l hl
    have hlrange : ∀ m ∈ l, 1 ≤ m ∧ m ≤ 65535 := fun m hm => hrange m (hl.mem hm)
    have hfit := fits_prod_moduli hp hlrange (hl.length_le.trans (hlen.trans_le hx.count))
    exact coefficients_of_coprime (fun m hm => Nat.one_le_iff_ne_zero.1 (hlrange m hm).1) hfit (hco.sublist hl)
  exact ⟨hset ms (.refl ms), hset ms.dropLast (List.dropLast_sublist ms)⟩

variable (hv : CombinesTo (x.s.map Prod.snd) ms x.nh v)
include hv

section
variable (hv2 : CombinesTo (x.s.map Prod.snd).dropLast ms.dropLast x.nh v2)
include hv2

/-- `recover` runs the hunk loop, in which hunk `h` combines to `v h`, and to `v2 h` on the retry. -/
theorem recover_eq_of_combinesTo :
    ∃ full sub, recover p x ms = (recoverHunks x full sub (List.range x.nh)).map (fun r => (r.1.take x.len, r.2))
      ∧ ∀ h < x.nh, combine (x.slicesAt h) full.1 full.2 x.s.length = .ok (v h)
        ∧ combine (x.slicesAt h).dropLast sub.1 sub.2 (x.s.length - 1) = .ok (v2 h) := by
  obtain ⟨⟨ws, hc⟩, ws2, hc2⟩ := exists_coefficients hx hp hlen hrange hco
  refine ⟨(ws, ms.prod), (ws2, ms.dropLast.prod), ?_, fun h hh => ⟨?_, ?_⟩⟩
  · simp only [recover, hc, hc2]
    cases recoverHunks x (ws, ms.prod) (ws2, ms.dropLast.prod) (List.range x.nh) <;> rfl
  · rw [hx.slicesAt_eq hh, ← hlen]
    exact hv.combine_eq hc (by simpa using hlen.symm) hh
  · have hcombine := hv2.combine_eq hc2 (by simp [hlen]) hh
    rwa [List.map_dropLast, List.length_dropLast, hlen, ← hx.slicesAt_eq hh] at hcombine

theorem recover_of_combinesTo (h : ∀ h < x.nh, minlen (v h) ≤ x.hsize ∨ minlen (v2 h) = x.hsize) :
    recover p x ms = .ok (x.exported (hunkValue x.hsize v v2),
      ((List.range x.nh).filter fun h => decide (x.hsize < minlen (v h))).length) := by
  obtain ⟨full, sub, hrec, hcombine⟩ := recover_eq_of_combinesTo hx hp hlen hrange hco hv hv2
  rw [hrec, recoverHunks_of_ok fun k hk => ?_, Dec.exported, List.flatMap_map]
  · rfl
  · have hk := List.mem_range.1 hk
    obtain ⟨hfull, hsub⟩ := hcombine k hk
    exact recoverHunk_of_fits hfull hsub (h k hk)

theorem recover_failed_of_combinesTo (h : ∃ h < x.nh, x.hsize < minlen (v h) ∧ minlen (v2 h) ≠ x.hsize) :
    recover p x ms = .error .reconstructionFailed := by
  obtain ⟨full, sub, hrec, hcombine⟩ := recover_eq_of_combinesTo hx hp hlen hrange hco hv hv2
  obtain ⟨k, hk, hlong, hretry⟩ := h
  obtain ⟨hfull, hsub⟩ := hcombine k hk
  rw [hrec, recoverHunks_of_failed ⟨k, List.mem_range.2 hk, recoverHunk_of_not_fits hfull hsub hlong hretry⟩]
  rfl

end

/-- Where every combined value fits the hunk size, those values are recovered and no hunk takes the retry (44_codec.md
R199). -/
theorem recover_of_short (hshort : ∀ h < x.nh, minlen (v h) ≤ x.hsize) :
    recover p x ms = .ok (x.exported v, 0) := by
  have hpos : 0 < ms.dropLast.prod := List.prod_pos fun m hm => (hrange m (List.mem_of_mem_dropLast hm)).1
  have hv2 := hv.dropLast (by simpa using hlen.symm) hpos
  have hnone : ((List.range x.nh).filter fun h => decide (x.hsize < minlen (v h))) = [] :=
    List.filter_eq_nil_iff.2 fun h hh => by simpa using hshort h (List.mem_range.1 hh)
  rw [recover_of_combinesTo hx hp hlen hrange hco hv hv2 fun h hh => .inl (hshort h hh),
    Dec.exported_congr fun h hh => hunkValue_of_le _ (hshort h hh), hnone, List.length_nil]

end
end

/-! ## Consistent bundles -/

section
variable {s : State} {ms : List Nat} {data : List Byte}

/-- Bundles that ENCGEN wrote combine to the hunks they were made of (44_codec.md R199). -/
theorem State.BundlesConsistent.combinesTo (hcons : s.BundlesConsistent) (hms : s.storeModuli ms) {nh : Nat}
    (hnh : nh = s.enc.bsize / 2) (hlt : ∀ h < nh, s.enc.h.getD h 0 < ms.prod) :
    CombinesTo (s.dec.s.map Prod.snd) ms nh (fun h => s.enc.h.getD h 0) := by
  intro h hh
  refine ⟨hlt h hh, fun k hk => ?_⟩
  have hk' : k < s.dec.s.length := hms.length_eq ▸ hk
  obtain ⟨m, hm, -, hbundle⟩ := hcons s.dec.s[k] (List.getElem_mem hk')
  obtain rfl : m = ms[k] := hm.unique (hms.isModulus hk')
  have hslice : (s.dec.s.map Prod.snd).getD k [] = s.enc.bundle ms[k] := by
    rw [List.getD_eq_getElem _ [] (by simpa using hk'), List.getElem_map, hbundle]
  rw [hslice, s.enc.sliceOf_bundle (hnh ▸ hh) hm.range, List.getD_eq_getElem ms 0 hk]
  exact (Nat.mod_modEq _ _).symm

/-- A complete store of consistent bundles recovers the encoder's buffer without a retry (44_codec.md R199). -/
theorem recover_of_consistent (hx : s.dec.Sound s.par) (hp : s.par.wf = true) (hcons : s.BundlesConsistent)
    (hms : s.storeModuli ms) (hprod : 65536 ^ s.dec.minb < ms.prod) (hbsize : s.enc.bsize = s.dec.bsize)
    (hhunks : s.enc.h = hunks data s.dec.geom) (hdata : data.length = s.dec.len) :
    recover s.par s.dec ms = .ok (data, 0) := by
  obtain ⟨-, -, -, -, -, hnh, -⟩ := geometry_ok hx.geometry
  have hpow := geometry_pow hx.geometry
  have hlt : ∀ h < s.dec.nh, s.enc.h.getD h 0 < 256 ^ s.dec.hsize := by
    intro h hh
    rw [hhunks, List.getD_eq_getElem _ 0 (by simpa using hh)]
    exact hunks_lt (List.getElem_mem _)
  have hv := hcons.combinesTo hms (hnh.trans (by rw [hbsize])) fun h hh => (hlt h hh).trans (hpow.trans_lt hprod)
  have hshort : ∀ h < s.dec.nh, minlen (s.enc.h.getD h 0 : Nat) ≤ s.dec.hsize := fun h hh =>
    (minlen_le_iff _ _).2 (by simpa using hlt h hh)
  rw [recover_of_short hx hp hms.length_eq hms.range (hms.pairwise_coprime hx.rising) hv hshort, hhunks,
    hx.exported_hunks hdata]

end

/-! ## The moduli after a push -/

/-- A push keeps the moduli of the store, or adds that of its index (44_codec.md R202). -/
theorem exists_moduli_storePut {cpMax idx m : Nat} (hm : IsModulus idx m) (hidx : idx < cpMax) (bytes : List Byte)
    {store : List (Nat × List Byte)} {ms : List Nat}
    (h : List.Forall₂ (fun i m => IsModulus i m ∧ i < cpMax) (store.map Prod.fst) ms) :
    ∃ ms', List.Forall₂ (fun i m => IsModulus i m ∧ i < cpMax) ((storePut idx bytes store).map Prod.fst) ms'
      ∧ ms.prod ≤ ms'.prod := by
  rcases perm_indices_storePut idx bytes store with hsame | hperm
  · exact ⟨ms, hsame ▸ h, le_rfl⟩
  · obtain ⟨ms', hms', hperm'⟩ := List.perm_comp_forall₂ hperm (.cons ⟨hm, hidx⟩ h)
    refine ⟨ms', hms', ?_⟩
    rw [hperm'.prod_eq, List.prod_cons]
    exact Nat.le_mul_of_pos_left _ hm.range.1

/-! ## The statements -/

/-- Settles O32: the checks exclude one another, and an accepted geometry has the identities of R188. -/
theorem geometryResult : Obligations.GeometryResult := by
  unfold Obligations.GeometryResult
  intro p l sz
  refine ⟨fun h => geometry_of_invalid (by tauto), fun hsz heven => ⟨fun h0 => geometry_of_invalid (by tauto),
    fun hl hlarge => ?_, fun hl hle hH => ?_, fun hl hle hH => ?_⟩⟩
  · exact geometry_of_large hsz heven hl rfl ((hundred_lt_minBundles_iff hsz).2 hlarge)
  · exact geometry_of_manyHunks hsz heven hl rfl ((minBundles_le_hundred_iff hsz).2 hle) hH
  · have hg := geometry_of_accepted hsz heven hl rfl ((minBundles_le_hundred_iff hsz).2 hle) hH
    obtain ⟨-, -, -, hpos, hmax, hnh, -, hhsize, hplen, hplen', hfit, hpad⟩ := geometry_ok hg
    exact ⟨_, hg, hfit, hpad, hplen, hpos, hmax, hhsize, hnh, hplen'⟩

/-- Settles O33: ENCINIT reports the error of `geometry` or of its range, or imports the hunks of its buffer. -/
theorem encoderInitResult : Obligations.EncoderInitResult := by
  unfold Obligations.EncoderInitResult
  rintro s a l sz mb rfl rfl rfl hmb
  refine ⟨decode_encode .encinit, fun h => exec_encinit_of_error (geometry_of_invalid h), fun hsz heven hl =>
    ⟨fun h => ?_, fun h hH => ?_, fun h hH hr => ?_, fun h hH hr => ?_⟩⟩
  · exact exec_encinit_of_error (geometry_of_large hsz heven hl hmb h)
  · exact exec_encinit_of_error (geometry_of_manyHunks hsz heven hl hmb h hH)
  · exact exec_encinit_of_not_inRange (geometry_of_accepted hsz heven hl hmb h hH) hr
  · have hg := geometry_of_accepted hsz heven hl hmb h hH
    obtain ⟨-, -, -, -, -, -, -, -, -, hplen, hfit, -⟩ := geometry_ok hg
    refine ⟨hunks (s.memRead s.larg0.toNat s.larg1.toNat) ⟨mb * s.larg2.toNat, mb, 2 * mb, s.larg2.toNat / 2⟩,
      hunks_length _ _, fun i hi => ?_, ?_⟩
    · rw [hunks_getD (by simpa using hfit) hplen hi]
      simp only [State.memRead_getD_toNat]
    · have hnh : s.larg2.toNat / 2 < 2 ^ 32 := (Nat.div_le_self _ 2).trans_lt s.larg2.isLt
      have hminb : mb < 2 ^ 32 := h.trans_lt (by norm_num)
      rw [exec_encinit_of_ok hg hr, ← countWord_of_lt hnh, ← countWord_of_lt hminb]

/-- Settles O34: the lookup is the last check, and each run of two bytes that ENCGEN writes stands for one slice. -/
theorem encoderGenerateResult : Obligations.EncoderGenerateResult := by
  unfold Obligations.EncoderGenerateResult
  intro s
  refine ⟨decode_encode .encgen, exec_encgen_of_invalid, exec_encgen_of_not_inRange, fun hv hr hs m hm hi => ?_⟩
  obtain ⟨cp', hx, hprefix, hsound, -, hlen⟩ := coprimeAt_of_isModulus hs.1 hs.2 hm hi
  have hexec := exec_encgen_of_ok hv hr hx hm.range
  exact ⟨cp', _, ⟨hprefix, hsound, hlen⟩, hexec, rfl, fun i hi => State.generated_numberAt cp' hi hm.range,
    (exec_writes hexec).sameBytesOutside rfl⟩

/-- Settles O35: on a sound encoder ENCHUNK is one write of a hunk, which fits. -/
theorem hunkReadResult : Obligations.HunkReadResult := by
  unfold Obligations.HunkReadResult
  intro s d
  refine ⟨decode_encode (.enchunk d), exec_enchunk_of_invalid d, exec_enchunk_of_le d, fun hv hlt hs hp => ?_⟩
  have hbound := hs.hunk_lt hv hlt
  have hfit := fits_hunk hp (hs.geometry hv) hbound
  exact ⟨(exec_enchunk_of_lt d hv hlt).trans (State.finish_writeBig_of_fits hfit), hbound⟩

/-- Settles O36: DECINIT reports the error of `geometry`, or opens an empty store. -/
theorem decoderInitResult : Obligations.DecoderInitResult := by
  unfold Obligations.DecoderInitResult
  rintro s l sz mb rfl rfl hmb
  refine ⟨decode_encode .decinit, fun h => exec_decinit_of_error (geometry_of_invalid h), fun hsz heven hl =>
    ⟨fun h => ?_, fun h hH => ?_, fun h hH => ?_⟩⟩
  · exact exec_decinit_of_error (geometry_of_large hsz heven hl hmb h)
  · exact exec_decinit_of_error (geometry_of_manyHunks hsz heven hl hmb h hH)
  · exact exec_decinit_of_ok (geometry_of_accepted hsz heven hl hmb h hH)

/-- Settles O37: the store after a push is `storePut` of the copied bytes. -/
theorem bundlePushResult : Obligations.BundlePushResult := by
  unfold Obligations.BundlePushResult
  rintro s idx a n rfl rfl rfl
  refine ⟨decode_encode .decpush, exec_decpush_of_invalid, exec_decpush_of_length_ne, exec_decpush_of_not_inRange,
    fun hv hn hr hs => ⟨fun hnew hfull => exec_decpush_of_full hv hn hr ⟨hnew, hfull⟩, fun hroom => ?_⟩⟩
  have hrise := (hs.dec hv).rising
  have hnotfull : ¬ (s.larg0.toNat ∉ s.dec.indices ∧ s.dec.s.length = s.par.maxB) := by
    rintro ⟨hnew, hfull⟩
    exact (hroom.resolve_left hnew).ne hfull
  exact ⟨_, exec_decpush_of_room hv hn hr hnotfull, mem_storePut_iff hrise, pairwise_storePut _ _ hrise,
    storePut_length hrise⟩

/-- Settles O38: DECDONE finds the moduli of the store and compares their product. -/
theorem completenessResult : Obligations.CompletenessResult := by
  unfold Obligations.CompletenessResult
  intro s
  refine ⟨decode_encode .decdone, exec_decdone_of_invalid, fun hv hs ms hms => ?_⟩
  obtain ⟨cp', hx, hgrown⟩ := hms.lookup hs
  have hexec := exec_decdone_of_ok hv hx
  rw [s.dec.completeWith_eq] at hexec
  refine ⟨cp', hgrown, fun hlt => ?_, fun hle => ?_⟩
  · rw [hexec, decide_eq_true hlt]; rfl
  · rw [hexec, decide_eq_false (not_lt.2 hle)]; rfl

/-- Settles O40: `recover` chooses between the two combined values of each hunk, and DECREC stores what it answers. -/
theorem reconstructionResult : Obligations.ReconstructionResult := by
  unfold Obligations.ReconstructionResult
  rintro s d rfl
  refine ⟨decode_encode .decrec, exec_decrec_of_invalid, exec_decrec_of_not_inRange, fun hv hr hs ms hms => ?_⟩
  obtain ⟨cp', hlook, hgrown⟩ := hms.lookup hs
  refine ⟨cp', hgrown, exec_decrec_of_incomplete hv hr hlook, fun hprod hdec hp x x2 hx hx2 => ?_⟩
  have hsound := hdec.dec hv
  have hco := hms.pairwise_coprime hsound.rising
  refine ⟨fun hfail => ?_, fun hfit => ?_⟩
  · exact exec_decrec_of_recover_error hv hr hlook hprod
      (recover_failed_of_combinesTo hsound hp hms.length_eq hms.range hco hx hx2 hfail)
  · have hexec := exec_decrec_of_recover_ok hv hr hlook hprod
      (recover_of_combinesTo hsound hp hms.length_eq hms.range hco hx hx2 hfit)
    refine ⟨_, hexec, State.reconstructed_eq (hr.length_lt hp) cp' _ ?_, fun j hj => ?_,
      (exec_writes hexec).sameBytesOutside rfl⟩
    · exact (List.length_filter_le _ _).trans_lt (List.length_range.trans_lt (hsound.nh_lt hp))
    · rw [s.reconstructed_byteAt cp' _ _ ((hsound.exported_length _).symm ▸ hj), hsound.exported_getD _ hj, hunkValue]

/-- Settles O41: consistent bundles combine to the hunks of the encoder's buffer, which join to the buffer. -/
theorem reconstructionRoundTrip : Obligations.ReconstructionRoundTrip := by
  unfold Obligations.ReconstructionRoundTrip
  intro s₀ t₀ s ms hinit herr henc hv hlen hbsize hdec hs hp hcons hms hprod hr
  obtain ⟨cp', hlook, -⟩ := hms.lookup hs
  have hsound := hdec.dec hv
  obtain ⟨g, hg, henc₀⟩ := exec_encinit_enc hinit herr
  rw [← henc] at henc₀
  rw [← hlen, ← hbsize] at hg
  obtain rfl : g = s.dec.geom := geometry_ok_unique hg hsound.geometry
  have hdata : (s₀.memRead s₀.larg0.toNat s₀.larg1.toNat).length = s.dec.len := by
    rw [State.memRead_length, hlen]
  have hrec := recover_of_consistent hsound hp hcons hms hprod (by rw [henc₀, hbsize]) (by rw [henc₀]) hdata
  have hexec := exec_decrec_of_recover_ok hv hr hlook hprod hrec
  refine ⟨_, hexec, rfl, ?_, (exec_writes hexec).sameBytesOutside rfl, ?_, ?_, rfl, rfl⟩
  · rw [← hdata]; exact s.reconstructed_memRead cp' _ 0
  · exact (congrArg countWord hlen).trans (BitVec.eq_of_toNat_eq (countWord_toNat_of_le le_rfl))
  · exact countWord_of_lt (n := 0) (by norm_num)

/-- Settles O42: a push adds at most one modulus, which is at least 1, and each modulus is below 65536. -/
theorem completenessIsMonotone : Obligations.CompletenessIsMonotone := by
  unfold Obligations.CompletenessIsMonotone
  refine ⟨fun s t ms hms hprod ⟨m, hm⟩ hidx h => ?_, fun s ms hms hprod => ?_⟩
  · obtain ⟨bytes, -, -, -, rfl⟩ | ⟨e, -, rfl⟩ := exec_decpush_cases h
    · obtain ⟨ms', hms', hle⟩ := exists_moduli_storePut hm hidx bytes hms
      exact ⟨ms', hms', hprod.trans_le hle⟩
    · exact ⟨ms, hms, hprod⟩
  · have hpow := hprod.trans_le (prod_moduli_le hms.range)
    rw [hms.length_eq] at hpow
    exact (Nat.pow_lt_pow_iff_right (by norm_num)).1 hpow

end Sys2Proof.Machine
end

section
/-! # Errors and the idle block (60_exceptions.md)

An error is raised by one operation only, on the state as it was or with the cache grown, so a command that reports one
changed nothing else. Which errors a command reports is read off its equations: a value that fits is written, and on a
sound state a lookup or a recovery has few ways to fail. -/

namespace Sys2Proof.Machine

/-! ## A command that failed -/

/-- A command that reports an error raised it on the state it found, the cache apart (60_exceptions.md R223). Only the
commands that look moduli up can have grown the cache; each of the others is one completion of the state it found. -/
theorem exec_error_eq_raise {i : Instr} {s t : State} (h : exec i s = .next t) (herr : t.status.err = true) :
    ∃ cp e, t = (s.setCp cp).raise e := by
  cases i with
  | nop | cmp => cases h; cases herr
  | cpget d =>
    obtain ⟨cp', r, -, ⟨m, -, -, rfl⟩ | ⟨m, -, -, rfl⟩ | ⟨e, -, rfl⟩⟩ := exec_cpget_cases h
    · cases herr
    · exact ⟨cp', _, rfl⟩
    · exact ⟨cp', e, rfl⟩
  | encgen =>
    obtain ⟨-, rfl⟩ | rfl | ⟨cp', r, -, hr⟩ := exec_encgen_cases h
    · exact ⟨s.cp, _, rfl⟩
    · exact ⟨s.cp, _, rfl⟩
    · obtain ⟨m, l, -, -, -, -, -, rfl⟩ | ⟨m, -, -, rfl⟩ | ⟨e, -, rfl⟩ := hr
      · cases herr
      · exact ⟨cp', _, rfl⟩
      · exact ⟨cp', e, rfl⟩
  | decdone =>
    obtain ⟨-, rfl⟩ | ⟨cp', r, -, ⟨ms, -, rfl⟩ | ⟨e, -, rfl⟩⟩ := exec_decdone_cases h
    · exact ⟨s.cp, _, rfl⟩
    · cases herr
    · exact ⟨cp', e, rfl⟩
  | decrec =>
    obtain ⟨-, rfl⟩ | rfl | ⟨cp', r, -, hr⟩ := exec_decrec_cases h
    · exact ⟨s.cp, _, rfl⟩
    · exact ⟨s.cp, _, rfl⟩
    · obtain ⟨ms, l, n, -, -, -, -, -, rfl⟩ | ⟨ms, -, rfl⟩ | ⟨ms, e, -, -, -, -, rfl⟩ | ⟨e, -, rfl⟩ := hr
      · cases herr
      · exact ⟨cp', _, rfl⟩
      · exact ⟨cp', e, rfl⟩
      · exact ⟨cp', e, rfl⟩
  | _ =>
    obtain ⟨q, -, rfl⟩ | ⟨e, -, rfl⟩ := State.finish_cases h
    · cases herr
    · exact ⟨s.cp, e, rfl⟩

/-- Settles O45: STATUS and the growth of the cache are what a command can touch, and an error was raised on the state the
command found. -/
theorem errorIsAllOrNothing : Obligations.ErrorIsAllOrNothing := by
  unfold Obligations.ErrorIsAllOrNothing
  intro i s t h
  have w := exec_touches h
  refine ⟨w.status.imp_right fun ⟨_, hstatus⟩ => ?_, w.grown.isPrefix⟩
  obtain ⟨cp, e, rfl⟩ := exec_error_eq_raise h (by rw [hstatus]; rfl)
  exact ⟨e.code, e.code_range.1, e.code_range.2, rfl⟩

/-! ## The codes a completion reports -/

/-- `t` reports no error but those of `codes`. -/
def State.ReportsOnly (t : State) (codes : List (BitVec 4)) : Prop := t.status.err = true → t.status.ecode ∈ codes

section
variable {s t : State} {codes : List (BitVec 4)} {o : Host.Outcome State Fault Refusal}

theorem State.ReportsOnly.of_no_error (h : t.status.err = false) : t.ReportsOnly codes := by
  intro herr; rw [h] at herr; cases herr

theorem State.ReportsOnly.of_raise {e : CoreErr} (he : e.code ∈ codes) : (s.raise e).ReportsOnly codes := fun _ => he

theorem State.ReportsOnly.of_raise_mem {e : CoreErr} {l : List CoreErr} (he : e ∈ l)
    (hl : ∀ e ∈ l, e.code ∈ codes := by decide) : (s.raise e).ReportsOnly codes := .of_raise (hl e he)

theorem State.ReportsOnly.of_failed {code : BitVec 4} (heq : o = .next (s.failed code)) (h : o = .next t)
    (hcode : code ∈ codes := by decide) : t.ReportsOnly codes := by
  rw [heq] at h; cases h; exact fun _ => hcode

theorem State.ReportsOnly.of_write_fits {d : Reg} {v : Int} (heq : o = s.finish (s.writeBig d v)) (h : o = .next t)
    (hfit : fits s.par v = true) : t.ReportsOnly codes := by
  rw [heq, State.finish_writeBig_of_fits hfit] at h; cases h; exact .of_no_error rfl

/-- A write to a big register reports CapacityExceeded at most (40_alu.md R100). -/
theorem State.ReportsOnly.of_write {d : Reg} {v : Int} (heq : o = s.finish (s.writeBig d v)) (h : o = .next t)
    (hcode : 8 ∈ codes := by decide) : t.ReportsOnly codes := by
  cases hfit : fits s.par v with
  | true => exact .of_write_fits heq h hfit
  | false => exact .of_failed (heq.trans (State.finish_writeBig_of_not_fits hfit)) h hcode

/-! ## The big-integer commands -/

section
variable {d a b c : Reg}

theorem exec_ldi_reportsOnly (hwf : s.par.wf = true) (h : exec (.ldi d) s = .next t) : t.ReportsOnly [] :=
  .of_write_fits (exec_ldi_eq s d) h (fits_of_wf hwf (n := 1) (by norm_num) s.larg0.isLt)

theorem exec_rem_reportsOnly (ha : fits s.par (s.reg a) = true) (h : exec (.rem d a b) s = .next t) :
    t.ReportsOnly [1] := by
  by_cases hb : s.reg b = 0
  · exact .of_failed (exec_rem_of_zero d hb) h
  · exact .of_write_fits (exec_rem_of_ne_zero d hb) h (fits_truncRem _ ha)

theorem exec_mod_reportsOnly (hfit : fits s.par (s.reg b) = true) (h : exec (.mod d a b) s = .next t) :
    t.ReportsOnly [1] := by
  rcases le_or_gt (s.reg b) 0 with hb | hb
  · exact .of_failed (exec_mod_of_nonpos d hb) h
  · exact .of_write_fits (exec_mod_of_pos d hb) h (fits_emod _ hb hfit)

theorem exec_minv_reportsOnly (hfit : fits s.par (s.reg b) = true) (h : exec (.minv d a b) s = .next t) :
    t.ReportsOnly [1, 2] := by
  rcases le_or_gt (s.reg b) 0 with hb | hb
  · exact .of_failed (exec_minv_of_error d (modInverse_of_nonpos _ hb)) h
  obtain ⟨hcoprime, hshared⟩ := modInverse_spec (s.reg a) hb
  by_cases hgcd : Int.gcd (s.reg a) (s.reg b) = 1
  · obtain ⟨v, hok, hv0, hv, -⟩ := hcoprime hgcd
    exact .of_write_fits (exec_minv_of_ok d hok) h (fits_of_mem_range hfit hv0 hv)
  · exact .of_failed (exec_minv_of_error d (hshared hgcd)) h

theorem exec_mpow_reportsOnly (hfit : fits s.par (s.reg c) = true) (h : exec (.mpow d a b c) s = .next t) :
    t.ReportsOnly [1] := by
  by_cases hbad : s.reg c ≤ 0 ∨ s.reg b < 0
  · exact .of_failed (exec_mpow_of_invalid d hbad) h
  · rw [not_or, not_le, not_lt] at hbad
    obtain ⟨hc, hb⟩ := hbad
    exact .of_write_fits (exec_mpow_of_valid d hc hb) h (fits_emod _ hc hfit)

/-- A shift is one write, whatever its direction. -/
theorem finish_shiftBody_reportsOnly {n : Int} (h : s.finish (shiftBody d a n s) = .next t) : t.ReportsOnly [8] := by
  obtain ⟨k, rfl | rfl⟩ := n.eq_nat_or_neg
  · exact .of_write (congrArg s.finish (shiftBody_natCast s d a k)) h
  · exact .of_write (congrArg s.finish (shiftBody_neg_natCast s d a k)) h

end

/-! ## Bytes, and the Chinese remainder engine -/

theorem exec_ldbe_reportsOnly {d : Reg} (h : exec (.ldbe d) s = .next t) : t.ReportsOnly [8, 11] := by
  by_cases hr : s.inRange s.larg0.toNat s.larg1.toNat
  · exact .of_write (exec_ldbe_of_inRange d hr) h
  · exact .of_failed (exec_ldbe_of_not_inRange d hr) h

theorem exec_stbe_reportsOnly {a : Reg} (h : exec (.stbe a) s = .next t) : t.ReportsOnly [1, 4, 11] := by
  obtain ⟨l, -, -, rfl⟩ | ⟨e, he, rfl⟩ := exec_stbe_cases h
  · exact .of_no_error rfl
  · exact .of_raise_mem he

theorem exec_stbew_reportsOnly {a : Reg} (h : exec (.stbew a) s = .next t) : t.ReportsOnly [1, 4, 11] := by
  obtain ⟨l, -, -, rfl⟩ | ⟨e, he, rfl⟩ := exec_stbew_cases h
  · exact .of_no_error rfl
  · exact .of_raise_mem he

theorem exec_crtcoef_reportsOnly (h : exec .crtcoef s = .next t) : t.ReportsOnly [1, 2, 8, 11] := by
  obtain ⟨ms, ws, base, -, -, -, rfl⟩ | ⟨e, he, rfl⟩ := exec_crtcoef_cases h
  · exact .of_no_error rfl
  · exact .of_raise_mem he

theorem exec_crtcomb_reportsOnly {d : Reg} (hs : s.CrtSound) (h : exec (.crtcomb d) s = .next t) :
    t.ReportsOnly [1, 8, 11] := by
  by_cases hn : s.larg0.toNat = s.crt.entries.length
  swap
  · exact .of_failed (exec_crtcomb_of_length_ne d hn) h
  by_cases hr : s.inRange s.larg1.toNat (s.larg0.toNat * s.larg2.toNat)
  swap
  · exact .of_failed (exec_crtcomb_of_not_inRange d hn hr) h
  by_cases hwide : ∃ m ∈ s.crtOperands, fits s.par (m : Nat) = false
  · exact .of_failed (exec_crtcomb_of_not_fits d hn hr hwide) h
  · obtain ⟨r, hc, -⟩ := hs.combine hn
    exact .of_write (exec_crtcomb_of_ok d hn hr (by simpa using hwide) hc) h

section
variable {d : Reg} (hs : ∀ e ∈ s.crt.entries, fits s.par e.m = true ∧ fits s.par e.w = true)
include hs

theorem exec_crtw_reportsOnly (h : exec (.crtw d) s = .next t) : t.ReportsOnly [1] := by
  rcases le_or_gt s.crt.entries.length s.larg0.toNat with hk | hk
  · exact .of_failed (exec_crtw_of_length_le d hk) h
  · exact .of_write_fits (exec_crtw_of_entry d (List.getElem?_eq_getElem hk)) h (hs _ (List.getElem_mem hk)).2

theorem exec_crtm_reportsOnly (h : exec (.crtm d) s = .next t) : t.ReportsOnly [1] := by
  rcases le_or_gt s.crt.entries.length s.larg0.toNat with hk | hk
  · exact .of_failed (exec_crtm_of_length_le d hk) h
  · exact .of_write_fits (exec_crtm_of_entry d (List.getElem?_eq_getElem hk)) h (hs _ (List.getElem_mem hk)).1

end

/-! ## Lookups that fail -/

/-- A failed lookup raises Exhausted or CapacityExceeded (42_coprime.md R151). -/
theorem coprimeAt_error_mem {cp' : List Nat} {i : Nat} {e : CoreErr} (hs : s.CacheSound)
    (hx : coprimeAt s.par.cpMax s.cp i = (cp', .error e)) : e ∈ [CoreErr.exhausted, .capacityExceeded] := by
  rcases coprimeAt_error hs.1 hs.2 hx with ⟨rfl, -⟩ | ⟨rfl, -⟩ <;> simp

theorem coprimesAt_error_mem {cp' is : List Nat} {e : CoreErr} (hs : s.CacheSound)
    (hx : coprimesAt s.par.cpMax s.cp is = (cp', .error e)) : e ∈ [CoreErr.exhausted, .capacityExceeded] := by
  rcases coprimesAt_error _ hs.1 hs.2 hx with ⟨rfl, -⟩ | ⟨rfl, -⟩ <;> simp

theorem exec_cpget_reportsOnly {d : Reg} (hs : s.CacheSound) (h : exec (.cpget d) s = .next t) :
    t.ReportsOnly [3, 8] := by
  obtain ⟨cp', r, hx, ⟨m, -, -, rfl⟩ | ⟨m, -, -, rfl⟩ | ⟨e, rfl, rfl⟩⟩ := exec_cpget_cases h
  · exact .of_no_error rfl
  · exact .of_raise (by decide)
  · exact .of_raise_mem (coprimeAt_error_mem hs hx)

/-! ## The encoder -/

theorem exec_encinit_reportsOnly (h : exec .encinit s = .next t) : t.ReportsOnly [1, 6, 8, 11] := by
  obtain ⟨g, data, -, -, -, rfl⟩ | ⟨e, he, rfl⟩ := exec_encinit_cases h
  · exact .of_no_error rfl
  · exact .of_raise_mem he

/-- ENCGEN raises no Overflow: a slice modulo a modulus has at most 2 bytes (42_coprime.md R155). -/
theorem exec_encgen_reportsOnly (hs : s.CacheSound) (h : exec .encgen s = .next t) : t.ReportsOnly [3, 8, 10, 11] := by
  obtain ⟨-, rfl⟩ | rfl | ⟨cp', r, hx, hr⟩ := exec_encgen_cases h
  · exact .of_raise (by decide)
  · exact .of_raise (by decide)
  obtain ⟨m, l, -, -, -, -, -, rfl⟩ | ⟨m, rfl, hlong, -⟩ | ⟨e, rfl, rfl⟩ := hr
  · exact .of_no_error rfl
  · have hm : m ∈ cp' := List.mem_of_getElem? (coprimeAt_ok hx).2.1
    have hrange := ((CacheGrown.of_coprimeAt hx).sound hs.1).range hm
    rw [Enc.slices_minlen hrange] at hlong
    cases hlong
  · exact .of_raise_mem (coprimeAt_error_mem hs hx)

/-- A hunk register past the list holds 0, which fits. -/
theorem exec_enchunk_reportsOnly {d : Reg} (hs : ∀ v ∈ s.enc.h, fits s.par (v : Nat) = true)
    (h : exec (.enchunk d) s = .next t) : t.ReportsOnly [1, 10] := by
  cases hv : s.enc.valid with
  | false => exact .of_failed (exec_enchunk_of_invalid d hv) h
  | true =>
    rcases le_or_gt s.enc.nh s.larg0.toNat with hk | hk
    · exact .of_failed (exec_enchunk_of_le d hv hk) h
    refine .of_write_fits (exec_enchunk_of_lt d hv hk) h ?_
    rcases lt_or_ge s.larg0.toNat s.enc.h.length with hi | hi
    · rw [List.getD_eq_getElem _ 0 hi]; exact hs _ (List.getElem_mem hi)
    · rw [List.getD_eq_default _ 0 hi]; exact fits_zero s.par

/-! ## The decoder -/

theorem exec_decinit_reportsOnly (h : exec .decinit s = .next t) : t.ReportsOnly [1, 6, 8] := by
  obtain ⟨g, -, rfl⟩ | ⟨e, he, rfl⟩ := exec_decinit_cases h
  · exact .of_no_error rfl
  · exact .of_raise_mem he

theorem exec_decpush_reportsOnly (h : exec .decpush s = .next t) : t.ReportsOnly [1, 8, 10, 11] := by
  obtain ⟨bytes, -, -, -, rfl⟩ | ⟨e, he, rfl⟩ := exec_decpush_cases h
  · exact .of_no_error rfl
  · exact .of_raise_mem he

theorem exec_decdone_reportsOnly (hs : s.CacheSound) (h : exec .decdone s = .next t) : t.ReportsOnly [3, 8, 10] := by
  obtain ⟨-, rfl⟩ | ⟨cp', r, hx, ⟨ms, -, rfl⟩ | ⟨e, rfl, rfl⟩⟩ := exec_decdone_cases h
  · exact .of_raise (by decide)
  · exact .of_no_error rfl
  · exact .of_raise_mem (coprimesAt_error_mem hs hx)

/-- What the lookups of DECDONE and DECREC return on a sound cache are the moduli of the store. -/
theorem State.CacheSound.storeModuli_of_lookup {cp' ms : List Nat} (hs : s.CacheSound)
    (hx : coprimesAt s.par.cpMax s.cp s.dec.indices = (cp', .ok ms)) : s.storeModuli ms := by
  have hg := CacheGrown.of_coprimesAt hx
  obtain ⟨-, -, -, ⟨hcached, hms⟩ | ⟨i, -, -, he⟩⟩ := coprimesAt_spec _ _ _ _ _ hx
  · obtain rfl := Except.ok.inj hms
    refine List.forall₂_map_right_iff.2 (List.forall₂_same.2 fun i hi => ⟨⟨cp', hg.sound hs.1, ?_⟩, ?_⟩)
    · rw [List.getD_eq_getElem _ 0 (hcached i hi), List.getElem?_eq_getElem (hcached i hi)]
    · exact (hcached i hi).trans_le (hg.within hs.2)
  · simp at he

/-- Over a sound store `recover()` raises ReconstructionFailed alone, since both coefficient sets exist (44_codec.md
R204). -/
theorem recover_error_of_storeModuli {ms : List Nat} {e : CoreErr} (hwf : s.par.wf = true) (hdec : s.dec.Sound s.par)
    (hms : s.storeModuli ms) (h : recover s.par s.dec ms = .error e) : e = .reconstructionFailed := by
  obtain ⟨⟨ws, hfull⟩, ws', hsub⟩ :=
    exists_coefficients hdec hwf hms.length_eq hms.range (hms.pairwise_coprime hdec.rising)
  rcases recover_error h with ⟨l, rfl | rfl, hl⟩ | he
  · rw [hfull] at hl; cases hl
  · rw [hsub] at hl; cases hl
  · exact he

theorem exec_decrec_reportsOnly (hwf : s.par.wf = true) (hs : s.CacheSound) (hdec : s.DecSound)
    (h : exec .decrec s = .next t) : t.ReportsOnly [3, 5, 8, 9, 10, 11] := by
  obtain ⟨-, rfl⟩ | rfl | ⟨cp', r, hx, hr⟩ := exec_decrec_cases h
  · exact .of_raise (by decide)
  · exact .of_raise (by decide)
  obtain ⟨ms, l, n, -, -, -, -, -, rfl⟩ | ⟨ms, -, rfl⟩ | ⟨ms, e, rfl, hv, -, hrec, rfl⟩ | ⟨e, rfl, rfl⟩ := hr
  · exact .of_no_error rfl
  · exact .of_raise (by decide)
  · obtain rfl := recover_error_of_storeModuli hwf (hdec.dec hv) (hs.storeModuli_of_lookup hx) hrec
    exact .of_raise (by decide)
  · exact .of_raise_mem (coprimesAt_error_mem hs hx)

end

/-! ## The statements -/

/-- Settles O46: one lemma per row of the table of R222. -/
theorem raisableErrors : Obligations.RaisableErrors := by
  unfold Obligations.RaisableErrors
  intro i s t hwf ⟨hreg, hentries, hbase, hhunks⟩ hcache hcrt _ hdec h
  change t.ReportsOnly (raisable i)
  cases i with
  | nop => cases h; exact .of_no_error rfl
  | ldi d => exact exec_ldi_reportsOnly hwf h
  | mov d a => exact .of_write_fits (exec_mov_eq s d a) h (hreg a)
  | add d a b => exact .of_write (codes := [8]) (exec_add_eq s d a b) h
  | sub d a b => exact .of_write (codes := [8]) (exec_sub_eq s d a b) h
  | mul d a b => exact .of_write (codes := [8]) (exec_mul_eq s d a b) h
  | rem d a b => exact exec_rem_reportsOnly (hreg a) h
  | mod d a b => exact exec_mod_reportsOnly (hreg b) h
  | gcd d a b => exact .of_write_fits (exec_gcd_eq s d a b) h (fits_bigGcd (hreg a) (hreg b))
  | minv d a b => exact exec_minv_reportsOnly (hreg b) h
  | pow d => exact .of_write (codes := [8]) (exec_pow_eq s d) h
  | mpow d a b c => exact exec_mpow_reportsOnly (hreg c) h
  | cmp a b => cases h; exact .of_no_error rfl
  | shl d a => exact finish_shiftBody_reportsOnly h
  | shr d a => exact finish_shiftBody_reportsOnly h
  | ldbe d => exact exec_ldbe_reportsOnly h
  | stbe a => exact exec_stbe_reportsOnly h
  | stbew a => exact exec_stbew_reportsOnly h
  | cpget d => exact exec_cpget_reportsOnly hcache h
  | crtcoef => exact exec_crtcoef_reportsOnly h
  | crtcomb d => exact exec_crtcomb_reportsOnly hcrt h
  | crtw d => exact exec_crtw_reportsOnly hentries h
  | crtm d => exact exec_crtm_reportsOnly hentries h
  | crtbase d => exact .of_write_fits rfl h hbase
  | encinit => exact exec_encinit_reportsOnly h
  | encgen => exact exec_encgen_reportsOnly hcache h
  | enchunk d => exact exec_enchunk_reportsOnly hhunks h
  | decinit => exact exec_decinit_reportsOnly h
  | decpush => exact exec_decpush_reportsOnly h
  | decdone => exact exec_decdone_reportsOnly hcache h
  | decrec => exact exec_decrec_reportsOnly hwf hcache hdec h

/-- Settles O8: the engine's turn of an idle block is no change. -/
theorem idleRetainsState : Obligations.IdleRetainsState := by
  unfold Obligations.IdleRetainsState
  intro s hb
  refine ⟨fun hs => ?_, fun rest hs => ?_⟩
  · exact (moveOnce_nil hs).trans (engineTurn_idle hb)
  · exact (moveOnce_engine hs).trans (engineTurn_idle hb)

end Sys2Proof.Machine
end

section
/-! # What reset leaves -/

namespace Sys2Proof.Machine

/-- A soft reset of a reset state is that state. -/
theorem resetWith_resetValues (p : Params) (mem : Memory) (epoch : Nat) (script : List Event) (answers : List Answer) :
    (State.resetWith p mem epoch script answers).ResetValues :=
  softReset_resetValues (State.resetWith p mem epoch script answers)

theorem step_powerOn {s : State} {rest : List Event} (h : s.script = .powerOn :: rest) :
    step s = .next { s with script := rest }.powerOn :=
  moveOnce_event h (by simp)

/-! ## The register window on the reset values (10_state.md R48) -/

theorem countWord_zero : countWord 0 = 0 := countWord_of_lt (by decide)

/-- The cache holds its seed. -/
theorem windowReg_cacheLength_of_resetValues {s : State} (h : s.ResetValues) : s.windowReg 0x2C = 1 := by
  obtain ⟨-, -, -, -, -, hcp, -⟩ := h
  calc s.windowReg 0x2C = countWord s.cp.length := rfl
    _ = countWord 1 := by rw [hcp]; rfl
    _ = 1 := countWord_of_lt (by decide)

/-- The identification at 0x00, the cache's length at 0x2C and the capabilities from 0x30 to 0x44 are the only registers that
need not read 0. -/
theorem windowReg_zero_of_resetValues {s : State} (h : s.ResetValues) {o : Nat} (hid : o ≠ 0x00) (hcache : o ≠ 0x2C)
    (hcap : o < 0x30 ∨ 0x44 < o) : s.windowReg o = 0 := by
  obtain ⟨-, hflags, hres0, hres1, hmax, -, hcrt, henc, hdec, hstatus, -, -, -, -, harg0, harg1, harg2⟩ := h
  have hfword : s.flags.word = 0 := by rw [hflags]; rfl
  have hsword : s.status.word = 0 := by rw [hstatus]; rfl
  unfold State.windowReg
  split
  case h_1 | h_10 | h_11 | h_12 | h_13 | h_14 | h_15 | h_16 => omega
  case h_2 => exact hsword
  case h_3 => exact hfword
  all_goals simp [hres0, hres1, hmax, hcrt, henc, hdec, harg0, harg1, harg2, countWord_zero]

/-- Settles O54: both resets are `resetWith`, and a register is read by its offset. -/
theorem resetLeavesResetValues : Obligations.ResetLeavesResetValues := by
  unfold Obligations.ResetLeavesResetValues
  have hreset : State.reset.ResetValues := resetWith_resetValues _ _ _ _ _
  refine ⟨hreset, rfl, fun s rest hs => ?_, rfl, fun o ho => ?_, ?_, rfl⟩
  · exact ⟨_, step_powerOn hs, resetWith_resetValues _ _ _ _ _, rfl, rfl, rfl⟩
  · have hoff : o % 4 = 0 ∧ o ≠ 0x00 ∧ o ≠ 0x2C ∧ (o < 0x30 ∨ 0x44 < o) := by clear hreset; revert o; decide
    obtain ⟨halign, hid, hcache, hcap⟩ := hoff
    exact (readWindow_aligned _ halign).trans (windowReg_zero_of_resetValues hreset hid hcache hcap)
  · exact (readWindow_aligned _ (by decide)).trans (windowReg_cacheLength_of_resetValues hreset)

end Sys2Proof.Machine
end
